-- ==== Sys2Proof/Word.lean ====
section
/-! DEFINITION. The bit-vector widths of the CK16 block: bytes of the buffers, 16-bit register fields, 32-bit command words and registers (R7, R9 of 00_scope.md), and 20-bit host byte addresses (R60 of 20_memory.md). -/

namespace Sys2Proof

/-- A buffer byte, IMM8 or one byte of the wire frame. -/
abbrev Byte := BitVec 8

/-- A 16-bit register field: CRC, ARG, RXLEN, TXLEN and the record registers. -/
abbrev Half := BitVec 16

/-- A 32-bit command word, CSR or catalog word. -/
abbrev Word := BitVec 32

/-- A host byte address: 20 bits (R60). -/
abbrev HostAddr := BitVec 20

end Sys2Proof
end

