-- ==== Sys2Proof/Syntax.lean ====
section
/-! DEFINITION. The sixteen commands of R92 (30_encoding.md), one constructor for each row of spec/opcode_table.json, with the operands of R93. -/

namespace Sys2Proof

/-- A CK16 command (R92). IMM8 operands are bytes (R93: "an 8-bit unsigned value",
"c ∈ 0..255"); OFF16 operands are natural numbers, as R93 says, and `Instr.wf` says that they fit
their 16 bits; REL and ATT are the single bit IMM8[0]. -/
inductive Instr where
  /-- CRC.INIT (R111). -/
  | crcInit
  /-- CRC.BYTE d (R112). -/
  | crcByte (d : Byte)
  /-- CRC.RX s, count from ARG (R113). -/
  | crcRx (start : Nat)
  /-- FRM.ENC c, P (R131). -/
  | frmEnc (c : Byte) (plen : Nat)
  /-- FRM.DEC (R134). -/
  | frmDec
  /-- FLD.U8 (R151). -/
  | fldU8 (rel : Bool) (off : Nat)
  /-- FLD.U16 (R152). -/
  | fldU16 (rel : Bool) (off : Nat)
  /-- FLD.U32 (R153). -/
  | fldU32 (rel : Bool) (off : Nat)
  /-- FLD.S8 (R154). -/
  | fldS8 (rel : Bool) (off : Nat)
  /-- FLD.YEAR (R155). -/
  | fldYear (rel : Bool) (off : Nat)
  /-- FLD.DATE6 (R156). -/
  | fldDate6 (rel : Bool) (off : Nat)
  /-- FLD.IP (R157). -/
  | fldIp (rel : Bool) (off : Nat)
  /-- FLD.ASCII, end offset from ARG (R158). -/
  | fldAscii (rel : Bool) (start : Nat)
  /-- RSP.CHECK c (R182). -/
  | rspCheck (c : Byte)
  /-- REC.START (R184). -/
  | recStart
  /-- REC.NEXT (ATT = 0) and REC.NEXT.ATT (ATT = 1) (R188). -/
  | recNext (att : Bool)
  deriving DecidableEq, Repr

end Sys2Proof
end

