-- ==== Sys2Proof/WellFormed.lean ====
section
/-! DEFINITION. Which commands have an encoding: an OFF16 operand must fit its 16 bits (R90, R93 of 30_encoding.md; R98: "A field that does not fit its width ... is an assembly error"). The other operands fit by their types. -/

namespace Sys2Proof

/-- OFF16 is a natural number 0..65535 (R93). -/
def fitsOff16 (n : Nat) : Bool := decide (n < 65536)

/-- The command's operands fit their fields (R93, R98). -/
def Instr.wf : Instr → Bool
  | .crcInit => true
  | .crcByte _ => true
  | .crcRx s => fitsOff16 s
  | .frmEnc _ p => fitsOff16 p
  | .frmDec => true
  | .fldU8 _ o => fitsOff16 o
  | .fldU16 _ o => fitsOff16 o
  | .fldU32 _ o => fitsOff16 o
  | .fldS8 _ o => fitsOff16 o
  | .fldYear _ o => fitsOff16 o
  | .fldDate6 _ o => fitsOff16 o
  | .fldIp _ o => fitsOff16 o
  | .fldAscii _ o => fitsOff16 o
  | .rspCheck _ => true
  | .recStart => true
  | .recNext _ => true

end Sys2Proof
end

