-- ==== Sys2Proof/Decode.lean ====
section
/-! DEFINITION. The decoder of a command word (R90-R97 of 30_encoding.md), total on every word and every list of bytes and rejecting by name; after it the encoder of R92, and the host's view decodeTableWord. -/

namespace Sys2Proof

/-- Why a word or a list of bytes encodes no command (R95, R96, R97). -/
inductive DecodeReject where
  /-- Not the four bytes of one 32-bit word (R90, R91: there is no other length). -/
  | badLength (n : Nat)
  /-- OP is not in the table of R92 (R97). -/
  | unassignedOp (op : Byte)
  /-- A 1 in a bit that R92 marks 0 (R95). -/
  | reservedBits (op : Byte)
  deriving DecidableEq, Repr

/-- OP, bits [7:0] (R90). -/
def wordOp (w : Word) : Byte := w.extractLsb' 0 8

/-- IMM8, bits [15:8] (R90). -/
def wordImm (w : Word) : Byte := w.extractLsb' 8 8

/-- OFF16, bits [31:16] (R90). -/
def wordOff (w : Word) : Half := w.extractLsb' 16 16

/-- The opcodes of R92, by mnemonic. -/
inductive OpName where
  | crcInit
  | crcByte
  | crcRx
  | frmEnc
  | frmDec
  | fldU8
  | fldU16
  | fldU32
  | fldS8
  | fldYear
  | fldDate6
  | fldIp
  | fldAscii
  | rspCheck
  | recStart
  | recNext
  deriving DecidableEq, Repr

/-- The OP byte of an opcode (R92). -/
def opByte : OpName → Byte
  | .crcInit => 0x10#8
  | .crcByte => 0x11#8
  | .crcRx => 0x12#8
  | .frmEnc => 0x20#8
  | .frmDec => 0x21#8
  | .fldU8 => 0x30#8
  | .fldU16 => 0x31#8
  | .fldU32 => 0x32#8
  | .fldS8 => 0x33#8
  | .fldYear => 0x34#8
  | .fldDate6 => 0x35#8
  | .fldIp => 0x36#8
  | .fldAscii => 0x37#8
  | .rspCheck => 0x40#8
  | .recStart => 0x41#8
  | .recNext => 0x42#8

/-- Every opcode (R92). -/
def allOps : List OpName :=
  [.crcInit, .crcByte, .crcRx, .frmEnc, .frmDec, .fldU8, .fldU16, .fldU32, .fldS8, .fldYear,
   .fldDate6, .fldIp, .fldAscii, .rspCheck, .recStart, .recNext]

/-- The opcode with that OP byte; none for an unassigned OP (R97). -/
def opName (op : Byte) : Option OpName := allOps.find? fun o => opByte o == op

/-- IMM8[7:1] are 0 (the FLD commands and REC.NEXT, R92). -/
def onlyBit0 (imm : Byte) : Bool := imm.extractLsb' 1 7 == 0#7

/-- The bits of IMM8 and OFF16 that R92 marks 0 for the opcode are 0 (R95). -/
def reservedClear (o : OpName) (imm : Byte) (off : Half) : Bool :=
  match o with
  | .crcInit => imm == 0#8 && off == 0#16
  | .crcByte => off == 0#16
  | .crcRx => imm == 0#8
  | .frmEnc => true
  | .frmDec => imm == 0#8 && off == 0#16
  | .fldU8 => onlyBit0 imm
  | .fldU16 => onlyBit0 imm
  | .fldU32 => onlyBit0 imm
  | .fldS8 => onlyBit0 imm
  | .fldYear => onlyBit0 imm
  | .fldDate6 => onlyBit0 imm
  | .fldIp => onlyBit0 imm
  | .fldAscii => onlyBit0 imm
  | .rspCheck => off == 0#16
  | .recStart => imm == 0#8 && off == 0#16
  | .recNext => onlyBit0 imm && off == 0#16

/-- The command of an opcode, IMM8 and OFF16 (R93): OFF16 a natural number, REL and ATT the bit
IMM8[0]. -/
def commandOf (o : OpName) (imm : Byte) (off : Half) : Instr :=
  match o with
  | .crcInit => .crcInit
  | .crcByte => .crcByte imm
  | .crcRx => .crcRx off.toNat
  | .frmEnc => .frmEnc imm off.toNat
  | .frmDec => .frmDec
  | .fldU8 => .fldU8 (imm.getLsbD 0) off.toNat
  | .fldU16 => .fldU16 (imm.getLsbD 0) off.toNat
  | .fldU32 => .fldU32 (imm.getLsbD 0) off.toNat
  | .fldS8 => .fldS8 (imm.getLsbD 0) off.toNat
  | .fldYear => .fldYear (imm.getLsbD 0) off.toNat
  | .fldDate6 => .fldDate6 (imm.getLsbD 0) off.toNat
  | .fldIp => .fldIp (imm.getLsbD 0) off.toNat
  | .fldAscii => .fldAscii (imm.getLsbD 0) off.toNat
  | .rspCheck => .rspCheck imm
  | .recStart => .recStart
  | .recNext => .recNext (imm.getLsbD 0)

/-- The command a word encodes (R92), or the name of the reason it encodes none (R95, R96). -/
def decodeWord (w : Word) : Except DecodeReject Instr :=
  match opName (wordOp w) with
  | none => .error (.unassignedOp (wordOp w))
  | some o =>
    if reservedClear o (wordImm w) (wordOff w) then .ok (commandOf o (wordImm w) (wordOff w))
    else .error (.reservedBits (wordOp w))

/-- The command a word encodes, or none (R96). -/
def decode (w : Word) : Option Instr := (decodeWord w).toOption

/-- Four bytes, lowest address first, as the little-endian 32-bit write to CMD carries them
(R65 of 20_memory.md). -/
def bytesToWord (b0 b1 b2 b3 : Byte) : Word := b3 ++ b2 ++ b1 ++ b0

/-- The decoder on any list of bytes: one 32-bit word, or rejected by its length (R90, R91). -/
def decodeBytes : List Byte → Except DecodeReject Instr
  | [b0, b1, b2, b3] => decodeWord (bytesToWord b0 b1 b2 b3)
  | bs => .error (.badLength bs.length)

/-- OFF16, IMM8 and OP packed into a word (R90). -/
def packWord (op imm : Byte) (off : Nat) : Word := BitVec.ofNat 16 off ++ imm ++ op

/-- IMM8 holding one flag in bit 0, the other bits 0 (REL and ATT, R92). -/
def flagImm (b : Bool) : Byte := if b then 1#8 else 0#8

/-- The word of a command (R92). An operand that does not fit is refused by `Instr.wf`, not here. -/
def encode : Instr → Word
  | .crcInit => packWord (opByte .crcInit) 0#8 0
  | .crcByte d => packWord (opByte .crcByte) d 0
  | .crcRx s => packWord (opByte .crcRx) 0#8 s
  | .frmEnc c p => packWord (opByte .frmEnc) c p
  | .frmDec => packWord (opByte .frmDec) 0#8 0
  | .fldU8 r o => packWord (opByte .fldU8) (flagImm r) o
  | .fldU16 r o => packWord (opByte .fldU16) (flagImm r) o
  | .fldU32 r o => packWord (opByte .fldU32) (flagImm r) o
  | .fldS8 r o => packWord (opByte .fldS8) (flagImm r) o
  | .fldYear r o => packWord (opByte .fldYear) (flagImm r) o
  | .fldDate6 r o => packWord (opByte .fldDate6) (flagImm r) o
  | .fldIp r o => packWord (opByte .fldIp) (flagImm r) o
  | .fldAscii r o => packWord (opByte .fldAscii) (flagImm r) o
  | .rspCheck c => packWord (opByte .rspCheck) c 0
  | .recStart => packWord (opByte .recStart) 0#8 0
  | .recNext a => packWord (opByte .recNext) (flagImm a) 0

/-- The bytes of a word, lowest address first (R65 of 20_memory.md). -/
def wordToBytes (w : Word) : List Byte :=
  [w.extractLsb' 0 8, w.extractLsb' 8 8, w.extractLsb' 16 8, w.extractLsb' 24 8]

/-- The rows of spec/opcode_table.json: the bits each row fixes (mask) and their values (match). -/
def opcodeRows : List (Word × Word) :=
  [(0xFFFFFFFF#32, 0x00000010#32), (0xFFFF00FF#32, 0x00000011#32), (0x0000FFFF#32, 0x00000012#32),
   (0x000000FF#32, 0x00000020#32), (0xFFFFFFFF#32, 0x00000021#32),
   (0x0000FEFF#32, 0x00000030#32), (0x0000FEFF#32, 0x00000031#32), (0x0000FEFF#32, 0x00000032#32),
   (0x0000FEFF#32, 0x00000033#32), (0x0000FEFF#32, 0x00000034#32), (0x0000FEFF#32, 0x00000035#32),
   (0x0000FEFF#32, 0x00000036#32), (0x0000FEFF#32, 0x00000037#32),
   (0xFFFF00FF#32, 0x00000040#32), (0xFFFFFFFF#32, 0x00000041#32), (0xFFFFFEFF#32, 0x00000042#32)]

/-- The word has the bits the row fixes. -/
def fitsRow (w : Word) (row : Word × Word) : Bool := w &&& row.1 == row.2

/-- The host's view of the decoder: the command of an instruction whose low `nbits` bits are `w`,
numbered as spec/opcode_table.json numbers them, every bit above them 0. -/
def decodeTableWord (nbits w : Nat) : Option Instr :=
  (decodeBytes (wordToBytes (BitVec.ofNat 32 (w % 2 ^ nbits)))).toOption

end Sys2Proof
end

