-- ==== Sys2Proof/Config.lean ====
section
/-! DEFINITION. What the spec leaves open: the parameter BUF_BYTES (R7 of 00_scope.md) and the two free values of the host port (R73 of 20_memory.md) and of a command's latency (R253 of 70_reset_and_hazards.md). None of the opaque constants has a body, so no proof can see a value of it. -/

namespace Sys2Proof.Config

/-- Where BUF_BYTES is drawn from: any natural number (log entry 1). -/
opaque bufBytesFree : Nat

/-- BUF_BYTES of the machine that reset gives, folded into the legal range 16 .. 65535 of R7.
Every legal value is the value for some `bufBytesFree`. DESIGN CHOICE, safe (log entry 1). -/
def bufBytes : Nat := bufBytesFree % 65520 + 16

/-- The datum of a host read while BUSY, other than STATUS, ID and PARAM, for the draw of that
number: R73 says it is unspecified. Free value, safe (log entry 5). -/
opaque busyRead : Nat → Word

/-- How many of the host's statements still go before the engine step of the command accepted at
that draw: R253 gives a command no duration and no bound (S15 of 93_implementation_defined.md).
A natural number, so the step comes in the end: the weak fairness of R47 and R253. Free value
(log entry 2). -/
opaque latency : Nat → Nat

end Sys2Proof.Config
end

