-- ==== Sys2Proof/Machine/HostStmt.lean ====
section
/-! DEFINITION. The statements a host program is made of (R99 and R100 of 30_encoding.md), and the reset event of the host's environment (R240 of 70_reset_and_hazards.md). -/

namespace Sys2Proof.Machine

/-- The three widths of a host access (R66 of 20_memory.md). -/
inductive PortWidth where
  | one
  | two
  | four
  deriving DecidableEq, Repr

/-- One statement of a host program (R99). `WR name, v` and `RD name` are 4-byte accesses at the
register's address, `WB` is a run of 1-byte writes, `EXEC c` is a write to CMD and a `poll`
(Machine/HostMacros.lean). Labels are statement indices. -/
inductive HostStmt where
  /-- A host read of the given width (RD; R66). -/
  | read (a : HostAddr) (n : PortWidth)
  /-- A host write of the low bytes of a datum (WR, WB; R66). -/
  | write (a : HostAddr) (n : PortWidth) (v : Word)
  /-- POLL: read STATUS until BUSY = 0. -/
  | poll
  /-- BNE.END: if the last read STATUS has END = 0, go to the statement of that index. -/
  | bneEnd (target : Nat)
  /-- "if END = 1 leave" of REC.FOREACH (R100). -/
  | beqEnd (target : Nat)
  /-- "go to L" of REC.FOREACH (R100). -/
  | goto (target : Nat)
  /-- The reset input is asserted (R240, R214). -/
  | assertReset
  deriving DecidableEq, Repr

end Sys2Proof.Machine
end

