-- ==== Sys2Proof/Machine/State.lean ====
section
/-! DEFINITION. The state of the CK16 block (10_state.md), of the host that drives it (R15, R99), and its value after reset (R54); the reasons a step stops (R217 of 60_exceptions.md). Plain data only. -/

namespace Sys2Proof.Machine

/-- The three byte buffers (R51). -/
inductive BufferId where
  | tx
  | rx
  | str
  deriving DecidableEq, Repr

/-- The codes of STATUS.ERR (R210 of 60_exceptions.md). Codes 9-15 are never written (R29), so
they have no constructor. -/
inductive ErrCode where
  | ok
  | frameShort
  | frameBadHeader
  | checksumMismatch
  | unknownCommand
  | incompleteResponse
  | illegalOp
  | range
  | badParam
  deriving DecidableEq, Repr

/-- The model faults of R217. Each one ends the run; none gives a state. All are safe: the model
stops where a real block might go on. -/
inductive Fault where
  /-- A read of a buffer byte never written since reset (R53): raised by FRM.ENC, CRC.RX, FRM.DEC,
  the field commands, REC.NEXT.ATT and host reads of a buffer window. Safe. -/
  | unwrittenRead (b : BufferId) (i : Nat)
  /-- A misaligned or wrong-width host access of `n` bytes (R69): raised by host reads and writes.
  Safe. -/
  | hostBusError (a : HostAddr) (n : Nat)
  /-- A host write other than CMD or STATUS while BUSY = 1 (R73): raised by host writes. Safe. -/
  | hostWriteWhileBusy (a : HostAddr)
  deriving DecidableEq, Repr

/-- Reasons for which a step has no meaning. -/
inductive Refusal where
  /-- An instruction of the opcode table that exec has no meaning for yet, by its mnemonic: raised
  by exec alone. Safe. No arm of exec raises it. -/
  | notModelled (mnemonic : String)
  deriving DecidableEq, Repr

/-- The non-reserved fields of one 16-byte catalog entry (R49). -/
structure CatEntry where
  valid : Bool
  kind : Bool
  minLen : Half
  recW : Half
  recFirst : Half
  recHdr : Half
  deriving DecidableEq, Repr

/-- The entry whose four words are 0 (R50): what every entry is after reset. -/
def CatEntry.zero : CatEntry :=
  { valid := false, kind := false, minLen := 0#16, recW := 0#16, recFirst := 0#16, recHdr := 0#16 }

/-- A byte buffer: the written bytes by index, strictly rising; an index it does not list is
unwritten (R51, R53). -/
abbrev Memory := List Host.Cell

/-- The catalog: the entries that are not all 0 by command code, strictly rising (R49, R50). -/
abbrev Catalog := List (Nat × CatEntry)

/-- The machine. Reserved register bits are RAZ/WI (R21) and have no storage. STATUS.BUSY is
1 exactly when the pending command is not none (R47), so it is stored once, as `pending`. -/
structure State where
  /-- PARAM[15:0] = BUF_BYTES, the capacity of each buffer (R7, R23). No step changes it. -/
  bufBytes : Nat
  /-- CTRL[0] STRICT (R24). -/
  strict : Bool
  /-- STATUS[1] CKOK (R26). -/
  ckok : Bool
  /-- STATUS[2] END (R27). -/
  endFlag : Bool
  /-- STATUS[3] OVR (R28). -/
  ovr : Bool
  /-- STATUS[11:8] ERR (R29). -/
  err : ErrCode
  /-- The pending command word, or none (R47). -/
  pending : Option Word
  /-- ARG[15:0] (R31). -/
  arg : Half
  /-- CRC[15:0] (R32). -/
  crc : Half
  /-- DEVID (R33). -/
  devid : Word
  /-- TXLEN[15:0] (R34). -/
  txlen : Half
  /-- RXLEN[15:0] (R35). -/
  rxlen : Half
  /-- F_DEVID (R36). -/
  fDevid : Word
  /-- F_CMD[7:0] (R37). -/
  fCmd : Byte
  /-- F_PLEN[15:0] (R38). -/
  fPlen : Half
  /-- F_CKSUM: computed [31:16], received [15:0] (R39). -/
  fCksum : Word
  /-- RES0 (R40). -/
  res0 : Word
  /-- RES1 (R40). -/
  res1 : Word
  /-- RES2 (R40). -/
  res2 : Word
  /-- RES3 (R40). -/
  res3 : Word
  /-- STRLEN[15:0] (R41). -/
  strlen : Half
  /-- CAT_KIND[0] (R42). -/
  catKind : Bool
  /-- REC_W[15:0] (R43). -/
  recW : Half
  /-- REC_FIRST[15:0] (R44). -/
  recFirst : Half
  /-- REC_HDR[15:0] (R45). -/
  recHdr : Half
  /-- REC_COUNT[15:0] (R46). -/
  recCount : Half
  /-- REC_IDX[15:0] (R46). -/
  recIdx : Half
  /-- REC_BASE (R46). -/
  recBase : Word
  /-- The command catalog CAT (R49). -/
  cat : Catalog
  /-- TXBUF (R51). -/
  txbuf : Memory
  /-- RXBUF (R51). -/
  rxbuf : Memory
  /-- STRBUF (R51). -/
  strbuf : Memory
  /-- The model's own: how many host statements still go before the pending command's engine step
  (R253, S15; log entry 2). -/
  delay : Nat
  /-- The model's own: the counter the free values are applied to (R73; log entry 5). -/
  draws : Nat
  /-- The model's own: the host's program (R99; log entry 4). -/
  hostProg : List HostStmt
  /-- The model's own: the index of the host's next statement (R99; log entry 4). -/
  hostPc : Nat
  /-- The model's own: the STATUS word the host read last (R99; log entry 4). -/
  lastStatus : Word
  /-- The model's own: the data of the host's reads, newest first (R99; log entry 4). -/
  hostReads : List Word
  deriving DecidableEq, Repr

/-- The machine right after reset: the CSR table of R21 and R54; every buffer byte unwritten; the
host with no program (the model's own fields: log entries 2, 4 and 5). -/
def State.reset : State :=
  { bufBytes := Config.bufBytes
    strict := false, ckok := false, endFlag := false, ovr := false, err := .ok
    pending := none
    arg := 0#16, crc := 0xFFFF#16, devid := 5#32, txlen := 0#16, rxlen := 0#16
    fDevid := 0#32, fCmd := 0#8, fPlen := 0#16, fCksum := 0#32
    res0 := 0#32, res1 := 0#32, res2 := 0#32, res3 := 0#32, strlen := 0#16, catKind := false
    recW := 16#16, recFirst := 0#16, recHdr := 0#16, recCount := 0#16, recIdx := 0#16, recBase := 0#32
    cat := [], txbuf := [], rxbuf := [], strbuf := []
    delay := 0, draws := 0, hostProg := [], hostPc := 0, lastStatus := 0#32, hostReads := [] }

end Sys2Proof.Machine
end

