-- ==== Sys2Proof/Machine/Ops.lean ====
section
/-! DEFINITION. The named operations over buffers, catalog and completion: sparse lists in canonical form, byte reads that fault on an unwritten byte (R53 of 10_state.md), and the two ends of every command, complete and raise (R11 of 00_scope.md; R215, R216 of 60_exceptions.md: this is all an error does, the block has no trap entry and no return). -/

namespace Sys2Proof.Machine

/-! Sparse lists: keys strictly rising. -/

/-- What a sparse list holds at a key, if it lists it. -/
def sparseGet {α : Type} : List (Nat × α) → Nat → Option α
  | [], _ => none
  | (k, v) :: rest, a => if a = k then some v else sparseGet rest a

/-- The list with the key's value replaced or inserted in order. -/
def sparsePut {α : Type} : List (Nat × α) → Nat → α → List (Nat × α)
  | [], a, v => [(a, v)]
  | (k, w) :: rest, a, v =>
    if a < k then (a, v) :: (k, w) :: rest
    else if a = k then (a, v) :: rest
    else (k, w) :: sparsePut rest a v

/-- The list without the key. -/
def sparseErase {α : Type} : List (Nat × α) → Nat → List (Nat × α)
  | [], _ => []
  | (k, w) :: rest, a => if a = k then rest else (k, w) :: sparseErase rest a

/-- Keys strictly rising, every one at least `lo`. -/
def sparseRising {α : Type} : Nat → List (Nat × α) → Bool
  | _, [] => true
  | lo, (k, _) :: rest => decide (lo ≤ k) && sparseRising (k + 1) rest

/-- The canonical form of a buffer: indices strictly rising, one entry each. A listed byte is never
equal to what an unlisted index reads as, since that has no value (R51). -/
def Memory.wf (m : Memory) : Bool := sparseRising 0 m

/-- Every listed index is a byte the buffer has: below BUF_BYTES (R62). -/
def Memory.within (m : Memory) (cap : Nat) : Bool := m.all fun c => decide (c.1 < cap)

/-- The canonical form of the catalog: codes strictly rising, below 256 (R49), and no listed entry
equal to the all-zero entry that an unlisted code reads as (R50). -/
def Catalog.wf (c : Catalog) : Bool :=
  sparseRising 0 c && c.all fun e => decide (e.1 < 256) && !(e.2 == CatEntry.zero)

/-- CAT[c] (R49, R50). -/
def catGet (m : Catalog) (c : Nat) : CatEntry := (sparseGet m c).getD CatEntry.zero

/-- CAT[c] replaced, in canonical form. -/
def catPut (m : Catalog) (c : Nat) (e : CatEntry) : Catalog :=
  if e = CatEntry.zero then sparseErase m c else sparsePut m c e

/-! Buffers. -/

/-- What a buffer byte that nothing has written reads as: no value (R51, R53). -/
def unwrittenByte : Option Byte := none

/-- The value of buffer byte i, if it was ever written (R51). -/
def memGet (m : Memory) (i : Nat) : Option Byte :=
  match sparseGet m i with
  | some v => some v
  | none => unwrittenByte

/-- Buffer byte i written. -/
def memPut (m : Memory) (i : Nat) (v : Byte) : Memory := sparsePut m i v

/-- Bytes i, i+1, ... written in order. -/
def memPutAll (m : Memory) (i : Nat) : List Byte → Memory
  | [] => m
  | v :: vs => memPutAll (memPut m i v) (i + 1) vs

/-- A read of byte i of a buffer: a byte never written is the fault of R53. -/
def readByte (b : BufferId) (m : Memory) (i : Nat) : Except Fault Byte :=
  match memGet m i with
  | some v => .ok v
  | none => .error (.unwrittenRead b i)

/-- Bytes i .. i+n-1 of a buffer, the lowest index first (log entry 8). -/
def readRange (b : BufferId) (m : Memory) : Nat → Nat → Except Fault (List Byte)
  | _, 0 => .ok []
  | i, n + 1 => do
    let v ← readByte b m i
    let vs ← readRange b m (i + 1) n
    return v :: vs

/-- The buffer of a name (R51). -/
def bufferOf (b : BufferId) (s : State) : Memory :=
  match b with
  | .tx => s.txbuf
  | .rx => s.rxbuf
  | .str => s.strbuf

/-! The end of a command. -/

/-- `complete` (R11): ERR <- OK, the pending command <- none, so BUSY <- 0 (R47). -/
def complete (s : State) : State := { s with err := .ok, pending := none }

/-- `raise E` (R11, R211): ERR <- code(E), the pending command <- none, so BUSY <- 0, and nothing
else. What a command's rule lists besides for that error is written before. This is the block's
only error mechanism: nothing is saved and control goes nowhere (R215, R216). -/
def raiseErr (e : ErrCode) (s : State) : State := { s with err := e, pending := none }

/-- A command's outcome: its next state, or the fault of a read it makes (R53, R217). -/
def outcomeOf (r : Except Fault State) : Host.Outcome State Fault Refusal :=
  match r with
  | .ok t => .next t
  | .error f => .fault f

/-- A word that encodes no command: `raise ILLEGAL_OP` and no other change (R96 of
30_encoding.md). -/
def illegalOp (s : State) : State := raiseErr .illegalOp s

end Sys2Proof.Machine
end

