-- ==== Sys2Proof/Machine/Flags.lean ====
section
/-! DEFINITION. The fields of STATUS (R25 of 10_state.md): the code of ERR (R210 of 60_exceptions.md), BUSY (R47), the word the host reads, and the conditions that CKOK (R26) and END (R27) report. -/

namespace Sys2Proof.Machine

/-- The 4-bit code of an error (R210). -/
def errBits : ErrCode → BitVec 4
  | .ok => 0#4
  | .frameShort => 1#4
  | .frameBadHeader => 2#4
  | .checksumMismatch => 3#4
  | .unknownCommand => 4#4
  | .incompleteResponse => 5#4
  | .illegalOp => 6#4
  | .range => 7#4
  | .badParam => 8#4

/-- STATUS.BUSY: 1 exactly when the pending command is not none (R47). -/
def busy (s : State) : Bool := s.pending.isSome

/-- One flag as a word with that flag in bit 0. -/
def flagWord (b : Bool) : Word := if b then 1#32 else 0#32

/-- STATUS as the host reads it (R25): [0] BUSY, [1] CKOK, [2] END, [3] OVR, [11:8] ERR, the
reserved bits 0. -/
def statusWord (s : State) : Word :=
  flagWord (busy s) ||| (flagWord s.ckok <<< 1) ||| (flagWord s.endFlag <<< 2)
    ||| (flagWord s.ovr <<< 3) ||| ((errBits s.err).setWidth 32 <<< 8)

/-- What CKOK reports of a frame that passed the length and header checks (R26, R134). -/
def checksumsAgree (computed received : Half) : Bool := computed == received

/-- The record stream has no record left (R27, R188): REC_IDX ≥ REC_COUNT. -/
def exhausted (s : State) : Bool := decide (s.recCount.toNat ≤ s.recIdx.toNat)

end Sys2Proof.Machine
end

