-- ==== Sys2Proof/Machine/Operands.lean ====
section
/-! DEFINITION. The operand forms: effective offsets (R94 of 30_encoding.md), the lenient byte read b(i) (R150 of 42_fields.md), and little-endian assembly of bytes (R64 of 20_memory.md). -/

namespace Sys2Proof.Machine

/-- What REL adds to an offset: REC_BASE when REL = 1 (R94). -/
def relBase (rel : Bool) (s : State) : Nat := if rel then s.recBase.toNat else 0

/-- ea = OFF16 + (REL = 1 ? REC_BASE : 0), an unbounded natural (R94). -/
def fieldOffset (rel : Bool) (off : Nat) (s : State) : Nat := off + relBase rel s

/-- eend = ARG[15:0] + (REL = 1 ? REC_BASE : 0), the end offset of FLD.ASCII (R94, R158). -/
def fieldEnd (rel : Bool) (s : State) : Nat := s.arg.toNat + relBase rel s

/-- b(i): RXBUF[i] if i < RXLEN, else 0x00 (R150). A read at or past RXLEN does not touch the
buffer, so it never faults (R53). -/
def lenient (s : State) (i : Nat) : Except Fault Byte :=
  if i < s.rxlen.toNat then readByte .rx s.rxbuf i else .ok 0#8

/-- b(i), ..., b(i+n-1), the lowest offset first. -/
def lenientRange (s : State) : Nat → Nat → Except Fault (List Byte)
  | _, 0 => .ok []
  | i, n + 1 => do
    let v ← lenient s i
    let vs ← lenientRange s (i + 1) n
    return v :: vs

/-- Two bytes, the low-order byte first (R64). -/
def le16 (b0 b1 : Byte) : Half := b1 ++ b0

/-- Four bytes, the low-order byte first (R64). -/
def le32 (b0 b1 b2 b3 : Byte) : Word := b3 ++ b2 ++ b1 ++ b0

/-- Byte k of a word: bits [8k+7:8k] (R65). -/
def wordByte (v : Word) (k : Nat) : Byte := v.extractLsb' (8 * k) 8

/-- zext_32 of a byte (R9). -/
def zext8 (b : Byte) : Word := b.setWidth 32

/-- zext_32 of a 16-bit value (R9). -/
def zext16 (h : Half) : Word := h.setWidth 32

/-- The year a year byte stands for: its binary value + 2000 (R155; no packed BCD, 90_conflicts.md
C3). -/
def yearOf (b : Byte) : Word := zext8 b + 2000#32

end Sys2Proof.Machine
end

