-- ==== Sys2Proof/Machine/Fields.lean ====
section
/-! DEFINITION. The field commands (R150-R159 of 42_fields.md): each reads the response through the lenient read b(i) at the effective offset of R94, writes the results its rule names and completes; none raises an error. -/

namespace Sys2Proof.Machine

/-- FLD.U8 (R151): RES0 <- zext_32(b(ea)). -/
def execFldU8 (rel : Bool) (off : Nat) (s : State) : Host.Outcome State Fault Refusal :=
  outcomeOf do
    let ea := fieldOffset rel off s
    let b0 ← lenient s ea
    return complete { s with res0 := zext8 b0 }

/-- FLD.U16 (R152): RES0 <- zext_32([b(ea+1), b(ea)]). -/
def execFldU16 (rel : Bool) (off : Nat) (s : State) : Host.Outcome State Fault Refusal :=
  outcomeOf do
    let ea := fieldOffset rel off s
    let b0 ← lenient s ea
    let b1 ← lenient s (ea + 1)
    return complete { s with res0 := zext16 (le16 b0 b1) }

/-- FLD.U32 (R153): RES0 <- [b(ea+3), b(ea+2), b(ea+1), b(ea)]. -/
def execFldU32 (rel : Bool) (off : Nat) (s : State) : Host.Outcome State Fault Refusal :=
  outcomeOf do
    let ea := fieldOffset rel off s
    let b0 ← lenient s ea
    let b1 ← lenient s (ea + 1)
    let b2 ← lenient s (ea + 2)
    let b3 ← lenient s (ea + 3)
    return complete { s with res0 := le32 b0 b1 b2 b3 }

/-- FLD.S8 (R154): RES0 <- sext_32(b(ea)). -/
def execFldS8 (rel : Bool) (off : Nat) (s : State) : Host.Outcome State Fault Refusal :=
  outcomeOf do
    let ea := fieldOffset rel off s
    let b0 ← lenient s ea
    return complete { s with res0 := b0.signExtend 32 }

/-- FLD.YEAR (R155): RES0 <- zext_32(b(ea)) + 2000. -/
def execFldYear (rel : Bool) (off : Nat) (s : State) : Host.Outcome State Fault Refusal :=
  outcomeOf do
    let ea := fieldOffset rel off s
    let b0 ← lenient s ea
    return complete { s with res0 := yearOf b0 }

/-- FLD.DATE6 (R156): RES0 <- year, RES1 <- month, day, hour, minute from [7:0] up,
RES2 <- second; no validation. -/
def execFldDate6 (rel : Bool) (off : Nat) (s : State) : Host.Outcome State Fault Refusal :=
  outcomeOf do
    let ea := fieldOffset rel off s
    let year ← lenient s ea
    let month ← lenient s (ea + 1)
    let day ← lenient s (ea + 2)
    let hour ← lenient s (ea + 3)
    let minute ← lenient s (ea + 4)
    let second ← lenient s (ea + 5)
    return complete
      { s with
        res0 := yearOf year
        res1 := le32 month day hour minute
        res2 := zext8 second }

/-- The ASCII code of a decimal digit: '0'..'9' are 0x30..0x39 (R13 of 00_scope.md). -/
def asciiDigit (n : Nat) : Byte := BitVec.ofNat 8 (0x30 + n)

/-- The ASCII code of '.' (R13 of 00_scope.md). -/
def asciiDot : Byte := 0x2E#8

/-- dec(v): the decimal digits of v (0..255), most significant first, no leading zeros, "0" for
zero (R157). -/
def decimalText (v : Byte) : List Byte :=
  if v.toNat < 10 then [asciiDigit v.toNat]
  else if v.toNat < 100 then [asciiDigit (v.toNat / 10), asciiDigit (v.toNat % 10)]
  else [asciiDigit (v.toNat / 100), asciiDigit (v.toNat / 10 % 10), asciiDigit (v.toNat % 10)]

/-- The dotted-quad text of four octets (R157). -/
def dottedQuad (o0 o1 o2 o3 : Byte) : List Byte :=
  decimalText o0 ++ asciiDot :: (decimalText o1 ++ asciiDot :: (decimalText o2
    ++ asciiDot :: decimalText o3))

/-- A string result: STRBUF[0 .. len-1] and STRLEN (R13, R41, R52). Bytes at index ≥ STRLEN keep
what they held. -/
def putString (text : List Byte) (s : State) : State :=
  { s with
    strbuf := memPutAll s.strbuf 0 text
    strlen := BitVec.ofNat 16 text.length }

/-- FLD.IP (R157): RES0 <- the octets, the first in [7:0]; STRBUF and STRLEN <- the dotted-quad
text. -/
def execFldIp (rel : Bool) (off : Nat) (s : State) : Host.Outcome State Fault Refusal :=
  outcomeOf do
    let ea := fieldOffset rel off s
    let o0 ← lenient s ea
    let o1 ← lenient s (ea + 1)
    let o2 ← lenient s (ea + 2)
    let o3 ← lenient s (ea + 3)
    return complete (putString (dottedQuad o0 o1 o2 o3) { s with res0 := le32 o0 o1 o2 o3 })

/-- What FLD.ASCII keeps of the bytes it reads: every zero byte is dropped, wherever it stands
(R158). -/
def dropZeros (bs : List Byte) : List Byte := bs.filter fun b => !(b == 0#8)

/-- FLD.ASCII (R158): STRBUF and STRLEN <- the non-zero bytes of b(start), ..., b(end-1); the empty
string when end ≤ start. -/
def execFldAscii (rel : Bool) (start : Nat) (s : State) : Host.Outcome State Fault Refusal :=
  outcomeOf do
    let ea := fieldOffset rel start s
    let bytes ← lenientRange s ea (fieldEnd rel s - ea)
    return complete (putString (dropZeros bytes) s)

end Sys2Proof.Machine
end

