-- ==== Sys2Proof/Machine/Checksum.lean ====
section
/-! DEFINITION. The checksum engine (R110 of 40_checksum.md) and its commands CRC.INIT, CRC.BYTE and CRC.RX (R111-R113). -/

namespace Sys2Proof.Machine

/-- One of the eight iterations of R110: shift right, and XOR 0xA001 if the low bit was set. -/
def crcShift (r : Half) : Half := if r.getLsbD 0 then (r >>> 1) ^^^ 0xA001#16 else r >>> 1

/-- k iterations. -/
def crcShifts : Nat → Half → Half
  | 0, r => r
  | k + 1, r => crcShifts k (crcShift r)

/-- crc_step (R110): the byte XORed into the low 8 bits, then 8 iterations. -/
def crcStep (r : Half) (d : Byte) : Half := crcShifts 8 (r ^^^ d.setWidth 16)

/-- crc_fold (R110). -/
def crcFold : Half → List Byte → Half
  | r, [] => r
  | r, d :: ds => crcFold (crcStep r d) ds

/-- compute (R110): the fold from 0xFFFF, no final XOR. -/
def crcCompute (bs : List Byte) : Half := crcFold 0xFFFF#16 bs

/-- CRC.INIT (R111): CRC <- 0xFFFF; complete. -/
def execCrcInit (s : State) : Host.Outcome State Fault Refusal :=
  .next (complete { s with crc := 0xFFFF#16 })

/-- CRC.BYTE d (R112): CRC <- crc_step(CRC, d); complete. -/
def execCrcByte (d : Byte) (s : State) : Host.Outcome State Fault Refusal :=
  .next (complete { s with crc := crcStep s.crc d })

/-- CRC.RX s (R113): RANGE if s + n > RXLEN, CRC unchanged; else CRC folded over
RXBUF[s .. s+n-1], n = ARG[15:0]. No lenient read here. -/
def execCrcRx (start : Nat) (s : State) : Host.Outcome State Fault Refusal :=
  if s.rxlen.toNat < start + s.arg.toNat then .next (raiseErr .range s)
  else outcomeOf do
    let bytes ← readRange .rx s.rxbuf start s.arg.toNat
    return complete { s with crc := crcFold s.crc bytes }

end Sys2Proof.Machine
end

