-- ==== Sys2Proof/Machine/Framer.lean ====
section
/-! DEFINITION. The framer and the deframer: the frame layout (R130 of 41_framer.md), FRM.ENC (R131) and FRM.DEC (R133-R137). -/

namespace Sys2Proof.Machine

/-- The header sentinel at frame offset 0 (R130). -/
def headerByte : Byte := 0xA5#8

/-- The shortest frame: header, device id, command and checksum (R130, R134). -/
def minFrame : Nat := 8

/-- Frame bytes 0 .. 5: header, device id little-endian, command code (R130). -/
def frameHead (d : Word) (c : Byte) : List Byte :=
  [headerByte, wordByte d 0, wordByte d 1, wordByte d 2, wordByte d 3, c]

/-- The checksum as it stands on the wire: low byte first (R115 of 40_checksum.md, R130). -/
def checksumBytes (r : Half) : List Byte := [r.extractLsb' 0 8, r.extractLsb' 8 8]

/-- FRM.ENC c, P (R131): RANGE if 8 + P > BUF_BYTES, nothing written; else TXBUF[0 .. 5] <- head,
the payload TXBUF[6 .. 5+P] as the host left it, r <- compute(TXBUF[1 .. 5+P]) into
TXBUF[6+P .. 7+P] and CRC, TXLEN <- 8 + P; complete. -/
def execFrmEnc (c : Byte) (plen : Nat) (s : State) : Host.Outcome State Fault Refusal :=
  if s.bufBytes < minFrame + plen then .next (raiseErr .range s)
  else outcomeOf do
    let headed := memPutAll s.txbuf 0 (frameHead s.devid c)
    let bytes ← readRange .tx headed 1 (5 + plen)
    let r := crcCompute bytes
    return complete
      { s with
        txbuf := memPutAll headed (6 + plen) (checksumBytes r)
        txlen := BitVec.ofNat 16 (minFrame + plen)
        crc := r }

/-- What FRM.DEC makes of the bytes 1 .. L-1 of a frame that passed the length and header checks
(R134): `body` is bytes 1 .. 5, 6 .. L-3 (device id, command code, payload) and `lo`, `hi` are the
received checksum bytes L-2, L-1. Everything is written before the strict check, so on
CHECKSUM_MISMATCH the registers hold the frame's values. -/
def acceptFrame (body : List Byte) (lo hi : Byte) (s : State) : State :=
  let received := le16 lo hi
  let computed := crcCompute body
  let t : State :=
    { s with
      fDevid := le32 (body.getD 0 0#8) (body.getD 1 0#8) (body.getD 2 0#8) (body.getD 3 0#8)
      fCmd := body.getD 4 0#8
      fPlen := BitVec.ofNat 16 (s.rxlen.toNat - minFrame)
      fCksum := computed ++ received
      crc := computed
      ckok := checksumsAgree computed received }
  if s.strict && !checksumsAgree computed received then raiseErr .checksumMismatch t
  else complete t

/-- FRM.DEC (R134, checks in the order of R135): FRAME_SHORT if RXLEN < 8, without reading RXBUF;
FRAME_BAD_HEADER if RXBUF[0] is not 0xA5; both with CKOK <- 0 and nothing else. Otherwise the whole
frame RXBUF[0 .. RXLEN-1] is read (R133) and `acceptFrame` says the rest. -/
def execFrmDec (s : State) : Host.Outcome State Fault Refusal :=
  if s.rxlen.toNat < minFrame then .next (raiseErr .frameShort { s with ckok := false })
  else outcomeOf do
    let h ← readByte .rx s.rxbuf 0
    if h ≠ headerByte then
      return raiseErr .frameBadHeader { s with ckok := false }
    else
      let body ← readRange .rx s.rxbuf 1 (s.rxlen.toNat - 3)
      let lo ← readByte .rx s.rxbuf (s.rxlen.toNat - 2)
      let hi ← readByte .rx s.rxbuf (s.rxlen.toNat - 1)
      return acceptFrame body lo hi s

end Sys2Proof.Machine
end

