-- ==== Sys2Proof/Machine/Records.lean ====
section
/-! DEFINITION. The catalog check and the record stream: RSP.CHECK (R182, R183 of 43_records.md), REC.START (R184) and REC.NEXT (R188, R189). -/

namespace Sys2Proof.Machine

/-- What a successful RSP.CHECK writes for the entry it found (R182): CAT_KIND, and the record
registers for a stream entry; a flat entry leaves those unchanged. -/
def loadDescriptor (e : CatEntry) (s : State) : State :=
  if e.kind then
    { s with catKind := true, recW := e.recW, recFirst := e.recFirst, recHdr := e.recHdr }
  else { s with catKind := false }

/-- RSP.CHECK c (R182): UNKNOWN_COMMAND if CAT[c].VALID = 0, then INCOMPLETE_RESPONSE if
RXLEN < MIN_LEN (the order of R183), nothing else written; else the entry's descriptor. -/
def execRspCheck (c : Byte) (s : State) : Host.Outcome State Fault Refusal :=
  let e := catGet s.cat c.toNat
  if !e.valid then .next (raiseErr .unknownCommand s)
  else if s.rxlen.toNat < e.minLen.toNat then .next (raiseErr .incompleteResponse s)
  else .next (complete (loadDescriptor e s))

/-- The record count (R184): floor((L - H) / W) when L ≥ H, else 0 (90_conflicts.md C6). -/
def recordCount (len hdr width : Nat) : Nat := if hdr ≤ len then (len - hdr) / width else 0

/-- REC.START (R184): BAD_PARAM if W = 0 or F > H, the iterator unchanged; else REC_COUNT,
REC_IDX <- 0, REC_BASE <- F, END <- 0. -/
def execRecStart (s : State) : Host.Outcome State Fault Refusal :=
  if s.recW = 0#16 then .next (raiseErr .badParam s)
  else if s.recHdr.toNat < s.recFirst.toNat then .next (raiseErr .badParam s)
  else .next (complete
    { s with
      recCount := BitVec.ofNat 16 (recordCount s.rxlen.toNat s.recHdr.toNat s.recW.toNat)
      recIdx := 0#16
      recBase := zext16 s.recFirst
      endFlag := false })

/-- The width of the attendance record, the only layout the source gives (R186). -/
def attendanceWidth : Nat := 16

/-- base = F + i · W, the RXBUF offset of record i (R188): an unbounded natural, below 2^32. -/
def recordBase (s : State) : Nat := s.recFirst.toNat + s.recIdx.toNat * s.recW.toNat

/-- The iterator moved past record i (R188): REC_BASE <- base, REC_IDX <- i + 1, END <- 0. -/
def advanceRecord (s : State) : State :=
  { s with
    recBase := BitVec.ofNat 32 (recordBase s)
    recIdx := BitVec.ofNat 16 (s.recIdx.toNat + 1)
    endFlag := false }

/-- The four result registers of an attendance record at `base` (R186, R188, R189), from the
lenient reads, the lowest offset first: RES0 year and user id, RES1 month, day, hour, minute,
RES2 second, RES3 the raw bytes 12-15 (R187). -/
def readAttendance (base : Nat) (s : State) : Except Fault State := do
  let u0 ← lenient s base
  let u1 ← lenient s (base + 1)
  let year ← lenient s (base + 6)
  let month ← lenient s (base + 7)
  let day ← lenient s (base + 8)
  let hour ← lenient s (base + 9)
  let minute ← lenient s (base + 10)
  let second ← lenient s (base + 11)
  let x0 ← lenient s (base + 12)
  let x1 ← lenient s (base + 13)
  let x2 ← lenient s (base + 14)
  let x3 ← lenient s (base + 15)
  return { s with
    res0 := (year.setWidth 16 + 2000#16 : Half) ++ le16 u0 u1
    res1 := le32 month day hour minute
    res2 := zext8 second
    res3 := le32 x0 x1 x2 x3 }

/-- REC.NEXT, REC.NEXT.ATT (R188): exhausted: END <- 1 and nothing else, ERR = OK; BAD_PARAM if
ATT = 1 and W < 16; else the iterator advances and, with ATT = 1, the attendance results are
written. The live registers are used (R247 of 70_reset_and_hazards.md). -/
def execRecNext (att : Bool) (s : State) : Host.Outcome State Fault Refusal :=
  if exhausted s then .next (complete { s with endFlag := true })
  else if att && decide (s.recW.toNat < attendanceWidth) then .next (raiseErr .badParam s)
  else if att then outcomeOf do
    let t ← readAttendance (recordBase s) s
    return complete (advanceRecord t)
  else .next (complete (advanceRecord s))

end Sys2Proof.Machine
end

