-- ==== Sys2Proof/Machine/Dispatch.lean ====
section
/-! DEFINITION. One arm per command of Syntax.lean: the command's meaning (R92 of 30_encoding.md). -/

namespace Sys2Proof.Machine

/-- The engine's execution of one command (R47 of 10_state.md, R12 of 00_scope.md). -/
def exec (i : Instr) (s : State) : Host.Outcome State Fault Refusal :=
  match i with
  | .crcInit => Sys2Proof.Machine.execCrcInit s
  | .crcByte d => Sys2Proof.Machine.execCrcByte d s
  | .crcRx start => Sys2Proof.Machine.execCrcRx start s
  | .frmEnc c plen => Sys2Proof.Machine.execFrmEnc c plen s
  | .frmDec => Sys2Proof.Machine.execFrmDec s
  | .fldU8 rel off => Sys2Proof.Machine.execFldU8 rel off s
  | .fldU16 rel off => Sys2Proof.Machine.execFldU16 rel off s
  | .fldU32 rel off => Sys2Proof.Machine.execFldU32 rel off s
  | .fldS8 rel off => Sys2Proof.Machine.execFldS8 rel off s
  | .fldYear rel off => Sys2Proof.Machine.execFldYear rel off s
  | .fldDate6 rel off => Sys2Proof.Machine.execFldDate6 rel off s
  | .fldIp rel off => Sys2Proof.Machine.execFldIp rel off s
  | .fldAscii rel start => Sys2Proof.Machine.execFldAscii rel start s
  | .rspCheck c => Sys2Proof.Machine.execRspCheck c s
  | .recStart => Sys2Proof.Machine.execRecStart s
  | .recNext att => Sys2Proof.Machine.execRecNext att s

end Sys2Proof.Machine
end

