-- ==== Sys2Proof/Machine/HostPort.lean ====
section
/-! DEFINITION. The host port: the CSR map (R21 of 10_state.md), the address map and its checks (R60-R70 of 20_memory.md), the busy rules (R73), and what one host read or write does. -/

namespace Sys2Proof.Machine

/-- The registers of the CSR map (R21). -/
inductive CsrName where
  | id
  | param
  | ctrl
  | status
  | cmd
  | arg
  | crc
  | devid
  | txlen
  | rxlen
  | fDevid
  | fCmd
  | fPlen
  | fCksum
  | res0
  | res1
  | res2
  | res3
  | strlen
  | catKind
  | recW
  | recFirst
  | recHdr
  | recCount
  | recIdx
  | recBase
  deriving DecidableEq, Repr

/-- The registers in the order of R21's table: the register at offset 4·k is number k. -/
def csrMap : List CsrName :=
  [.id, .param, .ctrl, .status, .cmd, .arg, .crc, .devid, .txlen, .rxlen, .fDevid, .fCmd, .fPlen,
   .fCksum, .res0, .res1, .res2, .res3, .strlen, .catKind, .recW, .recFirst, .recHdr, .recCount,
   .recIdx, .recBase]

/-- A register's offset in the CSR region (R21). -/
def csrOffset (r : CsrName) : Nat := 4 * csrMap.idxOf r

/-- The register at a word offset of the CSR region; 0x068-0x0FC hold none (R21). -/
def csrAt (offset : Nat) : Option CsrName := if offset % 4 = 0 then csrMap[offset / 4]? else none

/-- A register's host address (R60: the CSR region starts at 0). -/
def csrAddr (r : CsrName) : HostAddr := BitVec.ofNat 20 (csrOffset r)

/-- What an address stands for (R60). -/
inductive Region where
  /-- The CSR region: a register, or a reserved offset. -/
  | csr (r : Option CsrName)
  /-- Word k of catalog entry c (R63). -/
  | cat (c k : Nat)
  /-- Byte i of a buffer window, whether or not the buffer has that byte (R62). -/
  | buf (b : BufferId) (i : Nat)
  /-- A reserved range (R61). -/
  | reserved
  deriving DecidableEq, Repr

/-- The address map of R60. -/
def regionOf (a : Nat) : Region :=
  if a < 0x100 then .csr (csrAt a)
  else if a < 0x1000 then .reserved
  else if a < 0x2000 then .cat ((a - 0x1000) / 16) ((a - 0x1000) / 4 % 4)
  else if a < 0x10000 then .reserved
  else if a < 0x20000 then .buf .tx (a - 0x10000)
  else if a < 0x30000 then .buf .rx (a - 0x20000)
  else if a < 0x40000 then .buf .str (a - 0x30000)
  else .reserved

/-- The bytes of an access (R66). -/
def widthBytes : PortWidth → Nat
  | .one => 1
  | .two => 2
  | .four => 4

/-- CSR and catalog accesses must be 4 bytes wide (R67). -/
def widthAllowed (g : Region) (n : PortWidth) : Bool :=
  match g with
  | .csr _ => n == .four
  | .cat _ _ => n == .four
  | .buf _ _ => true
  | .reserved => true

/-- The access is naturally aligned and of a width its region takes (R67, R68). -/
def accessOk (a : HostAddr) (n : PortWidth) : Bool :=
  decide (a.toNat % widthBytes n = 0) && widthAllowed (regionOf a.toNat) n

/-- The reads that give their value while BUSY = 1: STATUS, ID and PARAM (R73). -/
def readableWhileBusy : Region → Bool
  | .csr (some .status) => true
  | .csr (some .id) => true
  | .csr (some .param) => true
  | _ => false

/-- The writes that are no model fault while BUSY = 1: STATUS and CMD (R73). -/
def writableWhileBusy : Region → Bool
  | .csr (some .status) => true
  | .csr (some .cmd) => true
  | _ => false

/-- The constant of register ID: "CK16" (R22). -/
def idConstant : Word := 0x36314B43#32

/-- What a host read of a register returns (R21-R46): the field, the reserved bits 0; the
write-only CMD reads 0 (R30). -/
def csrRead (r : CsrName) (s : State) : Word :=
  match r with
  | .id => idConstant
  | .param => zext16 (BitVec.ofNat 16 s.bufBytes)
  | .ctrl => flagWord s.strict
  | .status => statusWord s
  | .cmd => 0#32
  | .arg => zext16 s.arg
  | .crc => zext16 s.crc
  | .devid => s.devid
  | .txlen => zext16 s.txlen
  | .rxlen => zext16 s.rxlen
  | .fDevid => s.fDevid
  | .fCmd => zext8 s.fCmd
  | .fPlen => zext16 s.fPlen
  | .fCksum => s.fCksum
  | .res0 => s.res0
  | .res1 => s.res1
  | .res2 => s.res2
  | .res3 => s.res3
  | .strlen => zext16 s.strlen
  | .catKind => flagWord s.catKind
  | .recW => zext16 s.recW
  | .recFirst => zext16 s.recFirst
  | .recHdr => zext16 s.recHdr
  | .recCount => zext16 s.recCount
  | .recIdx => zext16 s.recIdx
  | .recBase => s.recBase

/-- Bits [15:0] of a datum. -/
def lowHalf (v : Word) : Half := v.extractLsb' 0 16

/-- Bits [31:16] of a datum. -/
def highHalf (v : Word) : Half := v.extractLsb' 16 16

/-- A write to CMD (R30): accepted when BUSY = 0, it becomes the pending command, with a latency
drawn freely (R253); dropped when BUSY = 1, with OVR <- 1 (R28). -/
def writeCmd (w : Word) (s : State) : State :=
  if busy s then { s with ovr := true }
  else { s with pending := some w, delay := Config.latency s.draws, draws := s.draws + 1 }

/-- A write to STATUS: a 1 in bit 3 clears OVR, nothing else changes (R25, R28). -/
def writeStatus (v : Word) (s : State) : State := if v.getLsbD 3 then { s with ovr := false } else s

/-- A write to RXLEN: min(v[15:0], BUF_BYTES) (R35). -/
def clampLen (v : Word) (cap : Nat) : Half := BitVec.ofNat 16 (min (lowHalf v).toNat cap)

/-- What a host write to a register does (R21-R46): the writable registers take the datum's field;
a write to a read-only register is ignored. -/
def csrWrite (r : CsrName) (v : Word) (s : State) : State :=
  match r with
  | .id => s
  | .param => s
  | .ctrl => { s with strict := v.getLsbD 0 }
  | .status => writeStatus v s
  | .cmd => writeCmd v s
  | .arg => { s with arg := lowHalf v }
  | .crc => s
  | .devid => { s with devid := v }
  | .txlen => s
  | .rxlen => { s with rxlen := clampLen v s.bufBytes }
  | .fDevid => s
  | .fCmd => s
  | .fPlen => s
  | .fCksum => s
  | .res0 => s
  | .res1 => s
  | .res2 => s
  | .res3 => s
  | .strlen => s
  | .catKind => s
  | .recW => { s with recW := lowHalf v }
  | .recFirst => { s with recFirst := lowHalf v }
  | .recHdr => { s with recHdr := lowHalf v }
  | .recCount => s
  | .recIdx => s
  | .recBase => s

/-- Word k of a catalog entry as the host reads it, the reserved bits 0 (R49). -/
def catWord (e : CatEntry) (k : Nat) : Word :=
  match k with
  | 0 => e.minLen ++ 0#14 ++ BitVec.ofBool e.kind ++ BitVec.ofBool e.valid
  | 1 => e.recFirst ++ e.recW
  | 2 => zext16 e.recHdr
  | _ => 0#32

/-- A catalog entry after a host write to its word k, the reserved bits ignored (R49). -/
def catSetWord (e : CatEntry) (k : Nat) (v : Word) : CatEntry :=
  match k with
  | 0 => { e with valid := v.getLsbD 0, kind := v.getLsbD 1, minLen := highHalf v }
  | 1 => { e with recW := lowHalf v, recFirst := highHalf v }
  | 2 => { e with recHdr := lowHalf v }
  | _ => e

/-- One byte of a buffer window as the host reads it: an offset at or above BUF_BYTES is reserved
and reads 0 (R61, R62); a byte never written is a fault (R53). -/
def hostByte (b : BufferId) (i : Nat) (s : State) : Except Fault Byte :=
  if i < s.bufBytes then readByte b (bufferOf b s) i else .ok 0#8

/-- Bytes i .. i+n-1 of a buffer window, as a zero-extended little-endian datum (R65, R66). Of several
bytes never written the fault UnwrittenRead (R53, R217) names the lowest offset: DESIGN CHOICE, the spec
names none (log entry 8). -/
def hostBytes (b : BufferId) : Nat → Nat → State → Except Fault Word
  | _, 0, _ => .ok 0#32
  | i, n + 1, s => do
    let v ← hostByte b i s
    let rest ← hostBytes b (i + 1) n s
    return (rest <<< 8) ||| zext8 v

/-- One byte of a buffer window written by the host: TXBUF and RXBUF take it, STRBUF and a reserved
offset ignore it (R61, R62, R66). -/
def hostPutByte (b : BufferId) (i : Nat) (v : Byte) (s : State) : State :=
  if i < s.bufBytes then
    match b with
    | .tx => { s with txbuf := memPut s.txbuf i v }
    | .rx => { s with rxbuf := memPut s.rxbuf i v }
    | .str => s
  else s

/-- The bytes k, k+1, ... of a datum written at offsets i, i+1, ... (R65, R66). -/
def hostPutBytes (b : BufferId) (v : Word) : Nat → Nat → Nat → State → State
  | _, _, 0, s => s
  | i, k, n + 1, s => hostPutBytes b v (i + 1) (k + 1) n (hostPutByte b i (wordByte v k) s)

/-- A drawn datum of n bytes: the free value's low n bytes (R73). -/
def drawnDatum (n : PortWidth) (v : Word) : Word :=
  match n with
  | .one => v &&& 0xFF#32
  | .two => v &&& 0xFFFF#32
  | .four => v

/-- A host read of n bytes at an address (R66-R69, R73). It has no side effect (R70). -/
def hostRead (a : HostAddr) (n : PortWidth) (s : State) : Except Fault Word :=
  if !accessOk a n then .error (.hostBusError a (widthBytes n))
  else if busy s && !readableWhileBusy (regionOf a.toNat) then
    .ok (drawnDatum n (Config.busyRead s.draws))
  else
    match regionOf a.toNat with
    | .csr (some r) => .ok (csrRead r s)
    | .csr none => .ok 0#32
    | .cat c k => .ok (catWord (catGet s.cat c) k)
    | .buf b i => hostBytes b i (widthBytes n) s
    | .reserved => .ok 0#32

/-- A host write of the low n bytes of a datum (R66-R70, R73). A fault gives no state: nothing is
stored (R69, R73). -/
def hostWrite (a : HostAddr) (n : PortWidth) (v : Word) (s : State) : Except Fault State :=
  if !accessOk a n then .error (.hostBusError a (widthBytes n))
  else if busy s && !writableWhileBusy (regionOf a.toNat) then .error (.hostWriteWhileBusy a)
  else
    match regionOf a.toNat with
    | .csr (some r) => .ok (csrWrite r v s)
    | .csr none => .ok s
    | .cat c k => .ok { s with cat := catPut s.cat c (catSetWord (catGet s.cat c) k v) }
    | .buf b i => .ok (hostPutBytes b v i 0 (widthBytes n) s)
    | .reserved => .ok s

end Sys2Proof.Machine
end

