-- ==== Sys2Proof/Machine/HostAgent.lean ====
section
/-! DEFINITION. The host agent: what one statement of a host program does (R99, R100 of 30_encoding.md), the reset event (R240 of 70_reset_and_hazards.md, R214 of 60_exceptions.md), and whose move the next step is (R15 of 00_scope.md, R47 of 10_state.md, R72 of 20_memory.md, R253). -/

namespace Sys2Proof.Machine

/-- The host goes on to its next statement (program order, R15, R72). -/
def hostAdvance (s : State) : State := { s with hostPc := s.hostPc + 1 }

/-- The address of STATUS, whose last read value BNE.END looks at (R99). -/
def statusAddr : HostAddr := csrAddr .status

/-- A host read that returned a datum: the host has it, and has it as its last STATUS if it read
STATUS. The draw counter moves on, so that two reads while BUSY need not agree (R73). -/
def noteRead (a : HostAddr) (v : Word) (s : State) : State :=
  { s with
    hostReads := v :: s.hostReads
    lastStatus := if a = statusAddr then v else s.lastStatus
    draws := s.draws + 1 }

/-- END as the host read it last (R99). -/
def lastEnd (s : State) : Bool := s.lastStatus.getLsbD 2

/-- The reset input asserted (R240, R54): every piece of the block's state takes its reset value in
one event and a pending command is abandoned (R214). BUF_BYTES is the block's parameter (R7) and
stays; the host's own state is not the block's and stays. -/
def resetBlock (s : State) : State :=
  { State.reset with
    bufBytes := s.bufBytes
    draws := s.draws
    hostProg := s.hostProg
    hostPc := s.hostPc
    lastStatus := s.lastStatus
    hostReads := s.hostReads }

/-- One statement of the host's program (R99, R100). -/
def hostStep (st : HostStmt) (s : State) : Host.Outcome State Fault Refusal :=
  match st with
  | .read a n =>
    match hostRead a n s with
    | .ok v => .next (hostAdvance (noteRead a v s))
    | .error f => .fault f
  | .write a n v =>
    match hostWrite a n v s with
    | .ok t => .next (hostAdvance t)
    | .error f => .fault f
  | .poll =>
    if busy s then .next { s with lastStatus := statusWord s }
    else .next (hostAdvance { s with lastStatus := statusWord s })
  | .bneEnd target => .next { s with hostPc := if lastEnd s then s.hostPc + 1 else target }
  | .beqEnd target => .next { s with hostPc := if lastEnd s then target else s.hostPc + 1 }
  | .goto target => .next { s with hostPc := target }
  | .assertReset => .next (hostAdvance (resetBlock s))

/-- Whose move the next step is. -/
inductive Move where
  /-- Neither agent has anything to do: the block keeps all its state (R224, R241). -/
  | idle
  /-- The engine runs the pending command word (R47). -/
  | engine (w : Word)
  /-- The host runs its next statement while nothing is pending. -/
  | host (st : HostStmt)
  /-- The host runs its next statement before the pending command's engine step. -/
  | hostFirst (st : HostStmt)
  deriving DecidableEq, Repr

/-- The host's next statement; none when its program has ended (R254). -/
def hostNext (s : State) : Option HostStmt := s.hostProg[s.hostPc]?

/-- The one total order of R72. With a command pending, the host goes first while the command's
latency lasts (log entry 2); a POLL, which only waits for BUSY = 0, and a host with nothing left to
do leave the move to the engine (log entry 3). -/
def whoMoves (s : State) : Move :=
  match s.pending, hostNext s with
  | none, none => .idle
  | none, some st => .host st
  | some w, none => .engine w
  | some w, some st => if s.delay = 0 ∨ st = .poll then .engine w else .hostFirst st

/-- A command word as the pending command, its engine step due now: what an accepted CMD write
leaves (R30, R47) when no host statement comes before the engine step. -/
def placeCommand (w : Word) (s : State) : State := { s with pending := some w, delay := 0 }

/-- One host statement less until the pending command's engine step (R253). -/
def passTurn (s : State) : State := { s with delay := s.delay - 1 }

end Sys2Proof.Machine
end

