-- ==== Sys2Proof/Machine/Step.lean ====
section
/-! DEFINITION. One step of the machine: the engine's step on the pending command (R47 of 10_state.md), or one statement of the host (R15 of 00_scope.md), or nothing to do (R224 of 60_exceptions.md); and how an instruction is placed so that the next step runs it. -/

namespace Sys2Proof.Machine

/-- One step in the one total order of R72. The engine decodes the pending word and executes the
command, or completes a word that encodes no command with ILLEGAL_OP (R96). -/
def step (s : State) : Host.Outcome State Fault Refusal :=
  match whoMoves s with
  | .idle => .next s
  | .engine w =>
    match Sys2Proof.decode w with
    | some i => exec i s
    | none => .next (illegalOp s)
  | .host st => hostStep st s
  | .hostFirst st => hostStep st (passTurn s)

/-- The state with the command word whose low `nbits` bits are `w`, the bits above them 0, as the
pending command (R47: an accepted CMD write makes it so), its engine step due now. The block fetches
nothing (R76): this stands for the host's CMD write of R30 (log entry 4). -/
def State.withFetchWord (s : State) (nbits w : Nat) : State :=
  placeCommand (BitVec.ofNat 32 (w % 2 ^ nbits)) s

end Sys2Proof.Machine
end

