-- ==== Sys2Proof/Machine/Assembler.lean ====
section
/-! DEFINITION. The assembler syntax of R98 (30_encoding.md): one command on a line, a comment from ';' on, numbers decimal or 0x hexadecimal, `rec+` for REL = 1, REC.NEXT.ATT for ATT = 1; a field that does not fit is an error, never truncated. What R98 leaves open is log entry 24. -/

namespace Sys2Proof.Machine

/-- Why a line does not assemble (R98). -/
inductive AsmError where
  | unknownMnemonic
  | badOperands
  | doesNotFit
  deriving DecidableEq, Repr

/-- One operand as written: a number, or a number after `rec+`. -/
inductive AsmOperand where
  | num (n : Nat)
  | recPlus (n : Nat)
  deriving DecidableEq, Repr

/-- A space or a tab. -/
def isBlank (c : Char) : Bool := c == ' ' || c == '\t'

/-- The text without blanks at its two ends. -/
def trimBlanks (cs : List Char) : List Char :=
  ((cs.dropWhile isBlank).reverse.dropWhile isBlank).reverse

/-- The text before a ';' (R98: `;` starts a comment). -/
def dropComment (cs : List Char) : List Char := cs.takeWhile fun c => !(c == ';')

/-- The pieces of the text between commas. -/
def splitCommas : List Char → List (List Char)
  | [] => [[]]
  | c :: cs =>
    match splitCommas cs with
    | [] => [[c]]
    | p :: ps => if c == ',' then [] :: p :: ps else (c :: p) :: ps

/-- The value of a digit in base 10 or 16. -/
def digitValue (hex : Bool) (c : Char) : Option Nat :=
  let n := c.toNat
  if 0x30 ≤ n ∧ n ≤ 0x39 then some (n - 0x30)
  else if hex && decide (0x41 ≤ n ∧ n ≤ 0x46) then some (n - 0x41 + 10)
  else if hex && decide (0x61 ≤ n ∧ n ≤ 0x66) then some (n - 0x61 + 10)
  else none

/-- The value of a run of digits after the value read so far. -/
def digitsValue (hex : Bool) : Nat → List Char → Option Nat
  | acc, [] => some acc
  | acc, c :: cs =>
    match digitValue hex c with
    | some d => digitsValue hex (acc * (if hex then 16 else 10) + d) cs
    | none => none

/-- A number: 0x and hexadecimal digits, or decimal digits (R98). -/
def parseNumber : List Char → Option Nat
  | [] => none
  | '0' :: 'x' :: [] => none
  | '0' :: 'x' :: ds => digitsValue true 0 ds
  | ds => digitsValue false 0 ds

/-- An operand: a number, or `rec+` and a number (R98). -/
def parseOperand (cs : List Char) : Option AsmOperand :=
  match trimBlanks cs with
  | 'r' :: 'e' :: 'c' :: '+' :: ds => (parseNumber ds).map .recPlus
  | ds => (parseNumber ds).map .num

/-- Every piece an operand, or none. -/
def parseOperands : List (List Char) → Option (List AsmOperand)
  | [] => some []
  | p :: ps =>
    match parseOperand p, parseOperands ps with
    | some o, some os => some (o :: os)
    | _, _ => none

/-- An 8-bit field, or the assembly error of R98. -/
def fitByte (n : Nat) (mk : Byte → Instr) : Except AsmError Instr :=
  if n < 256 then .ok (mk (BitVec.ofNat 8 n)) else .error .doesNotFit

/-- A command whose operands must fit (R98). -/
def fitInstr (i : Instr) : Except AsmError Instr :=
  if i.wf then .ok i else .error .doesNotFit

/-- A field command: `off16`, or `rec+off16` for REL = 1 (R98). -/
def fieldOperand (ops : List AsmOperand) (mk : Bool → Nat → Instr) : Except AsmError Instr :=
  match ops with
  | [.num n] => fitInstr (mk false n)
  | [.recPlus n] => fitInstr (mk true n)
  | _ => .error .badOperands

/-- A command without operands (R98). -/
def noOperand (ops : List AsmOperand) (i : Instr) : Except AsmError Instr :=
  match ops with
  | [] => .ok i
  | _ => .error .badOperands

/-- A command with one 8-bit operand (R98). -/
def byteOperand (ops : List AsmOperand) (mk : Byte → Instr) : Except AsmError Instr :=
  match ops with
  | [.num n] => fitByte n mk
  | _ => .error .badOperands

/-- FRM.ENC cmd8, plen16 (R98). -/
def frmEncOperands (ops : List AsmOperand) : Except AsmError Instr :=
  match ops with
  | [.num c, .num p] =>
    if c < 256 then fitInstr (.frmEnc (BitVec.ofNat 8 c) p) else .error .doesNotFit
  | _ => .error .badOperands

/-- CRC.RX off16 (R98). -/
def crcRxOperand (ops : List AsmOperand) : Except AsmError Instr :=
  match ops with
  | [.num n] => fitInstr (.crcRx n)
  | _ => .error .badOperands

/-- The command of a mnemonic and its operands (R98). -/
def assemble (mnemonic : List Char) (ops : List AsmOperand) : Except AsmError Instr :=
  if mnemonic = "CRC.INIT".toList then noOperand ops .crcInit
  else if mnemonic = "CRC.BYTE".toList then byteOperand ops .crcByte
  else if mnemonic = "CRC.RX".toList then crcRxOperand ops
  else if mnemonic = "FRM.ENC".toList then frmEncOperands ops
  else if mnemonic = "FRM.DEC".toList then noOperand ops .frmDec
  else if mnemonic = "FLD.U8".toList then fieldOperand ops .fldU8
  else if mnemonic = "FLD.U16".toList then fieldOperand ops .fldU16
  else if mnemonic = "FLD.U32".toList then fieldOperand ops .fldU32
  else if mnemonic = "FLD.S8".toList then fieldOperand ops .fldS8
  else if mnemonic = "FLD.YEAR".toList then fieldOperand ops .fldYear
  else if mnemonic = "FLD.DATE6".toList then fieldOperand ops .fldDate6
  else if mnemonic = "FLD.IP".toList then fieldOperand ops .fldIp
  else if mnemonic = "FLD.ASCII".toList then fieldOperand ops .fldAscii
  else if mnemonic = "RSP.CHECK".toList then byteOperand ops .rspCheck
  else if mnemonic = "REC.START".toList then noOperand ops .recStart
  else if mnemonic = "REC.NEXT".toList then noOperand ops (.recNext false)
  else if mnemonic = "REC.NEXT.ATT".toList then noOperand ops (.recNext true)
  else .error .unknownMnemonic

/-- One line of assembler text (R98): a command, nothing (a blank or comment line), or an error. -/
def assembleLine (line : List Char) : Except AsmError (Option Instr) :=
  match trimBlanks (dropComment line) with
  | [] => .ok none
  | c :: cs =>
    let mnemonic := (c :: cs).takeWhile fun x => !isBlank x
    let rest := trimBlanks ((c :: cs).dropWhile fun x => !isBlank x)
    match rest with
    | [] => (assemble mnemonic []).map some
    | r :: rs =>
      match parseOperands (splitCommas (r :: rs)) with
      | some ops => (assemble mnemonic ops).map some
      | none => .error .badOperands

end Sys2Proof.Machine
end

