-- ==== Sys2Proof/Machine/HostMacros.lean ====
section
/-! DEFINITION. Host programs as lists of statements: the statement forms of R99 and the pseudo-commands of R100 (30_encoding.md), and the boot and exchange sequences of R243 and R244 (70_reset_and_hazards.md). -/

namespace Sys2Proof.Machine

/-- `WR name, v`: a 32-bit write to a register (R99). -/
def stmtWr (r : CsrName) (v : Word) : HostStmt := .write (csrAddr r) .four v

/-- `RD name`: a 32-bit read of a register (R99). -/
def stmtRd (r : CsrName) : HostStmt := .read (csrAddr r) .four

/-- Where a buffer's window starts (R60). -/
def windowBase : BufferId → Nat
  | .tx => 0x10000
  | .rx => 0x20000
  | .str => 0x30000

/-- The host address of a buffer byte (R60). -/
def bufAddr (b : BufferId) (i : Nat) : HostAddr := BitVec.ofNat 20 (windowBase b + i)

/-- `WB BUF[i], v0 v1 ...`: byte writes at indices i, i+1, ... (R99). -/
def stmtsWb (b : BufferId) : Nat → List Byte → List HostStmt
  | _, [] => []
  | i, v :: vs => .write (bufAddr b i) .one (zext8 v) :: stmtsWb b (i + 1) vs

/-- `EXEC` of a word: the write to CMD, then POLL (R99). -/
def stmtsExecWord (w : Word) : List HostStmt := [stmtWr .cmd w, .poll]

/-- `EXEC <command>` (R99). -/
def stmtsExec (i : Instr) : List HostStmt := stmtsExecWord (encode i)

/-- CRC.COMPUTE s, n (R100). -/
def stmtsCrcCompute (start n : Nat) : List HostStmt :=
  stmtWr .arg (BitVec.ofNat 32 n) :: (stmtsExec .crcInit ++ stmtsExec (.crcRx start))

/-- FLD.STR s, e (R100), s an RXBUF index: FLD.ASCII with REL = 0. DESIGN CHOICE (log entry 29): R100
does not say whether s may be written `rec+s`, and this builder has no such form; the record-relative
string is WR ARG, e and then EXEC FLD.ASCII rec+s. -/
def stmtsFldStr (start stop : Nat) : List HostStmt :=
  stmtWr .arg (BitVec.ofNat 32 stop) :: stmtsExec (.fldAscii false start)

/-- REC.FOREACH body (R100), its first statement at index `at0` of the program: REC.START; L:
REC.NEXT.ATT; read STATUS; leave if END = 1; the body; go to L. -/
def stmtsRecForeach (at0 : Nat) (body : List HostStmt) : List HostStmt :=
  stmtsExec .recStart ++ stmtsExec (.recNext true)
    ++ [stmtRd .status, .beqEnd (at0 + 7 + body.length)] ++ body ++ [.goto (at0 + 2)]

/-- The host address of word k of catalog entry c (R63). -/
def catAddr (c : Byte) (k : Nat) : HostAddr := BitVec.ofNat 20 (0x1000 + 16 * c.toNat + 4 * k)

/-- The catalog entries of a boot, three words each (R243 step 1; word 3 is reserved, R49). -/
def stmtsLoadCatalog : List (Byte × CatEntry) → List HostStmt
  | [] => []
  | (c, e) :: rest =>
    [.write (catAddr c 0) .four (catWord e 0), .write (catAddr c 1) .four (catWord e 1),
     .write (catAddr c 2) .four (catWord e 2)] ++ stmtsLoadCatalog rest

/-- The boot sequence of R243: the catalog, then DEVID, then CTRL.STRICT. -/
def stmtsBoot (entries : List (Byte × CatEntry)) (device : Word) (strict : Bool) : List HostStmt :=
  stmtsLoadCatalog entries ++ [stmtWr .devid device, stmtWr .ctrl (flagWord strict)]

/-- Byte reads of a buffer at indices i .. i+n-1: how the host takes a frame out (R75). -/
def stmtsReadBytes (b : BufferId) : Nat → Nat → List HostStmt
  | _, 0 => []
  | i, n + 1 => .read (bufAddr b i) .one :: stmtsReadBytes b (i + 1) n

/-- Steps 1-3 of R244: stage the payload, run FRM.ENC, take TXBUF[0 .. TXLEN-1] out for the
transport. -/
def stmtsRequest (c : Byte) (payload : List Byte) : List HostStmt :=
  stmtsWb .tx 6 payload ++ stmtsExec (.frmEnc c payload.length)
    ++ stmtsReadBytes .tx 0 (8 + payload.length)

/-- Steps 4-6 of R244: the response frame into RXBUF, its length into RXLEN (R75), FRM.DEC,
RSP.CHECK. -/
def stmtsResponse (c : Byte) (frame : List Byte) : List HostStmt :=
  stmtsWb .rx 0 frame ++ [stmtWr .rxlen (BitVec.ofNat 32 frame.length)]
    ++ stmtsExec .frmDec ++ stmtsExec (.rspCheck c)

/-- The state with a host program about to start at its first statement (log entry 4). -/
def loadHostProgram (prog : List HostStmt) (s : State) : State :=
  { s with hostProg := prog, hostPc := 0 }

end Sys2Proof.Machine
end

