-- ==== Sys2Proof/Safety.lean ====
section
/-! DEFINITION. What counts as a good state and a good run: the invariant of the machine, the end of a run (R254 of 70_reset_and_hazards.md), and a run with no model fault (R217 of 60_exceptions.md). -/

namespace Sys2Proof.Safety

open Sys2Proof.Machine

/-- BUF_BYTES is a legal value (R7). -/
def paramLegal (s : State) : Prop := 16 ≤ s.bufBytes ∧ s.bufBytes ≤ 65535

/-- The buffers are in canonical form and hold only bytes they have (R51, R62). -/
def buffersWf (s : State) : Prop :=
  (Memory.wf s.txbuf = true ∧ Memory.within s.txbuf s.bufBytes = true) ∧
  (Memory.wf s.rxbuf = true ∧ Memory.within s.rxbuf s.bufBytes = true) ∧
  (Memory.wf s.strbuf = true ∧ Memory.within s.strbuf s.bufBytes = true)

/-- Every length register is a length the buffers can hold: RXLEN (R35), TXLEN (R34), STRLEN (R41,
R158) and the frame F_PLEN came from (R38). -/
def lengthsFit (s : State) : Prop :=
  s.rxlen.toNat ≤ s.bufBytes ∧ s.txlen.toNat ≤ s.bufBytes ∧ s.strlen.toNat ≤ s.bufBytes ∧
  s.fPlen.toNat + 8 ≤ s.bufBytes

/-- The frame TXBUF[0 .. TXLEN-1] (R34) and the string STRBUF[0 .. STRLEN-1] (R41) are written
bytes. -/
def resultsWritten (s : State) : Prop :=
  (∀ i, i < s.txlen.toNat → (memGet s.txbuf i).isSome = true) ∧
  (∀ i, i < s.strlen.toNat → (memGet s.strbuf i).isSome = true)

/-- The iterator has not passed the record count (R184, R188). -/
def iteratorInRange (s : State) : Prop := s.recIdx.toNat ≤ s.recCount.toNat

/-- What every state of the machine keeps. -/
structure GoodState (s : State) : Prop where
  param : paramLegal s
  buffers : buffersWf s
  catalog : Catalog.wf s.cat = true
  lengths : lengthsFit s
  written : resultsWritten s
  iterator : iteratorInRange s

/-- The end of a run (R254): the host has executed its last statement and BUSY = 0. That no model
fault is recorded is that there is a state at all: a fault gives none. -/
def runEnded (s : State) : Bool := (hostNext s == none) && !busy s

/-- The first k steps record no model fault (R217). -/
def faultFree (k : Nat) (s : State) : Prop := ∃ t, Host.Core.run core k s = .next t

end Sys2Proof.Safety
end

