-- ==== Sys2Proof/Certificates/Slice0/Obligations.lean ====
section
/-! DEFINITION. The statements for the provers, from the numbered rules of spec/. Claims.* are the words the statements are written in; each obligation is one def Obligations.<Name>. -/

namespace Sys2Proof.Claims

open Sys2Proof Sys2Proof.Machine

/-- b(i) = v, as R150 of 42_fields.md says it: the written byte below RXLEN, 0x00 at or past it. -/
def ReadsB (s : State) (i : Nat) (v : Byte) : Prop :=
  (i < s.rxlen.toNat ∧ memGet s.rxbuf i = some v) ∨ (s.rxlen.toNat ≤ i ∧ v = 0)

/-- The buffer holds these bytes at i, i+1, ... -/
def HoldsAt (m : Memory) (i : Nat) (bs : List Byte) : Prop :=
  ∀ k, k < bs.length → memGet m (i + k) = bs[k]?

/-- What byte i of a buffer window reads as: the written byte below BUF_BYTES, 0 at or above it (R61,
R62). -/
def WindowByte (s : State) (b : BufferId) (i : Nat) (v : Byte) : Prop :=
  (i < s.bufBytes ∧ memGet (bufferOf b s) i = some v) ∨ (s.bufBytes ≤ i ∧ v = 0)

/-- The effective offset of R94 (30_encoding.md). -/
def ea (rel : Bool) (off : Nat) (s : State) : Nat := off + (if rel then s.recBase.toNat else 0)

/-- A field command's word: off, seven zero bits, REL, OP (R92). -/
def fieldWord (off : Half) (rel : Bool) (op : Byte) : Word :=
  off ++ (0 : BitVec 7) ++ BitVec.ofBool rel ++ op

/-- A byte below RXLEN that was never written. -/
def Missing (s : State) (i : Nat) : Prop := i < s.rxlen.toNat ∧ memGet s.rxbuf i = none

/-- The field commands at an offset, each with the number of bytes it reads there (R151-R158); `span`
is FLD.ASCII's end minus start. -/
def fieldWidths (rel : Bool) (off span : Nat) : List (Instr × Nat) :=
  [(.fldU8 rel off, 1), (.fldU16 rel off, 2), (.fldU32 rel off, 4), (.fldS8 rel off, 1),
   (.fldYear rel off, 1), (.fldDate6 rel off, 6), (.fldIp rel off, 4), (.fldAscii rel off, span)]

/-- The eight FLD commands. -/
def isField : Instr → Bool
  | .fldU8 _ _ => true
  | .fldU16 _ _ => true
  | .fldU32 _ _ => true
  | .fldS8 _ _ => true
  | .fldYear _ _ => true
  | .fldDate6 _ _ => true
  | .fldIp _ _ => true
  | .fldAscii _ _ => true
  | _ => false

/-- The five commands of R114 that write CRC. -/
def writesCrc : Instr → Bool
  | .crcInit => true
  | .crcByte _ => true
  | .crcRx _ => true
  | .frmEnc _ _ => true
  | .frmDec => true
  | _ => false

/-- The two commands that take a second operand from ARG (R31). -/
def usesArg : Instr → Bool
  | .crcRx _ => true
  | .fldAscii _ _ => true
  | _ => false

/-- The codes a command can complete with: the "raised by" column of R210 (60_exceptions.md). -/
def raises : Instr → List ErrCode
  | .crcRx _ => [.ok, .range]
  | .frmEnc _ _ => [.ok, .range]
  | .frmDec => [.ok, .frameShort, .frameBadHeader, .checksumMismatch]
  | .rspCheck _ => [.ok, .unknownCommand, .incompleteResponse]
  | .recStart => [.ok, .badParam]
  | .recNext _ => [.ok, .badParam]
  | _ => [.ok]

/-- The record iterator fits the response: W ≥ 1, F ≤ H, no more than REC_COUNT records are past, and
the records of the count end at or below L (R185 of 43_records.md). -/
def IteratorFits (s : State) : Prop :=
  s.recW.toNat ≠ 0 ∧ s.recFirst.toNat ≤ s.recHdr.toNat ∧ s.recIdx.toNat ≤ s.recCount.toNat ∧
  (s.recCount.toNat = 0 ∨
    s.recHdr.toNat + s.recCount.toNat * s.recW.toNat ≤ s.rxlen.toNat)

/-- Commands run one after the other, each on the state the one before left. -/
def runCommands : List Instr → State → Host.Outcome State Fault Refusal
  | [], s => .next s
  | i :: is, s =>
    match exec i s with
    | .next t => runCommands is t
    | .fault f => .fault f
    | .refused q => .refused q

/-- An outcome with a change made to its next state. -/
def mapNext (g : State → State) :
    Host.Outcome State Fault Refusal → Host.Outcome State Fault Refusal
  | .next t => .next (g t)
  | .fault f => .fault f
  | .refused q => .refused q

/-- The text of a byte string of characters. -/
def asciiText (t : String) : List Byte := t.toList.map fun c => BitVec.ofNat 8 c.toNat

/-- The dotted quad of four octets, from Lean's own decimal digits. -/
def quadText (o0 o1 o2 o3 : Byte) : List Byte :=
  asciiText (toString o0.toNat) ++ asciiText "." ++ asciiText (toString o1.toNat) ++ asciiText "."
    ++ asciiText (toString o2.toNat) ++ asciiText "." ++ asciiText (toString o3.toNat)

/-- The engine's step is due: a word is pending and the host has nothing to do, waits in a POLL,
or the latency is over (log entries 2 and 3). -/
def engineDue (s : State) (w : Word) : Prop :=
  s.pending = some w ∧ (hostNext s = none ∨ hostNext s = some .poll ∨ s.delay = 0)

/-- A reserved address of R60 to R62 (20_memory.md), or a reserved CSR offset of R21. -/
def reservedAddr (s : State) (a : Nat) : Prop :=
  (0x68 ≤ a ∧ a < 0x1000) ∨ (0x2000 ≤ a ∧ a < 0x10000) ∨ 0x40000 ≤ a ∨
  (0x10000 ≤ a ∧ a < 0x40000 ∧ s.bufBytes ≤ a % 0x10000)

/-- What each register of R21 reads as when BUSY = 0: its address and its value. -/
def csrTable (s : State) : List (HostAddr × Word) :=
  [(0x000, 0x36314B43), (0x004, BitVec.ofNat 32 (s.bufBytes % 65536)),
   (0x008, if s.strict then 1 else 0), (0x00C, statusWord s), (0x010, 0),
   (0x014, s.arg.setWidth 32), (0x018, s.crc.setWidth 32), (0x01C, s.devid),
   (0x020, s.txlen.setWidth 32), (0x024, s.rxlen.setWidth 32), (0x028, s.fDevid),
   (0x02C, s.fCmd.setWidth 32), (0x030, s.fPlen.setWidth 32), (0x034, s.fCksum),
   (0x038, s.res0), (0x03C, s.res1), (0x040, s.res2), (0x044, s.res3),
   (0x048, s.strlen.setWidth 32), (0x04C, if s.catKind then 1 else 0),
   (0x050, s.recW.setWidth 32), (0x054, s.recFirst.setWidth 32), (0x058, s.recHdr.setWidth 32),
   (0x05C, s.recCount.setWidth 32), (0x060, s.recIdx.setWidth 32), (0x064, s.recBase)]

/-- The read-only registers of R21. -/
def readOnlyAddrs : List HostAddr :=
  [0x000, 0x004, 0x018, 0x020, 0x028, 0x02C, 0x030, 0x034, 0x038, 0x03C, 0x040, 0x044, 0x048,
   0x04C, 0x05C, 0x060, 0x064]

/-- The bits of catalog word k that are not reserved (R49). -/
def catMask : Nat → Word
  | 0 => 0xFFFF0003
  | 1 => 0xFFFFFFFF
  | 2 => 0x0000FFFF
  | _ => 0

/-- A catalog entry after word k of it was written with v: the field positions of R49. -/
def catEntryAfter (e : CatEntry) (k : Nat) (v : Word) : CatEntry :=
  if k = 0 then
    { e with valid := v.getLsbD 0, kind := v.getLsbD 1, minLen := v.extractLsb' 16 16 }
  else if k = 1 then { e with recW := v.extractLsb' 0 16, recFirst := v.extractLsb' 16 16 }
  else if k = 2 then { e with recHdr := v.extractLsb' 0 16 }
  else e

/-- The operand of a field command as written: `off16`, or `rec+off16` for REL = 1 (R98). -/
def fieldText (rel : Bool) (off : Nat) : List AsmOperand :=
  [if rel then .recPlus off else .num off]

/-- A command as R98 writes it: its mnemonic and its operands, each the number it holds. -/
def asmText : Instr → List Char × List AsmOperand
  | .crcInit => ("CRC.INIT".toList, [])
  | .crcByte d => ("CRC.BYTE".toList, [.num d.toNat])
  | .crcRx start => ("CRC.RX".toList, [.num start])
  | .frmEnc c plen => ("FRM.ENC".toList, [.num c.toNat, .num plen])
  | .frmDec => ("FRM.DEC".toList, [])
  | .fldU8 rel off => ("FLD.U8".toList, fieldText rel off)
  | .fldU16 rel off => ("FLD.U16".toList, fieldText rel off)
  | .fldU32 rel off => ("FLD.U32".toList, fieldText rel off)
  | .fldS8 rel off => ("FLD.S8".toList, fieldText rel off)
  | .fldYear rel off => ("FLD.YEAR".toList, fieldText rel off)
  | .fldDate6 rel off => ("FLD.DATE6".toList, fieldText rel off)
  | .fldIp rel off => ("FLD.IP".toList, fieldText rel off)
  | .fldAscii rel off => ("FLD.ASCII".toList, fieldText rel off)
  | .rspCheck c => ("RSP.CHECK".toList, [.num c.toNat])
  | .recStart => ("REC.START".toList, [])
  | .recNext att => (if att then "REC.NEXT.ATT".toList else "REC.NEXT".toList, [])

/-- The mnemonics whose one operand has 8 bits (R98). -/
def byteMnemonics : List String := ["CRC.BYTE", "RSP.CHECK"]

/-- The field mnemonics, whose one operand has 16 bits and may follow `rec+` (R98). -/
def fieldMnemonics : List String :=
  ["FLD.U8", "FLD.U16", "FLD.U32", "FLD.S8", "FLD.YEAR", "FLD.DATE6", "FLD.IP", "FLD.ASCII"]

/-- The host address of word k of catalog entry c (R63). -/
def catWordAddr (c k : Nat) : HostAddr := BitVec.ofNat 20 (0x1000 + 16 * c + 4 * k)

end Sys2Proof.Claims

open Sys2Proof Sys2Proof.Machine Sys2Proof.Safety Sys2Proof.Claims

/-! ## The step -/

/-- When the pending word decodes to a command and its engine step is due, the command is
well-formed and the step is exec of it, with nothing around it; and the word that withFetchWord
places is the one the next step runs. The schedule (engineDue) is the model's choice, log entries 2
and 3; R47, R12. -/
def Obligations.StepRunsDecodedCommand : Prop :=
  (∀ (s : State) (w : Word) (i : Instr),
    engineDue s w → decode w = some i → i.wf = true ∧ step s = exec i s) ∧
  (∀ (s : State) (w : Word) (i : Instr),
    decodeTableWord 32 w.toNat = some i →
      step (s.withFetchWord 32 w.toNat) = exec i (s.withFetchWord 32 w.toNat))

/-- R96: a word that fits no row of the table completes with ILLEGAL_OP and changes nothing else;
the all-zero word is such a word. -/
def Obligations.IllegalWordOnlyRaisesIllegalOp : Prop :=
  (∀ (s : State) (w : Word),
    engineDue s w → (∀ row ∈ opcodeRows, w &&& row.1 ≠ row.2) →
      step s = .next { s with err := .illegalOp, pending := none }) ∧
  (∀ row ∈ opcodeRows, (0 : Word) &&& row.1 ≠ row.2)

/-- The other moves of a step: idle (R224), so the state after reset, whose host has no program (log
entry 4), stays as it is (R241); a host statement with nothing pending; a host statement before the
engine step (log entry 2). -/
def Obligations.StepOtherMoves : Prop :=
  (∀ s : State, s.pending = none → hostNext s = none → step s = .next s) ∧
  step State.reset = .next State.reset ∧
  (∀ (s : State) (st : HostStmt), s.pending = none → hostNext s = some st →
    step s = hostStep st s) ∧
  (∀ (s : State) (w : Word) (st : HostStmt), s.pending = some w → hostNext s = some st →
    st ≠ .poll → s.delay ≠ 0 → step s = hostStep st { s with delay := s.delay - 1 })

/-- Weak fairness (R47, R253) in the model's form, log entry 2: from a state with a command pending,
after at most delay + 1 steps either a model fault has ended the run or nothing is pending. -/
def Obligations.PendingCommandEnds : Prop :=
  ∀ (s : State) (w : Word), s.pending = some w →
    ∃ k, k ≤ s.delay + 1 ∧
      ((∃ f, Host.Core.run core k s = .fault f) ∨
       ∃ t : State, Host.Core.run core k s = .next t ∧ t.pending = none)

/-- The invariant of Safety.lean holds after reset. -/
def Obligations.InvAtReset : Prop := GoodState State.reset

/-- Every step keeps the invariant: BUF_BYTES legal, the buffers and the catalog in canonical form
and within their size, the length registers within BUF_BYTES, the frame and the string written,
REC_IDX not past REC_COUNT. -/
def Obligations.InvKeptByStep : Prop :=
  ∀ s t : State, GoodState s → step s = .next t → GoodState t

/-- No step is refused, and a command stops on nothing but a buffer byte never written (R53, R217):
FRM.ENC on an unwritten payload byte, every other command on an unwritten RXBUF byte below
RXLEN. -/
def Obligations.CommandsStopOnlyOnUnwrittenBytes : Prop :=
  (∀ (s : State) (q : Refusal), step s ≠ .refused q) ∧
  (∀ (i : Instr) (s : State) (f : Fault), exec i s = .fault f →
    (∃ c p k, i = .frmEnc c p ∧ f = .unwrittenRead .tx k ∧ 6 ≤ k ∧ k < 6 + p ∧
      memGet s.txbuf k = none) ∨
    (∃ k, f = .unwrittenRead .rx k ∧ k < s.rxlen.toNat ∧ memGet s.rxbuf k = none))

/-- R53: a command that needs an RXBUF byte below RXLEN that was never written stops with
UnwrittenRead of such a byte: every field command, CRC.RX, FRM.DEC (on its header byte, and on any
byte of a frame with a good header) and REC.NEXT.ATT (on the record bytes it decodes). Which of
several unwritten bytes is named is the model's choice, log entry 8. FRM.ENC is in
FrmEncBuildsTheFrame. -/
def Obligations.UnwrittenByteStopsTheCommand : Prop :=
  (∀ (i : Instr) (w : Nat) (rel : Bool) (off : Nat) (s : State) (k : Nat),
    (i, w) ∈ fieldWidths rel off (ea rel s.arg.toNat s - ea rel off s) →
    k < w → Missing s (ea rel off s + k) →
    ∃ j, j < w ∧ Missing s (ea rel off s + j) ∧
      exec i s = .fault (.unwrittenRead .rx (ea rel off s + j))) ∧
  (∀ (st : Nat) (s : State) (k : Nat), st + s.arg.toNat ≤ s.rxlen.toNat → k < s.arg.toNat →
    Missing s (st + k) →
    ∃ j, j < s.arg.toNat ∧ Missing s (st + j) ∧
      exec (.crcRx st) s = .fault (.unwrittenRead .rx (st + j))) ∧
  (∀ s : State, 8 ≤ s.rxlen.toNat → Missing s 0 →
    exec .frmDec s = .fault (.unwrittenRead .rx 0)) ∧
  (∀ (s : State) (k : Nat), 8 ≤ s.rxlen.toNat → memGet s.rxbuf 0 = some 0xA5 → Missing s k →
    ∃ j, Missing s j ∧ exec .frmDec s = .fault (.unwrittenRead .rx j)) ∧
  (∀ (s : State) (base k : Nat), s.recIdx.toNat < s.recCount.toNat → 16 ≤ s.recW.toNat →
    base = s.recFirst.toNat + s.recIdx.toNat * s.recW.toNat → k < 16 → (k < 2 ∨ 6 ≤ k) →
    Missing s (base + k) →
    ∃ j, j < 16 ∧ (j < 2 ∨ 6 ≤ j) ∧ Missing s (base + j) ∧
      exec (.recNext true) s = .fault (.unwrittenRead .rx (base + j)))

/-! ## Encoding -/

/-- Every well-formed command decodes from its word, with every operand at every value (R90-R93). -/
def Obligations.DecodeEncodeRoundTrip : Prop :=
  ∀ i : Instr, i.wf = true → decode (encode i) = some i

/-- A word that decodes is the word of the command it decodes to, and that command is
well-formed: no two words encode one command (R91, R92). -/
def Obligations.DecodedWordIsTheEncoding : Prop :=
  ∀ (w : Word) (i : Instr), decode w = some i → i.wf = true ∧ encode i = w

/-- The decoder accepts exactly the words that fit a row of the opcode table, and no word fits two
rows (R92, R95). -/
def Obligations.DecodeAcceptsExactlyTheTable : Prop :=
  (∀ w : Word, (∃ i, decode w = some i) ↔ ∃ row ∈ opcodeRows, w &&& row.1 = row.2) ∧
  (∀ (w : Word) (r q : Word × Word), r ∈ opcodeRows → q ∈ opcodeRows →
    w &&& r.1 = r.2 → w &&& q.1 = q.2 → r = q)

/-- A rejected word is rejected by the name of its cause: an unassigned OP exactly when no row of
the table has that OP (R97), reserved bits exactly when a row has the OP but the word fits none
(R95). -/
def Obligations.RejectionNamesItsCause : Prop :=
  ∀ w : Word,
    (decodeWord w = .error (.unassignedOp (wordOp w)) ↔
      ∀ row ∈ opcodeRows, row.2.extractLsb' 0 8 ≠ wordOp w) ∧
    (decodeWord w = .error (.reservedBits (wordOp w)) ↔
      (∃ row ∈ opcodeRows, row.2.extractLsb' 0 8 = wordOp w) ∧
      ∀ row ∈ opcodeRows, w &&& row.1 ≠ row.2)

/-- Words written out from the table of R92 decode to the commands they stand for. -/
def Obligations.SpecWordsDecode : Prop :=
  decode 0b00000000000000000000000000010000 = some .crcInit ∧
  decode 0b00000000000000000011000100010001 = some (.crcByte 0x31) ∧
  decode 0b00000000000010000000000000010010 = some (.crcRx 8) ∧
  decode 0b00000000000001100011100000100000 = some (.frmEnc 0x38 6) ∧
  decode 0b00000000000000000000000000100001 = some .frmDec ∧
  decode 0b00000000000000100000000100110001 = some (.fldU16 true 2) ∧
  decode 0b00000000110010000000000000110110 = some (.fldIp false 200) ∧
  decode 0b00000000000000000100000001000000 = some (.rspCheck 0x40) ∧
  decode 0b00000000000000000000000101000010 = some (.recNext true) ∧
  decode 0b00000000000000000000001001000010 = none

/-- R98: a text assembles to a command exactly when it is that command as written, every operand the
number the command holds, and the command's operands fit their fields; what assembles decodes back from
its word; and a number too large for its field is refused in every operand of every mnemonic that has
one. That a text of another form (a missing or an extra operand, `rec+` where no field offset stands)
does not assemble is the model's choice, log entry 24. -/
def Obligations.AssemblerNeverTruncates : Prop :=
  (∀ (m : List Char) (ops : List AsmOperand) (i : Instr),
    assemble m ops = .ok i ↔ i.wf = true ∧ asmText i = (m, ops)) ∧
  (∀ (m : List Char) (ops : List AsmOperand) (i : Instr), assemble m ops = .ok i →
    decode (encode i) = some i) ∧
  (∀ n : Nat, 255 < n →
    (∀ m ∈ byteMnemonics, assemble m.toList [.num n] = .error .doesNotFit) ∧
    (∀ p, assemble "FRM.ENC".toList [.num n, .num p] = .error .doesNotFit)) ∧
  (∀ n : Nat, 65535 < n →
    assemble "CRC.RX".toList [.num n] = .error .doesNotFit ∧
    (∀ c, assemble "FRM.ENC".toList [.num c, .num n] = .error .doesNotFit) ∧
    (∀ m ∈ fieldMnemonics, ∀ rel : Bool,
      assemble m.toList (fieldText rel n) = .error .doesNotFit))

/-! ## Checksum -/

/-- R111: the word 0x00000010 is CRC.INIT, and it sets CRC to 0xFFFF, ERR to OK, and changes nothing
else. -/
def Obligations.CrcInitSetsCrc : Prop :=
  decode 0x00000010 = some .crcInit ∧
  ∀ s : State, exec .crcInit s = .next { s with crc := 0xFFFF, err := .ok, pending := none }

/-- R112: word [16 zero bits, d, 0x11]; one byte folded into CRC, nothing else changed; and after
CRC.INIT any bytes in order leave compute of them. -/
def Obligations.CrcBytesStreamToCompute : Prop :=
  (∀ d : Byte, decode ((0 : BitVec 16) ++ d ++ (0x11 : Byte)) = some (.crcByte d)) ∧
  (∀ (d : Byte) (s : State),
    exec (.crcByte d) s =
      .next { s with crc := crcStep s.crc d, err := .ok, pending := none }) ∧
  (∀ (bs : List Byte) (s : State),
    runCommands (.crcInit :: bs.map .crcByte) s =
      .next { s with crc := crcCompute bs, err := .ok, pending := none })

/-- R113: word [s, 8 zero bits, 0x12]; RANGE past RXLEN with CRC unchanged; else the fold over
RXBUF[s .. s+n-1], n = ARG, no lenient read. -/
def Obligations.CrcRxFoldsTheRange : Prop :=
  (∀ st : Half, decode (st ++ (0 : Byte) ++ (0x12 : Byte)) = some (.crcRx st.toNat)) ∧
  (∀ (st : Nat) (s : State), s.rxlen.toNat < st + s.arg.toNat →
    exec (.crcRx st) s = .next { s with err := .range, pending := none }) ∧
  (∀ (st : Nat) (s : State) (bs : List Byte), st + s.arg.toNat ≤ s.rxlen.toNat →
    bs.length = s.arg.toNat → HoldsAt s.rxbuf st bs →
    exec (.crcRx st) s = .next { s with crc := crcFold s.crc bs, err := .ok, pending := none })

/-- The pseudo-command CRC.COMPUTE s, n of R100, run by the host on an idle block from its first
statement to its end: seven steps later CRC = compute(RXBUF[s .. s+n-1]), the run has ended with
BUSY = 0 and ERR = OK. POLL collapsed: log entry 3. -/
def Obligations.CrcComputeMacroComputes : Prop :=
  ∀ (s : State) (st n : Nat) (bs : List Byte), s.pending = none →
    st + n ≤ s.rxlen.toNat → bs.length = n → HoldsAt s.rxbuf st bs →
    ∃ t : State, Host.Core.run core 7 (loadHostProgram (stmtsCrcCompute st n) s) = .next t ∧
      t.crc = crcCompute bs ∧ t.err = .ok ∧ runEnded t = true

/-- Vector C14 of 95_test_vectors.md for every byte string: appending the checksum, low byte
first, gives residue 0 (R110). -/
def Obligations.AppendedChecksumLeavesZero : Prop :=
  ∀ bs : List Byte,
    crcCompute (bs ++ [(crcCompute bs).extractLsb' 0 8, (crcCompute bs).extractLsb' 8 8]) = 0

/-- R110 from its two ends: one byte of the fold is an XOR into the low 8 bits and eight shifts,
each XORed with 0xA001 if the bit shifted out was 1; compute starts from 0xFFFF and has no final
XOR; and crc_fold takes the bytes in order from any register value. -/
def Obligations.ChecksumIsTheBitwiseAlgorithm : Prop :=
  (∀ (r : Half) (d : Byte),
    crcStep r d = (fun q : Half => if q.toNat % 2 = 1 then (q >>> 1) ^^^ 0xA001 else q >>> 1)^[8]
      (r ^^^ d.setWidth 16)) ∧
  (∀ (r : Half) (bs : List Byte), crcFold r bs = bs.foldl crcStep r) ∧
  (∀ bs : List Byte, crcCompute bs = bs.foldl crcStep 0xFFFF)

/-! ## Framer -/

/-- R131: word [P, c, 0x20]; RANGE when the frame does not fit, nothing written; an unwritten payload
byte is the model fault of R53; otherwise the frame of R130 stands in TXBUF[0 .. 7+P], its other
bytes as before, TXLEN = 8 + P, CRC the checksum, and nothing else has changed. BUF_BYTES is a legal
value (R7): at most 65535. -/
def Obligations.FrmEncBuildsTheFrame : Prop :=
  (∀ (c : Byte) (p : Half), decode (p ++ c ++ (0x20 : Byte)) = some (.frmEnc c p.toNat)) ∧
  (∀ (c : Byte) (p : Nat) (s : State), s.bufBytes < 8 + p →
    exec (.frmEnc c p) s = .next { s with err := .range, pending := none }) ∧
  (∀ (c : Byte) (p : Nat) (s : State), 8 + p ≤ s.bufBytes →
    (∃ k, k < p ∧ memGet s.txbuf (6 + k) = none) →
    ∃ k, k < p ∧ memGet s.txbuf (6 + k) = none ∧
      exec (.frmEnc c p) s = .fault (.unwrittenRead .tx (6 + k))) ∧
  (∀ (c : Byte) (p : Nat) (s : State) (bs : List Byte), 8 + p ≤ s.bufBytes →
    s.bufBytes ≤ 65535 → bs.length = p → HoldsAt s.txbuf 6 bs →
    let d := s.devid
    let id := [d.extractLsb' 0 8, d.extractLsb' 8 8, d.extractLsb' 16 8, d.extractLsb' 24 8]
    let r := crcCompute (id ++ [c] ++ bs)
    ∃ t : State, exec (.frmEnc c p) s = .next t ∧
      HoldsAt t.txbuf 0 ([0xA5] ++ id ++ [c] ++ bs ++ [r.extractLsb' 0 8, r.extractLsb' 8 8]) ∧
      (∀ k, 8 + p ≤ k → memGet t.txbuf k = memGet s.txbuf k) ∧
      t.txlen.toNat = 8 + p ∧
      t = { s with
            txbuf := t.txbuf, txlen := t.txlen, crc := r, err := .ok, pending := none })

/-- R134, in the order of R135, with the policy of R136 and the acceptance of R137: word 0x00000021;
FRAME_SHORT without reading RXBUF; FRAME_BAD_HEADER; else every output from the frame
RXBUF[0 .. L-1], CHECKSUM_MISMATCH only when STRICT. -/
def Obligations.FrmDecSplitsTheFrame : Prop :=
  decode 0x00000021 = some .frmDec ∧
  (∀ s : State, s.rxlen.toNat < 8 →
    exec .frmDec s = .next { s with ckok := false, err := .frameShort, pending := none }) ∧
  (∀ (s : State) (h : Byte), 8 ≤ s.rxlen.toNat → memGet s.rxbuf 0 = some h → h ≠ 0xA5 →
    exec .frmDec s = .next { s with ckok := false, err := .frameBadHeader, pending := none }) ∧
  (∀ (s : State) (fr : List Byte), 8 ≤ s.rxlen.toNat → fr.length = s.rxlen.toNat →
    HoldsAt s.rxbuf 0 fr → fr[0]? = some 0xA5 →
    let n := s.rxlen.toNat
    let r := crcCompute ((fr.drop 1).take (n - 3))
    let rx : Half := fr.getD (n - 1) 0 ++ fr.getD (n - 2) 0
    exec .frmDec s = .next
      { s with
        fDevid := fr.getD 4 0 ++ fr.getD 3 0 ++ fr.getD 2 0 ++ fr.getD 1 0
        fCmd := fr.getD 5 0
        fPlen := BitVec.ofNat 16 (n - 8)
        fCksum := r ++ rx
        crc := r
        ckok := decide (r = rx)
        err := if s.strict = true ∧ r ≠ rx then .checksumMismatch else .ok
        pending := none })

/-- R138: a frame FRM.ENC built, copied byte for byte into RXBUF with RXLEN = TXLEN, is taken apart
by FRM.DEC into what it was built from, in strict mode or not. -/
def Obligations.FrameRoundTrip : Prop :=
  ∀ (c : Byte) (p : Nat) (s t u : State) (bs : List Byte),
    s.bufBytes ≤ 65535 → bs.length = p → HoldsAt s.txbuf 6 bs →
    exec (.frmEnc c p) s = .next t → t.err = .ok →
    u.rxlen = t.txlen → (∀ k, k < t.txlen.toNat → memGet u.rxbuf k = memGet t.txbuf k) →
    let d := s.devid
    let id := [d.extractLsb' 0 8, d.extractLsb' 8 8, d.extractLsb' 16 8, d.extractLsb' 24 8]
    let r := crcCompute (id ++ [c] ++ bs)
    t.txlen.toNat = 8 + p ∧
    ∃ v : State, exec .frmDec u = .next v ∧ v.err = .ok ∧ v.ckok = true ∧ v.fDevid = s.devid ∧
      v.fCmd = c ∧ v.fPlen.toNat = p ∧ v.fCksum = r ++ r

/-! ## Fields -/

/-- R151, R154, R155: the three one-byte fields. FLD.U8: the byte zero-extended. FLD.S8: the integer v
if v < 128, else v - 256, in 32-bit two's complement. FLD.YEAR: the byte's binary value + 2000, so
2000 .. 2255, no packed BCD. Each writes RES0 and ERR alone. -/
def Obligations.OneByteFieldsDecode : Prop :=
  (∀ (off : Half) (rel : Bool),
    decode (fieldWord off rel 0x30) = some (.fldU8 rel off.toNat) ∧
    decode (fieldWord off rel 0x33) = some (.fldS8 rel off.toNat) ∧
    decode (fieldWord off rel 0x34) = some (.fldYear rel off.toNat)) ∧
  (∀ (rel : Bool) (off : Nat) (s : State) (b0 : Byte), ReadsB s (ea rel off s) b0 →
    exec (.fldU8 rel off) s =
      .next { s with res0 := b0.setWidth 32, err := .ok, pending := none } ∧
    (∃ r : Word, exec (.fldS8 rel off) s =
        .next { s with res0 := r, err := .ok, pending := none } ∧
      r.toInt = if b0.toNat < 128 then (b0.toNat : Int) else (b0.toNat : Int) - 256) ∧
    (∃ r : Word, exec (.fldYear rel off) s =
        .next { s with res0 := r, err := .ok, pending := none } ∧
      r.toNat = b0.toNat + 2000))

/-- R152, R153: the little-endian integers of two and four bytes, each byte read through b(i) on its
own; each writes RES0 and ERR alone. -/
def Obligations.MultiByteFieldsAreLittleEndian : Prop :=
  (∀ (off : Half) (rel : Bool),
    decode (fieldWord off rel 0x31) = some (.fldU16 rel off.toNat) ∧
    decode (fieldWord off rel 0x32) = some (.fldU32 rel off.toNat)) ∧
  (∀ (rel : Bool) (off : Nat) (s : State) (b0 b1 : Byte),
    ReadsB s (ea rel off s) b0 → ReadsB s (ea rel off s + 1) b1 →
    exec (.fldU16 rel off) s =
      .next { s with
              res0 := BitVec.ofNat 32 (b0.toNat + 256 * b1.toNat), err := .ok, pending := none }) ∧
  (∀ (rel : Bool) (off : Nat) (s : State) (b0 b1 b2 b3 : Byte),
    ReadsB s (ea rel off s) b0 → ReadsB s (ea rel off s + 1) b1 →
    ReadsB s (ea rel off s + 2) b2 → ReadsB s (ea rel off s + 3) b3 →
    exec (.fldU32 rel off) s =
      .next { s with res0 := b3 ++ b2 ++ b1 ++ b0, err := .ok, pending := none })

/-- R156: year, then month, day, hour, minute from RES1[7:0] up, second; no validation. -/
def Obligations.FldDate6SixBytes : Prop :=
  (∀ (off : Half) (rel : Bool),
    decode (fieldWord off rel 0x35) = some (.fldDate6 rel off.toNat)) ∧
  (∀ (rel : Bool) (off : Nat) (s : State) (y mo d h mi se : Byte),
    ReadsB s (ea rel off s) y → ReadsB s (ea rel off s + 1) mo → ReadsB s (ea rel off s + 2) d →
    ReadsB s (ea rel off s + 3) h → ReadsB s (ea rel off s + 4) mi →
    ReadsB s (ea rel off s + 5) se →
    exec (.fldDate6 rel off) s =
      .next { s with
              res0 := BitVec.ofNat 32 (y.toNat + 2000)
              res1 := mi ++ h ++ d ++ mo
              res2 := se.setWidth 32
              err := .ok
              pending := none })

/-- R157: the dotted quad in decimal in STRBUF[0 .. STRLEN-1], the bytes past it unchanged, 7 to 15
characters, the octets in RES0, nothing else changed. -/
def Obligations.FldIpWritesTheDottedQuad : Prop :=
  (∀ (off : Half) (rel : Bool), decode (fieldWord off rel 0x36) = some (.fldIp rel off.toNat)) ∧
  (∀ (rel : Bool) (off : Nat) (s : State) (o0 o1 o2 o3 : Byte),
    ReadsB s (ea rel off s) o0 → ReadsB s (ea rel off s + 1) o1 →
    ReadsB s (ea rel off s + 2) o2 → ReadsB s (ea rel off s + 3) o3 →
    ∃ t : State, exec (.fldIp rel off) s = .next t ∧
      HoldsAt t.strbuf 0 (quadText o0 o1 o2 o3) ∧
      (∀ k, (quadText o0 o1 o2 o3).length ≤ k → memGet t.strbuf k = memGet s.strbuf k) ∧
      t.strlen.toNat = (quadText o0 o1 o2 o3).length ∧ 7 ≤ t.strlen.toNat ∧
      t.strlen.toNat ≤ 15 ∧
      t = { s with
            strbuf := t.strbuf, strlen := t.strlen, res0 := o3 ++ o2 ++ o1 ++ o0
            err := .ok, pending := none })

/-- R158: the non-zero bytes of the half-open range [start, end) in order in STRBUF, the bytes past
them unchanged, STRLEN their number, at most max(0, min(end, RXLEN) - start), nothing else
changed. -/
def Obligations.FldAsciiKeepsNonZeroBytes : Prop :=
  (∀ (off : Half) (rel : Bool),
    decode (fieldWord off rel 0x37) = some (.fldAscii rel off.toNat)) ∧
  (∀ (rel : Bool) (off : Nat) (s : State) (bs : List Byte),
    bs.length = ea rel s.arg.toNat s - ea rel off s →
    (∀ k v, bs[k]? = some v → ReadsB s (ea rel off s + k) v) →
    let kept := bs.filter fun b => b != 0
    ∃ t : State, exec (.fldAscii rel off) s = .next t ∧
      HoldsAt t.strbuf 0 kept ∧
      (∀ k, kept.length ≤ k → memGet t.strbuf k = memGet s.strbuf k) ∧
      t.strlen.toNat = kept.length ∧
      t.strlen.toNat ≤ min (ea rel s.arg.toNat s) s.rxlen.toNat - ea rel off s ∧
      t = { s with strbuf := t.strbuf, strlen := t.strlen, err := .ok, pending := none })

/-- R159: no FLD command changes CRC, TXBUF, RXBUF, the record iterator, CKOK, END or OVR; each writes
exactly the results its rule names, of STRBUF nothing from STRLEN on (R157, R158, R52), and ERR = OK. -/
def Obligations.FieldCommandsChangeOnlyResults : Prop :=
  ∀ (i : Instr) (s t : State), isField i = true → exec i s = .next t →
    (t.err = .ok ∧ t.crc = s.crc ∧ t.txbuf = s.txbuf ∧ t.rxbuf = s.rxbuf ∧
      t.recCount = s.recCount ∧ t.recIdx = s.recIdx ∧ t.recBase = s.recBase ∧ t.ckok = s.ckok ∧
      t.endFlag = s.endFlag ∧ t.ovr = s.ovr) ∧
    match i with
    | .fldDate6 _ _ =>
      t = { s with res0 := t.res0, res1 := t.res1, res2 := t.res2, err := .ok, pending := none }
    | .fldIp _ _ =>
      t = { s with
            res0 := t.res0, strbuf := t.strbuf, strlen := t.strlen, err := .ok, pending := none } ∧
      ∀ k, t.strlen.toNat ≤ k → memGet t.strbuf k = memGet s.strbuf k
    | .fldAscii _ _ =>
      t = { s with strbuf := t.strbuf, strlen := t.strlen, err := .ok, pending := none } ∧
      ∀ k, t.strlen.toNat ≤ k → memGet t.strbuf k = memGet s.strbuf k
    | _ => t = { s with res0 := t.res0, err := .ok, pending := none }

/-- R150: a field command none of whose bytes lies below RXLEN completes, whatever the buffer
holds: the default of U16, U32, S8 and U8 is 0, of YEAR 2000, of DATE6 year 2000 and zeros, of IP
"0.0.0.0" with octets 0, of ASCII the empty string. Each is the exact next state. -/
def Obligations.FieldPastTheEndYieldsDefaults : Prop :=
  ∀ (rel : Bool) (off : Nat) (s : State), s.rxlen.toNat ≤ ea rel off s →
    exec (.fldU8 rel off) s = .next { s with res0 := 0, err := .ok, pending := none } ∧
    exec (.fldU16 rel off) s = .next { s with res0 := 0, err := .ok, pending := none } ∧
    exec (.fldU32 rel off) s = .next { s with res0 := 0, err := .ok, pending := none } ∧
    exec (.fldS8 rel off) s = .next { s with res0 := 0, err := .ok, pending := none } ∧
    exec (.fldYear rel off) s = .next { s with res0 := 2000, err := .ok, pending := none } ∧
    exec (.fldDate6 rel off) s =
      .next { s with res0 := 2000, res1 := 0, res2 := 0, err := .ok, pending := none } ∧
    (∃ t : State, exec (.fldIp rel off) s = .next t ∧
      HoldsAt t.strbuf 0 (asciiText "0.0.0.0") ∧
      (∀ k, 7 ≤ k → memGet t.strbuf k = memGet s.strbuf k) ∧
      t = { s with strbuf := t.strbuf, strlen := 7, res0 := 0, err := .ok, pending := none }) ∧
    exec (.fldAscii rel off) s = .next { s with strlen := 0, err := .ok, pending := none }

/-! ## Records -/

/-- R182, in the order of R183. -/
def Obligations.RspCheckLooksUpThenChecks : Prop :=
  (∀ c : Byte, decode ((0 : BitVec 16) ++ c ++ (0x40 : Byte)) = some (.rspCheck c)) ∧
  (∀ (c : Byte) (s : State), (catGet s.cat c.toNat).valid = false →
    exec (.rspCheck c) s = .next { s with err := .unknownCommand, pending := none }) ∧
  (∀ (c : Byte) (s : State), (catGet s.cat c.toNat).valid = true →
    s.rxlen.toNat < (catGet s.cat c.toNat).minLen.toNat →
    exec (.rspCheck c) s = .next { s with err := .incompleteResponse, pending := none }) ∧
  (∀ (c : Byte) (s : State), (catGet s.cat c.toNat).valid = true →
    (catGet s.cat c.toNat).minLen.toNat ≤ s.rxlen.toNat →
    exec (.rspCheck c) s = .next
      (if (catGet s.cat c.toNat).kind = true then
        { s with
          catKind := true
          recW := (catGet s.cat c.toNat).recW
          recFirst := (catGet s.cat c.toNat).recFirst
          recHdr := (catGet s.cat c.toNat).recHdr
          err := .ok
          pending := none }
      else { s with catKind := false, err := .ok, pending := none }))

/-- R184: BAD_PARAM for W = 0 and for F > H, the iterator and END as before; else the count, which is
the largest number of whole records of W bytes in L - H bytes and 0 when L < H. -/
def Obligations.RecStartCountsRecords : Prop :=
  decode 0x00000041 = some .recStart ∧
  (∀ s : State, s.recW.toNat = 0 ∨ s.recHdr.toNat < s.recFirst.toNat →
    exec .recStart s = .next { s with err := .badParam, pending := none }) ∧
  (∀ s : State, s.recW.toNat ≠ 0 → s.recFirst.toNat ≤ s.recHdr.toNat →
    ∃ n : Half,
      exec .recStart s = .next
        { s with
          recCount := n, recIdx := 0, recBase := s.recFirst.setWidth 32, endFlag := false
          err := .ok, pending := none } ∧
      (s.rxlen.toNat < s.recHdr.toNat → n.toNat = 0) ∧
      (s.recHdr.toNat ≤ s.rxlen.toNat →
        n.toNat * s.recW.toNat ≤ s.rxlen.toNat - s.recHdr.toNat ∧
        s.rxlen.toNat - s.recHdr.toNat < (n.toNat + 1) * s.recW.toNat))

/-- R188, R189: exhausted first (END = 1, ERR = OK, nothing else), then BAD_PARAM for ATT = 1 with
W < 16, then with ATT = 0 only the iterator advances; with ATT = 1 also the attendance record of R186
at REC_BASE: user id and year in RES0, month, day, hour, minute in RES1, second in RES2, record bytes
12-15 in RES3; record bytes 2-5 are not read. -/
def Obligations.RecNextProducesOrEnds : Prop :=
  (∀ a : Bool, decode ((0 : BitVec 16) ++ (0 : BitVec 7) ++ BitVec.ofBool a ++ (0x42 : Byte))
    = some (.recNext a)) ∧
  (∀ (a : Bool) (s : State), s.recCount.toNat ≤ s.recIdx.toNat →
    exec (.recNext a) s = .next { s with endFlag := true, err := .ok, pending := none }) ∧
  (∀ s : State, s.recIdx.toNat < s.recCount.toNat → s.recW.toNat < 16 →
    exec (.recNext true) s = .next { s with err := .badParam, pending := none }) ∧
  (∀ s : State, s.recIdx.toNat < s.recCount.toNat →
    exec (.recNext false) s = .next
      { s with
        recBase := BitVec.ofNat 32 (s.recFirst.toNat + s.recIdx.toNat * s.recW.toNat)
        recIdx := s.recIdx + 1
        endFlag := false
        err := .ok
        pending := none } ∧
    s.recFirst.toNat + s.recIdx.toNat * s.recW.toNat < 2 ^ 32 ∧
    (s.recIdx + 1).toNat = s.recIdx.toNat + 1) ∧
  (∀ (s : State) (r : List Byte) (base : Nat), s.recIdx.toNat < s.recCount.toNat →
    16 ≤ s.recW.toNat → base = s.recFirst.toNat + s.recIdx.toNat * s.recW.toNat →
    r.length = 16 →
    (∀ k v, r[k]? = some v → k < 2 ∨ 6 ≤ k → ReadsB s (base + k) v) →
    ∃ y : Half, y.toNat = (r.getD 6 0).toNat + 2000 ∧
      exec (.recNext true) s = .next
        { s with
          recBase := BitVec.ofNat 32 base
          recIdx := s.recIdx + 1
          endFlag := false
          res0 := y ++ (r.getD 1 0 ++ r.getD 0 0 : Half)
          res1 := r.getD 10 0 ++ r.getD 9 0 ++ r.getD 8 0 ++ r.getD 7 0
          res2 := (r.getD 11 0).setWidth 32
          res3 := r.getD 15 0 ++ r.getD 14 0 ++ r.getD 13 0 ++ r.getD 12 0
          err := .ok
          pending := none })

/-- R185: a REC.START that completes OK leaves an iterator that fits the response, with the count
floor((L - H)/W) when L ≥ H; every step that leaves REC_W, REC_FIRST, REC_HDR and RXLEN as they were
keeps it so; and a record REC.NEXT then produces is record i = REC_IDX at its start, at F + i·W, with
every byte below L. -/
def Obligations.RecordsStayInsideTheResponse : Prop :=
  (∀ s t : State, exec .recStart s = .next t → t.err = .ok →
    IteratorFits t ∧
    (s.recHdr.toNat ≤ s.rxlen.toNat →
      t.recCount.toNat = (s.rxlen.toNat - s.recHdr.toNat) / s.recW.toNat)) ∧
  (∀ s t : State, IteratorFits s → step s = .next t → t.recW = s.recW →
    t.recFirst = s.recFirst → t.recHdr = s.recHdr → t.rxlen = s.rxlen → IteratorFits t) ∧
  (∀ (s t : State) (a : Bool), IteratorFits s → exec (.recNext a) s = .next t → t.err = .ok →
    t.endFlag = false →
    t.recIdx.toNat = s.recIdx.toNat + 1 ∧ s.recIdx.toNat < s.recCount.toNat ∧
    t.recBase.toNat = s.recFirst.toNat + s.recIdx.toNat * s.recW.toNat ∧
    t.recBase.toNat + s.recW.toNat ≤ s.rxlen.toNat)

/-! ## STATUS and what commands leave alone -/

/-- R26: CKOK is written by FRM.DEC only: 1 when the frame passed the length and header checks and its
received checksum equals the recomputed one, 0 in every other outcome of FRM.DEC. -/
def Obligations.CkokReportsFrmDecOnly : Prop :=
  (∀ (i : Instr) (s t : State), i ≠ .frmDec → exec i s = .next t → t.ckok = s.ckok) ∧
  (∀ s t : State, exec .frmDec s = .next t →
    (t.ckok = true ↔
      ∃ fr : List Byte, 8 ≤ fr.length ∧ fr.length = s.rxlen.toNat ∧ HoldsAt s.rxbuf 0 fr ∧
        fr[0]? = some 0xA5 ∧
        crcCompute ((fr.drop 1).take (fr.length - 3)) =
          (fr.getD (fr.length - 1) 0 ++ fr.getD (fr.length - 2) 0 : Half)))

/-- R27, with R184 and R188 for BAD_PARAM (log entry 28): END is cleared by REC.START when it completes
OK and written by REC.NEXT when it completes OK: 1 when REC_IDX ≥ REC_COUNT at its start, else 0; no
other command changes it, and no failing one. -/
def Obligations.EndWrittenByRecordCommandsOnly : Prop :=
  ∀ (i : Instr) (s t : State), exec i s = .next t →
    t.endFlag =
      match i with
      | .recStart => if t.err = .ok then false else s.endFlag
      | .recNext _ =>
        if t.err = .ok then decide (s.recCount.toNat ≤ s.recIdx.toNat) else s.endFlag
      | _ => s.endFlag

/-- R28: a CMD write while BUSY sets OVR, a write of 1 to STATUS bit 3 clears it, and nothing else
changes it: a step that changes it is one of those two host writes, or the reset event (R240). -/
def Obligations.OvrSetAndClearedOnlyByTheHost : Prop :=
  (∀ (s : State) (w v : Word), s.pending = some w →
    hostWrite 0x010 .four v s = .ok { s with ovr := true }) ∧
  (∀ (s : State) (v : Word),
    hostWrite 0x00C .four v s = .ok (if v.getLsbD 3 then { s with ovr := false } else s)) ∧
  (∀ s t : State, step s = .next t → t.ovr ≠ s.ovr →
    (∃ v, hostNext s = some (.write 0x010 .four v) ∧ s.pending.isSome = true ∧ t.ovr = true) ∨
    (∃ v, hostNext s = some (.write 0x00C .four v) ∧ v.getLsbD 3 = true ∧ t.ovr = false) ∨
    (hostNext s = some .assertReset ∧ t.ovr = false))

/-- The "raised by" column of R210, and its codes: each command completes with one of its codes only,
the code read in STATUS[11:8] is the table's number, and 9-15 are never read (R29). -/
def Obligations.CommandsRaiseOnlyTheirCodes : Prop :=
  (∀ (i : Instr) (s t : State), exec i s = .next t → t.err ∈ raises i) ∧
  (∀ s : State, ((statusWord s).extractLsb' 8 4).toNat =
    match s.err with
    | .ok => 0
    | .frameShort => 1
    | .frameBadHeader => 2
    | .checksumMismatch => 3
    | .unknownCommand => 4
    | .incompleteResponse => 5
    | .illegalOp => 6
    | .range => 7
    | .badParam => 8)

/-- R25: the STATUS word: [0] BUSY (R47: a command is pending), [1] CKOK, [2] END, [3] OVR, and the
reserved fields [7:4] and [31:12] read 0; the host reads it at 0x00C at any time (R73). -/
def Obligations.StatusWordLayout : Prop :=
  ∀ s : State,
    hostRead 0x00C .four s = .ok (statusWord s) ∧
    (statusWord s).getLsbD 0 = s.pending.isSome ∧ (statusWord s).getLsbD 1 = s.ckok ∧
    (statusWord s).getLsbD 2 = s.endFlag ∧ (statusWord s).getLsbD 3 = s.ovr ∧
    (statusWord s).extractLsb' 4 4 = 0 ∧ (statusWord s).extractLsb' 12 20 = 0

/-- Every command that answers a next state clears BUSY (R11) and leaves alone what the host owns:
BUF_BYTES, CTRL, ARG (R31), DEVID, RXLEN (R35), the catalog (R49), RXBUF (R51), OVR (R28) and the
host's own state. -/
def Obligations.CommandsLeaveHostStateAlone : Prop :=
  ∀ (i : Instr) (s t : State), exec i s = .next t →
    t.pending = none ∧ t.bufBytes = s.bufBytes ∧ t.strict = s.strict ∧ t.arg = s.arg ∧
    t.devid = s.devid ∧ t.rxlen = s.rxlen ∧ t.cat = s.cat ∧ t.rxbuf = s.rxbuf ∧ t.ovr = s.ovr ∧
    t.delay = s.delay ∧ t.draws = s.draws ∧ t.hostProg = s.hostProg ∧ t.hostPc = s.hostPc ∧
    t.lastStatus = s.lastStatus ∧ t.hostReads = s.hostReads

/-- Each result has its writers (R32, R34, R36-R46, R52, R114): CRC the five commands of R114; TXBUF
and TXLEN FRM.ENC; F_* FRM.DEC; RES0-RES2
the field commands and REC.NEXT.ATT; RES3 REC.NEXT.ATT alone; STRBUF and STRLEN FLD.IP and
FLD.ASCII; CAT_KIND and the record parameters RSP.CHECK; the iterator REC.START and REC.NEXT. -/
def Obligations.EachResultHasItsWriters : Prop :=
  ∀ (i : Instr) (s t : State), exec i s = .next t →
    (writesCrc i = false → t.crc = s.crc) ∧
    ((∀ c p, i ≠ .frmEnc c p) → t.txbuf = s.txbuf ∧ t.txlen = s.txlen) ∧
    (i ≠ .frmDec → t.fDevid = s.fDevid ∧ t.fCmd = s.fCmd ∧ t.fPlen = s.fPlen ∧
      t.fCksum = s.fCksum) ∧
    (isField i = false → i ≠ .recNext true →
      t.res0 = s.res0 ∧ t.res1 = s.res1 ∧ t.res2 = s.res2) ∧
    (i ≠ .recNext true → t.res3 = s.res3) ∧
    ((∀ r o, i ≠ .fldIp r o) → (∀ r o, i ≠ .fldAscii r o) →
      t.strbuf = s.strbuf ∧ t.strlen = s.strlen) ∧
    ((∀ c, i ≠ .rspCheck c) → t.catKind = s.catKind ∧ t.recW = s.recW ∧
      t.recFirst = s.recFirst ∧ t.recHdr = s.recHdr) ∧
    (i ≠ .recStart → (∀ a, i ≠ .recNext a) → t.recCount = s.recCount ∧ t.recIdx = s.recIdx ∧
      t.recBase = s.recBase)

/-- R31: only CRC.RX and FLD.ASCII take an operand from ARG; the other commands ignore it: with
another ARG they do the same. -/
def Obligations.OtherCommandsIgnoreArg : Prop :=
  ∀ (i : Instr) (s : State) (x : Half), usesArg i = false →
    exec i { s with arg := x } = mapNext (fun t => { t with arg := x }) (exec i s)

/-- R211, R215: a command that completes with an error writes ERR and clears BUSY, and nothing
else, so it leaves CRC (R114); the exceptions are FRM.DEC's, which clears CKOK on every error and on CHECKSUM_MISMATCH
holds the frame's values (R134; log entry 26). -/
def Obligations.FailedCommandWritesOnlyItsCode : Prop :=
  ∀ (i : Instr) (s t : State), exec i s = .next t → t.err ≠ .ok →
    (i ≠ .frmDec → t = { s with err := t.err, pending := none }) ∧
    (i = .frmDec → t.ckok = false ∧
      (t.err ≠ .checksumMismatch →
        t = { s with ckok := false, err := t.err, pending := none }) ∧
      t = { s with
            fDevid := t.fDevid, fCmd := t.fCmd, fPlen := t.fPlen, fCksum := t.fCksum
            crc := t.crc, ckok := false, err := t.err, pending := none })

/-! ## Host port -/

/-- R21: each register at its address reads as its fields, the reserved bits 0, when BUSY = 0. -/
def Obligations.CsrMapReads : Prop :=
  ∀ s : State, s.pending = none → ∀ p ∈ csrTable s, hostRead p.1 .four s = .ok p.2

/-- R21, R24, R31, R33, R35, R43-R45: when BUSY = 0 a write to a read-write register stores its
field, RXLEN clamped to min(v[15:0], BUF_BYTES), and a write to a read-only register is ignored. -/
def Obligations.CsrMapWrites : Prop :=
  ∀ (s : State) (v : Word), s.pending = none →
    (∀ a ∈ readOnlyAddrs, hostWrite a .four v s = .ok s) ∧
    hostWrite 0x008 .four v s = .ok { s with strict := v.getLsbD 0 } ∧
    hostWrite 0x014 .four v s = .ok { s with arg := v.extractLsb' 0 16 } ∧
    hostWrite 0x01C .four v s = .ok { s with devid := v } ∧
    hostWrite 0x024 .four v s =
      .ok { s with rxlen := BitVec.ofNat 16 (min (v.toNat % 65536) s.bufBytes) } ∧
    hostWrite 0x050 .four v s = .ok { s with recW := v.extractLsb' 0 16 } ∧
    hostWrite 0x054 .four v s = .ok { s with recFirst := v.extractLsb' 0 16 } ∧
    hostWrite 0x058 .four v s = .ok { s with recHdr := v.extractLsb' 0 16 }

/-- R30: reads of CMD return 0 (BUSY = 0); a write of any word when BUSY = 0 makes it the pending
command, so BUSY reads 1, and changes nothing else of the block (the latency is drawn, log
entry 2); a write when BUSY = 1 is dropped and sets OVR. -/
def Obligations.CmdWriteAcceptedOrDropped : Prop :=
  (∀ s : State, s.pending = none → hostRead 0x010 .four s = .ok 0) ∧
  (∀ (s : State) (w : Word), s.pending = none →
    ∃ t : State, hostWrite 0x010 .four w s = .ok t ∧ t.pending = some w ∧
      (statusWord t).getLsbD 0 = true ∧
      t = { s with pending := some w, delay := t.delay, draws := t.draws }) ∧
  (∀ (s : State) (w v : Word), s.pending = some v →
    hostWrite 0x010 .four w s = .ok { s with ovr := true })

/-- R67, R68, R69: an access is a bus error exactly when it is misaligned or is not 4 bytes wide in
the CSR or catalog region, whether or not BUSY; it gives no datum and no state. -/
def Obligations.BusErrorExactly : Prop :=
  ∀ (s : State) (a : HostAddr) (n : PortWidth) (v : Word),
    ((a.toNat % widthBytes n ≠ 0 ∨
        ((a.toNat < 0x100 ∨ 0x1000 ≤ a.toNat ∧ a.toNat < 0x2000) ∧ n ≠ .four)) →
      hostRead a n s = .error (.hostBusError a (widthBytes n)) ∧
      hostWrite a n v s = .error (.hostBusError a (widthBytes n))) ∧
    ((a.toNat % widthBytes n = 0 ∧
        ((a.toNat < 0x100 ∨ 0x1000 ≤ a.toNat ∧ a.toNat < 0x2000) → n = .four)) →
      ∀ m, hostRead a n s ≠ .error (.hostBusError a m) ∧
        hostWrite a n v s ≠ .error (.hostBusError a m))

/-- R61, R62: when BUSY = 0 a reserved address, a reserved CSR offset and a buffer offset at or above
BUF_BYTES read 0 and ignore writes; a misaligned access is still a bus error. -/
def Obligations.ReservedAddressesReadZero : Prop :=
  ∀ (s : State) (a : HostAddr) (n : PortWidth) (v : Word), s.pending = none →
    reservedAddr s a.toNat →
    (a.toNat % widthBytes n = 0 → (a.toNat < 0x100 → n = .four) →
      hostRead a n s = .ok 0 ∧ hostWrite a n v s = .ok s) ∧
    (a.toNat % widthBytes n ≠ 0 →
      hostRead a n s = .error (.hostBusError a (widthBytes n)) ∧
      hostWrite a n v s = .error (.hostBusError a (widthBytes n)))

/-- R65, R66: when BUSY = 0, an aligned write of n bytes to the TXBUF or RXBUF window stores datum
byte k at address a + k, where a 1-byte read returns it; every other byte of both buffers reads as
before, offsets the buffer does not have are left alone, and nothing else changes. -/
def Obligations.WindowWriteStoresLittleEndian : Prop :=
  ∀ (s : State) (b : BufferId) (i : Nat) (n : PortWidth) (v : Word), s.pending = none →
    b ≠ .str → i < 65536 → i % widthBytes n = 0 →
    ∃ t : State, hostWrite (bufAddr b i) n v s = .ok t ∧
      (∀ k, k < widthBytes n → i + k < s.bufBytes →
        hostRead (bufAddr b (i + k)) .one t = .ok ((v >>> (8 * k)) &&& 0xFF)) ∧
      (∀ j, j < i ∨ i + widthBytes n ≤ j ∨ s.bufBytes ≤ j →
        memGet (bufferOf b t) j = memGet (bufferOf b s) j) ∧
      (∀ b', b' ≠ b → bufferOf b' t = bufferOf b' s) ∧
      t = { s with txbuf := t.txbuf, rxbuf := t.rxbuf }

/-- R65, R66, R61, R62, R53: when BUSY = 0, an aligned read of a buffer window returns its bytes
little-endian, a byte the buffer does not have as 0 (an access that holds both kinds: log entry 10);
a read of 1, 2 or 4 bytes that holds a byte below BUF_BYTES never written is the model fault
UnwrittenRead of such a byte (which of several is the model's choice, log entry 8, and is not stated);
writes to the STRBUF window are ignored. -/
def Obligations.WindowReadsLittleEndian : Prop :=
  (∀ (s : State) (b : BufferId) (i : Nat) (b0 : Byte), s.pending = none → i < 65536 →
    WindowByte s b i b0 → hostRead (bufAddr b i) .one s = .ok (b0.setWidth 32)) ∧
  (∀ (s : State) (b : BufferId) (i : Nat) (b0 b1 : Byte), s.pending = none → i < 65536 →
    i % 2 = 0 → WindowByte s b i b0 → WindowByte s b (i + 1) b1 →
    hostRead (bufAddr b i) .two s = .ok (BitVec.ofNat 32 (b0.toNat + 256 * b1.toNat))) ∧
  (∀ (s : State) (b : BufferId) (i : Nat) (b0 b1 b2 b3 : Byte), s.pending = none → i < 65536 →
    i % 4 = 0 → WindowByte s b i b0 → WindowByte s b (i + 1) b1 → WindowByte s b (i + 2) b2 →
    WindowByte s b (i + 3) b3 →
    hostRead (bufAddr b i) .four s = .ok (b3 ++ b2 ++ b1 ++ b0)) ∧
  (∀ (s : State) (b : BufferId) (i : Nat), s.pending = none → i < 65536 → i < s.bufBytes →
    memGet (bufferOf b s) i = none →
    hostRead (bufAddr b i) .one s = .error (.unwrittenRead b i)) ∧
  (∀ (s : State) (b : BufferId) (i k : Nat) (n : PortWidth), s.pending = none → i < 65536 →
    i % widthBytes n = 0 → k < widthBytes n → i + k < s.bufBytes →
    memGet (bufferOf b s) (i + k) = none →
    ∃ j, j < widthBytes n ∧ i + j < s.bufBytes ∧ memGet (bufferOf b s) (i + j) = none ∧
      hostRead (bufAddr b i) n s = .error (.unwrittenRead b (i + j))) ∧
  (∀ (s : State) (i : Nat) (n : PortWidth) (v : Word), s.pending = none → i < 65536 →
    i % widthBytes n = 0 → hostWrite (bufAddr .str i) n v s = .ok s)

/-- R63, R49: when BUSY = 0, a write to word k of catalog entry c is read back with its reserved bits
0, the fields of entry c that R49 places in word k hold its bits and the entry's other fields and the
other entries (what RSP.CHECK reads) are as before, no other catalog word changes, and nothing but the
catalog changes. The catalog is in canonical form (InvKeptByStep). -/
def Obligations.CatalogWordReadsBack : Prop :=
  ∀ (s : State) (c k : Nat) (v : Word), s.pending = none → Catalog.wf s.cat = true →
    c < 256 → k < 4 →
    ∃ t : State, hostWrite (catWordAddr c k) .four v s = .ok t ∧
      hostRead (catWordAddr c k) .four t = .ok (v &&& catMask k) ∧
      catGet t.cat c = catEntryAfter (catGet s.cat c) k v ∧
      (∀ c', c' ≠ c → catGet t.cat c' = catGet s.cat c') ∧
      (∀ c' k', c' < 256 → k' < 4 → (c', k') ≠ (c, k) →
        hostRead (catWordAddr c' k') .four t = hostRead (catWordAddr c' k') .four s) ∧
      t = { s with cat := t.cat }

/-- R73: while BUSY = 1, STATUS, ID and PARAM read their values; any other allowed-width aligned read
answers some datum and never a fault; STATUS and CMD may be written; any other allowed-width aligned
write is HostWriteWhileBusy. The datum is free (log entries 5 and 6). -/
def Obligations.BusyPortRules : Prop :=
  ∀ (s : State) (w v : Word) (a : HostAddr) (n : PortWidth), s.pending = some w →
    accessOk a n = true →
    (hostRead 0x00C .four s = .ok (statusWord s) ∧ hostRead 0x000 .four s = .ok 0x36314B43 ∧
      hostRead 0x004 .four s = .ok (BitVec.ofNat 32 (s.bufBytes % 65536))) ∧
    (∃ x, hostRead a n s = .ok x) ∧
    (a ≠ 0x00C → a ≠ 0x010 → hostWrite a n v s = .error (.hostWriteWhileBusy a)) ∧
    (∃ t, hostWrite 0x00C .four v s = .ok t) ∧ (∃ t, hostWrite 0x010 .four v s = .ok t)

/-- R70: a host read has no side effect on the block: a read statement that is no fault leaves every
register, the catalog, the buffers and the pending command as they were; the datum goes to the host
alone. -/
def Obligations.HostReadsHaveNoSideEffect : Prop :=
  ∀ (s t : State) (a : HostAddr) (n : PortWidth), hostStep (.read a n) s = .next t →
    ∃ v, hostRead a n s = .ok v ∧
      t = { s with
            hostReads := v :: s.hostReads
            lastStatus := if a = 0x00C then v else s.lastStatus
            draws := s.draws + 1
            hostPc := s.hostPc + 1 }

/-- No host statement but the reset event writes what the engine owns (R21 RO, R29, R46, R52): ERR,
CKOK, END, CRC, TXLEN, F_*, RES*, STRLEN, CAT_KIND, the iterator and STRBUF. -/
def Obligations.HostNeverWritesEngineRegisters : Prop :=
  ∀ (st : HostStmt) (s t : State), st ≠ .assertReset → hostStep st s = .next t →
    t.err = s.err ∧ t.ckok = s.ckok ∧ t.endFlag = s.endFlag ∧ t.crc = s.crc ∧
    t.txlen = s.txlen ∧ t.fDevid = s.fDevid ∧ t.fCmd = s.fCmd ∧ t.fPlen = s.fPlen ∧
    t.fCksum = s.fCksum ∧ t.res0 = s.res0 ∧ t.res1 = s.res1 ∧ t.res2 = s.res2 ∧
    t.res3 = s.res3 ∧ t.strlen = s.strlen ∧ t.catKind = s.catKind ∧ t.recCount = s.recCount ∧
    t.recIdx = s.recIdx ∧ t.recBase = s.recBase ∧ t.strbuf = s.strbuf ∧
    t.bufBytes = s.bufBytes

/-! ## Reset -/

/-- R54, R242: after reset each register reads its reset value of R21, PARAM the parameter BUF_BYTES
between 16 and 65535 (R7), nothing is pending, every catalog word is 0 and no buffer byte is
written. -/
def Obligations.ResetStateReads : Prop :=
  (∀ p ∈ ([(0x000, 0x36314B43), (0x008, 0), (0x00C, 0), (0x010, 0), (0x014, 0), (0x018, 0xFFFF),
      (0x01C, 5), (0x020, 0), (0x024, 0), (0x028, 0), (0x02C, 0), (0x030, 0), (0x034, 0),
      (0x038, 0), (0x03C, 0), (0x040, 0), (0x044, 0), (0x048, 0), (0x04C, 0), (0x050, 16),
      (0x054, 0), (0x058, 0), (0x05C, 0), (0x060, 0), (0x064, 0)] : List (HostAddr × Word)),
    hostRead p.1 .four State.reset = .ok p.2) ∧
  (∃ n : Nat, 16 ≤ n ∧ n ≤ 65535 ∧ State.reset.bufBytes = n ∧
    hostRead 0x004 .four State.reset = .ok (BitVec.ofNat 32 n)) ∧
  State.reset.pending = none ∧
  (∀ c k : Nat, c < 256 → k < 4 → hostRead (catWordAddr c k) .four State.reset = .ok 0) ∧
  (∀ (b : BufferId) (i : Nat), memGet (bufferOf b State.reset) i = none)

/-- R50: every catalog word resets to 0, so after reset RSP.CHECK reports UNKNOWN_COMMAND for every
code. -/
def Obligations.ResetCatalogIsInvalid : Prop :=
  (∀ c k : Nat, c < 256 → k < 4 → hostRead (catWordAddr c k) .four State.reset = .ok 0) ∧
  (∀ c : Byte, exec (.rspCheck c) State.reset =
    .next { State.reset with err := .unknownCommand })

/-- R240, R214: the reset event sets every piece of the block's state to its reset value in one event
and abandons a pending command with none of its writes; the parameter BUF_BYTES and the host's own
state stay (log entry 14). -/
def Obligations.ResetEventResetsTheBlock : Prop :=
  ∀ s : State, hostStep .assertReset s = .next
    { State.reset with
      bufBytes := s.bufBytes
      draws := s.draws
      hostProg := s.hostProg
      hostPc := s.hostPc + 1
      lastStatus := s.lastStatus
      hostReads := s.hostReads }
end

