-- ==== Sys2Proof/Laws/Assembler.lean ====
section
/-! SUPPORT. What each operand form of the assembler accepts (R98), said once: the commands whose operands are exactly the numbers written and fit their fields. -/

namespace Sys2Proof.Machine

theorem fitInstr_ok_iff {i j : Instr} : fitInstr i = .ok j ↔ i.wf = true ∧ j = i := by
  unfold fitInstr
  cases i.wf <;> simp [eq_comm]

theorem fitInstr_tooLarge {i : Instr} (h : i.wf = false) : fitInstr i = .error .doesNotFit := by
  simp [fitInstr, h]

theorem fitByte_ok_iff {n : Nat} {mk : Byte → Instr} {j : Instr} :
    fitByte n mk = .ok j ↔ ∃ d : Byte, n = d.toNat ∧ j = mk d := by
  unfold fitByte
  by_cases hn : n < 256
  · rw [if_pos hn]
    constructor
    · intro h
      cases h
      exact ⟨BitVec.ofNat 8 n, by simp; omega, rfl⟩
    · rintro ⟨d, rfl, rfl⟩
      simp
  · rw [if_neg hn]
    constructor
    · nofun
    · rintro ⟨d, rfl, -⟩
      exact absurd d.isLt hn

theorem noOperand_ok_iff {ops : List AsmOperand} {i j : Instr} :
    noOperand ops i = .ok j ↔ ops = [] ∧ j = i := by
  unfold noOperand
  split <;> simp_all [eq_comm]

theorem byteOperand_ok_iff {ops : List AsmOperand} {mk : Byte → Instr} {j : Instr} :
    byteOperand ops mk = .ok j ↔ ∃ d : Byte, ops = [.num d.toNat] ∧ j = mk d := by
  unfold byteOperand
  split
  · simp [fitByte_ok_iff]
  · constructor
    · nofun
    · rintro ⟨d, rfl, -⟩
      simp_all

theorem crcRxOperand_ok_iff {ops : List AsmOperand} {j : Instr} :
    crcRxOperand ops = .ok j ↔
      ∃ n, ops = [.num n] ∧ (Instr.crcRx n).wf = true ∧ j = .crcRx n := by
  unfold crcRxOperand
  split
  · simp [fitInstr_ok_iff]
  · constructor
    · nofun
    · rintro ⟨n, rfl, -⟩
      simp_all

theorem frmEncOperands_ok_iff {ops : List AsmOperand} {j : Instr} :
    frmEncOperands ops = .ok j ↔
      ∃ (c : Byte) (p : Nat), ops = [.num c.toNat, .num p] ∧ (Instr.frmEnc c p).wf = true ∧
        j = .frmEnc c p := by
  unfold frmEncOperands
  split
  · rename_i c p
    by_cases hc : c < 256
    · rw [if_pos hc, fitInstr_ok_iff]
      constructor
      · rintro ⟨hw, rfl⟩
        exact ⟨BitVec.ofNat 8 c, p, by simp; omega, hw, rfl⟩
      · rintro ⟨d, q, h, hw, rfl⟩
        cases h
        simpa using hw
    · rw [if_neg hc]
      constructor
      · nofun
      · rintro ⟨d, q, h, -⟩
        cases h
        exact absurd d.isLt hc
  · constructor
    · nofun
    · rintro ⟨d, q, rfl, -⟩
      simp_all

theorem fieldOperand_ok_iff {ops : List AsmOperand} {mk : Bool → Nat → Instr} {j : Instr} :
    fieldOperand ops mk = .ok j ↔
      ∃ (rel : Bool) (off : Nat), ops = [if rel then .recPlus off else .num off] ∧
        (mk rel off).wf = true ∧ j = mk rel off := by
  unfold fieldOperand
  split
  · simp [fitInstr_ok_iff]
  · simp [fitInstr_ok_iff]
  · rename_i h0 h1
    constructor
    · nofun
    · rintro ⟨rel, off, rfl, -⟩
      cases rel <;> simp_all

end Sys2Proof.Machine
end

