-- ==== Sys2Proof/Laws/Bits.lean ====
section
/-! SUPPORT. The bit fields of a command word and the little-endian assembly of bytes, as numbers and as fields, said once. -/

namespace Sys2Proof

theorem packWord_toNat (op imm : Byte) (off : Nat) :
    (packWord op imm off).toNat = off % 65536 * 65536 + imm.toNat * 256 + op.toNat := by
  have h : (packWord op imm off).toNat
      = ((BitVec.ofNat 16 off ++ imm).toNat <<< 8) ||| op.toNat :=
    BitVec.toNat_append _ _
  have h2 : (BitVec.ofNat 16 off ++ imm).toNat = (BitVec.ofNat 16 off).toNat <<< 8 ||| imm.toNat :=
    BitVec.toNat_append _ _
  rw [h, h2, ← Nat.shiftLeft_add_eq_or_of_lt imm.isLt, ← Nat.shiftLeft_add_eq_or_of_lt op.isLt,
    Nat.shiftLeft_eq, Nat.shiftLeft_eq, BitVec.toNat_ofNat]
  omega

theorem wordOp_toNat (w : Word) : (wordOp w).toNat = w.toNat % 256 := by
  simp [wordOp]

theorem wordImm_toNat (w : Word) : (wordImm w).toNat = w.toNat / 256 % 256 := by
  simp [wordImm, Nat.shiftRight_eq_div_pow]

theorem wordOff_toNat (w : Word) : (wordOff w).toNat = w.toNat / 65536 := by
  simp [wordOff, Nat.shiftRight_eq_div_pow]
  omega

@[simp] theorem wordOp_packWord (op imm : Byte) (off : Nat) : wordOp (packWord op imm off) = op := by
  apply BitVec.eq_of_toNat_eq
  rw [wordOp_toNat, packWord_toNat]
  omega

@[simp] theorem wordImm_packWord (op imm : Byte) (off : Nat) :
    wordImm (packWord op imm off) = imm := by
  apply BitVec.eq_of_toNat_eq
  rw [wordImm_toNat, packWord_toNat]
  omega

@[simp] theorem wordOff_packWord (op imm : Byte) (off : Nat) :
    wordOff (packWord op imm off) = BitVec.ofNat 16 off := by
  apply BitVec.eq_of_toNat_eq
  rw [wordOff_toNat, packWord_toNat, BitVec.toNat_ofNat]
  omega

/-- A word is its three fields. -/
theorem packWord_fields (w : Word) : packWord (wordOp w) (wordImm w) (wordOff w).toNat = w := by
  apply BitVec.eq_of_toNat_eq
  rw [packWord_toNat, wordOp_toNat, wordImm_toNat, wordOff_toNat]
  omega

/-- Bitwise AND of two words, field by field. -/
theorem packWord_and (op imm mop mimm : Byte) (off moff : Half) :
    packWord op imm off.toNat &&& packWord mop mimm moff.toNat
      = packWord (op &&& mop) (imm &&& mimm) (off &&& moff).toNat := by
  unfold packWord
  simp only [BitVec.ofNat_toNat, BitVec.setWidth_eq]
  apply BitVec.eq_of_getLsbD_eq
  intro k hk
  have bit : ∀ (x : Half) (y z : Byte), (x ++ y ++ z : Word).getLsbD k
      = if k < 8 then z.getLsbD k else if k - 8 < 8 then y.getLsbD (k - 8)
        else x.getLsbD (k - 8 - 8) := by
    intro x y z
    have h : (x ++ y ++ z : Word).getLsbD k = ((x ++ y) ++ z : BitVec (16 + 8 + 8)).getLsbD k := rfl
    rw [h, BitVec.getLsbD_append]
    split
    · rfl
    · rw [BitVec.getLsbD_append]
  rw [BitVec.getLsbD_and, bit, bit, bit]
  split
  · simp
  · split <;> simp

/-- Two words are equal exactly when their fields are. -/
theorem packWord_inj (op imm op' imm' : Byte) (off off' : Half) :
    packWord op imm off.toNat = packWord op' imm' off'.toNat ↔
      op = op' ∧ imm = imm' ∧ off = off' := by
  constructor
  · intro h
    have h1 := congrArg wordOp h
    have h2 := congrArg wordImm h
    have h3 := congrArg wordOff h
    simp at h1 h2 h3
    exact ⟨h1, h2, h3⟩
  · rintro ⟨rfl, rfl, rfl⟩
    rfl

/-- A word fits a row exactly when each of its fields does. -/
theorem fits_iff (w : Word) (r : Word × Word) :
    w &&& r.1 = r.2 ↔ wordOp w &&& wordOp r.1 = wordOp r.2 ∧
      wordImm w &&& wordImm r.1 = wordImm r.2 ∧ wordOff w &&& wordOff r.1 = wordOff r.2 := by
  conv_lhs =>
    rw [← packWord_fields w, ← packWord_fields r.1, ← packWord_fields r.2, packWord_and,
      packWord_inj]

theorem decode_eq_some_iff {w : Word} {i : Instr} : decode w = some i ↔ decodeWord w = .ok i := by
  unfold decode
  cases decodeWord w <;> simp [Except.toOption]

/-- An OP byte names an opcode exactly when it is that opcode's byte. -/
theorem opName_eq_some_iff (op : Byte) (o : OpName) : opName op = some o ↔ op = opByte o := by
  constructor
  · intro h
    have hb := List.find?_some h
    exact (eq_of_beq hb).symm
  · rintro rfl
    cases o <;> decide

@[simp] theorem opName_opByte (o : OpName) : opName (opByte o) = some o :=
  (opName_eq_some_iff _ _).mpr rfl

theorem opName_eq_none_iff (op : Byte) : opName op = none ↔ ∀ o, op ≠ opByte o := by
  constructor
  · intro h o ho
    rw [(opName_eq_some_iff op o).mpr ho] at h
    cases h
  · intro h
    cases hn : opName op with
    | none => rfl
    | some o => exact absurd ((opName_eq_some_iff op o).mp hn) (h o)

/-- A word decodes exactly when its OP names an opcode and that opcode's reserved bits are 0. -/
theorem decodeWord_ok_iff {w : Word} {i : Instr} :
    decodeWord w = .ok i ↔ ∃ o, wordOp w = opByte o ∧
      reservedClear o (wordImm w) (wordOff w) = true ∧
      commandOf o (wordImm w) (wordOff w) = i := by
  unfold decodeWord
  constructor
  · intro h
    cases hn : opName (wordOp w) with
    | none => simp [hn] at h
    | some o =>
      simp only [hn] at h
      split at h
      · rename_i hr
        exact ⟨o, (opName_eq_some_iff _ _).mp hn, hr, by simpa using h⟩
      · cases h
  · rintro ⟨o, ho, hr, rfl⟩
    simp [(opName_eq_some_iff _ _).mpr ho, hr]

/-- Decoding a packed word, field by field. -/
theorem decode_packWord (o : OpName) (imm : Byte) (off : Nat)
    (h : reservedClear o imm (BitVec.ofNat 16 off) = true) :
    decode (packWord (opByte o) imm off) = some (commandOf o imm (BitVec.ofNat 16 off)) := by
  rw [decode_eq_some_iff, decodeWord_ok_iff]
  exact ⟨o, by simp, by simpa using h, by simp⟩

@[simp] theorem flagImm_bit0 (b : Bool) : (flagImm b).getLsbD 0 = b := by
  cases b <;> decide

@[simp] theorem onlyBit0_flagImm (b : Bool) : onlyBit0 (flagImm b) = true := by
  cases b <;> decide

/-- An IMM8 whose upper seven bits are 0 is its flag. -/
theorem flagImm_of_onlyBit0 (imm : Byte) (h : onlyBit0 imm = true) :
    flagImm (imm.getLsbD 0) = imm := by
  revert h
  revert imm
  decide

/-- The four bytes of a word, put together again. -/
theorem bytesToWord_bytes (w : Word) :
    bytesToWord (w.extractLsb' 0 8) (w.extractLsb' 8 8) (w.extractLsb' 16 8) (w.extractLsb' 24 8)
      = w := by
  apply BitVec.eq_of_toNat_eq
  have h : ∀ a b c d : Byte, (bytesToWord a b c d).toNat
      = d.toNat * 16777216 + c.toNat * 65536 + b.toNat * 256 + a.toNat := by
    intro a b c d
    have h1 : (bytesToWord a b c d).toNat = ((d ++ c ++ b).toNat <<< 8) ||| a.toNat :=
      BitVec.toNat_append _ _
    have h2 : (d ++ c ++ b).toNat = ((d ++ c).toNat <<< 8) ||| b.toNat := BitVec.toNat_append _ _
    have h3 : (d ++ c).toNat = (d.toNat <<< 8) ||| c.toNat := BitVec.toNat_append _ _
    rw [h1, h2, h3, ← Nat.shiftLeft_add_eq_or_of_lt c.isLt, ← Nat.shiftLeft_add_eq_or_of_lt b.isLt,
      ← Nat.shiftLeft_add_eq_or_of_lt a.isLt]
    simp only [Nat.shiftLeft_eq]
    omega
  rw [h]
  simp only [BitVec.extractLsb'_toNat, Nat.shiftRight_eq_div_pow]
  omega

end Sys2Proof

namespace Sys2Proof.Machine

theorem le16_toNat (b0 b1 : Byte) : (le16 b0 b1).toNat = b0.toNat + 256 * b1.toNat := by
  have h : (le16 b0 b1).toNat = (b1.toNat <<< 8) ||| b0.toNat := BitVec.toNat_append _ _
  rw [h, ← Nat.shiftLeft_add_eq_or_of_lt b0.isLt, Nat.shiftLeft_eq]
  omega

theorem le32_toNat (b0 b1 b2 b3 : Byte) :
    (le32 b0 b1 b2 b3).toNat
      = b0.toNat + 256 * b1.toNat + 65536 * b2.toNat + 16777216 * b3.toNat := by
  have h1 : (le32 b0 b1 b2 b3).toNat = ((b3 ++ b2 ++ b1).toNat <<< 8) ||| b0.toNat :=
    BitVec.toNat_append _ _
  have h2 : (b3 ++ b2 ++ b1).toNat = ((b3 ++ b2).toNat <<< 8) ||| b1.toNat :=
    BitVec.toNat_append _ _
  have h3 : (b3 ++ b2).toNat = (b3.toNat <<< 8) ||| b2.toNat := BitVec.toNat_append _ _
  rw [h1, h2, h3, ← Nat.shiftLeft_add_eq_or_of_lt b2.isLt, ← Nat.shiftLeft_add_eq_or_of_lt b1.isLt,
    ← Nat.shiftLeft_add_eq_or_of_lt b0.isLt]
  simp only [Nat.shiftLeft_eq]
  omega

theorem zext8_toNat (b : Byte) : (zext8 b).toNat = b.toNat := by
  simp [zext8, BitVec.toNat_setWidth]
  omega

theorem zext16_toNat (h : Half) : (zext16 h).toNat = h.toNat := by
  simp [zext16, BitVec.toNat_setWidth]
  omega

theorem yearOf_toNat (b : Byte) : (yearOf b).toNat = b.toNat + 2000 := by
  have := b.isLt
  rw [yearOf, BitVec.toNat_add, zext8_toNat]
  simp
  omega

end Sys2Proof.Machine
end

