-- ==== Sys2Proof/Laws/Memory.lean ====
section
/-! SUPPORT. The laws of sparse lists, buffers and the catalog: a read after a write gives the value written, a write leaves every other place alone, and every operation keeps the canonical form. -/

namespace Sys2Proof.Machine

variable {α : Type}

@[simp] theorem sparseGet_sparsePut_same (m : List (Nat × α)) (a : Nat) (v : α) :
    sparseGet (sparsePut m a v) a = some v := by
  induction m with
  | nil => simp [sparsePut, sparseGet]
  | cons c rest ih =>
    obtain ⟨k, w⟩ := c
    simp only [sparsePut]
    split
    · simp [sparseGet]
    · split
      · simp [sparseGet]
      · rename_i h
        simp [sparseGet, h, ih]

theorem sparseGet_sparsePut_other (m : List (Nat × α)) {a b : Nat} (v : α) (h : b ≠ a) :
    sparseGet (sparsePut m a v) b = sparseGet m b := by
  induction m with
  | nil => simp [sparsePut, sparseGet, h]
  | cons c rest ih =>
    obtain ⟨k, w⟩ := c
    simp only [sparsePut]
    split
    · simp [sparseGet, h]
    · split
      · rename_i hk
        simp [sparseGet, h, ← hk]
      · simp [sparseGet, ih]

/-- A key below a rising list is not in it. -/
theorem sparseGet_below {m : List (Nat × α)} {lo a : Nat} (hm : sparseRising lo m = true)
    (h : a < lo) : sparseGet m a = none := by
  induction m generalizing lo with
  | nil => rfl
  | cons c rest ih =>
    obtain ⟨k, w⟩ := c
    simp only [sparseRising, Bool.and_eq_true, decide_eq_true_eq] at hm
    have hk : a ≠ k := by omega
    simp [sparseGet, hk, ih hm.2 (by omega)]

theorem sparseRising_mono {m : List (Nat × α)} {lo hi : Nat} (hm : sparseRising hi m = true)
    (h : lo ≤ hi) : sparseRising lo m = true := by
  cases m with
  | nil => rfl
  | cons c rest =>
    obtain ⟨k, w⟩ := c
    simp only [sparseRising, Bool.and_eq_true, decide_eq_true_eq] at hm ⊢
    exact ⟨by omega, hm.2⟩

theorem sparseRising_sparsePut {m : List (Nat × α)} {lo a : Nat} (v : α)
    (hm : sparseRising lo m = true) (h : lo ≤ a) : sparseRising lo (sparsePut m a v) = true := by
  induction m generalizing lo with
  | nil => simp [sparsePut, sparseRising, h]
  | cons c rest ih =>
    obtain ⟨k, w⟩ := c
    simp only [sparseRising, Bool.and_eq_true, decide_eq_true_eq] at hm
    simp only [sparsePut]
    split
    · simp only [sparseRising, Bool.and_eq_true, decide_eq_true_eq]
      exact ⟨h, by omega, hm.2⟩
    · split
      · rename_i hk
        simp only [sparseRising, Bool.and_eq_true, decide_eq_true_eq]
        exact ⟨h, hk ▸ hm.2⟩
      · simp only [sparseRising, Bool.and_eq_true, decide_eq_true_eq]
        exact ⟨hm.1, ih hm.2 (by omega)⟩

theorem sparseRising_sparseErase {m : List (Nat × α)} {lo : Nat} (a : Nat)
    (hm : sparseRising lo m = true) : sparseRising lo (sparseErase m a) = true := by
  induction m generalizing lo with
  | nil => rfl
  | cons c rest ih =>
    obtain ⟨k, w⟩ := c
    simp only [sparseRising, Bool.and_eq_true, decide_eq_true_eq] at hm
    simp only [sparseErase]
    split
    · exact sparseRising_mono hm.2 (by omega)
    · simp only [sparseRising, Bool.and_eq_true, decide_eq_true_eq]
      exact ⟨hm.1, ih hm.2⟩

theorem sparseGet_sparseErase_same {m : List (Nat × α)} {lo : Nat} (a : Nat)
    (hm : sparseRising lo m = true) : sparseGet (sparseErase m a) a = none := by
  induction m generalizing lo with
  | nil => rfl
  | cons c rest ih =>
    obtain ⟨k, w⟩ := c
    simp only [sparseRising, Bool.and_eq_true, decide_eq_true_eq] at hm
    simp only [sparseErase]
    split
    · exact sparseGet_below hm.2 (by omega)
    · rename_i h
      simp [sparseGet, h, ih hm.2]

theorem sparseGet_sparseErase_other (m : List (Nat × α)) {a b : Nat} (h : b ≠ a) :
    sparseGet (sparseErase m a) b = sparseGet m b := by
  induction m with
  | nil => rfl
  | cons c rest ih =>
    obtain ⟨k, w⟩ := c
    simp only [sparseErase]
    split
    · rename_i hk
      simp [sparseGet, ← hk, h]
    · simp [sparseGet, ih]

theorem all_sparsePut {m : List (Nat × α)} {p : Nat × α → Bool} {a : Nat} {v : α}
    (hm : m.all p = true) (hv : p (a, v) = true) : (sparsePut m a v).all p = true := by
  induction m with
  | nil => simp [sparsePut, hv]
  | cons c rest ih =>
    obtain ⟨k, w⟩ := c
    simp only [List.all_cons, Bool.and_eq_true] at hm
    simp only [sparsePut]
    split
    · simp only [List.all_cons, Bool.and_eq_true]
      exact ⟨hv, hm.1, hm.2⟩
    · split
      · simp only [List.all_cons, Bool.and_eq_true]
        exact ⟨hv, hm.2⟩
      · simp only [List.all_cons, Bool.and_eq_true]
        exact ⟨hm.1, ih hm.2⟩

theorem all_sparseErase {m : List (Nat × α)} {p : Nat × α → Bool} (a : Nat)
    (hm : m.all p = true) : (sparseErase m a).all p = true := by
  induction m with
  | nil => rfl
  | cons c rest ih =>
    obtain ⟨k, w⟩ := c
    simp only [List.all_cons, Bool.and_eq_true] at hm
    simp only [sparseErase]
    split
    · exact hm.2
    · simp only [List.all_cons, Bool.and_eq_true]
      exact ⟨hm.1, ih hm.2⟩

/-! Buffers. -/

theorem memGet_eq (m : Memory) (i : Nat) : memGet m i = sparseGet m i := by
  unfold memGet unwrittenByte
  cases sparseGet m i <;> rfl

theorem memGet_memPut_same (m : Memory) (i : Nat) (v : Byte) :
    memGet (memPut m i v) i = some v := by
  simp [memPut, memGet_eq]

theorem memGet_memPut_other (m : Memory) {i j : Nat} (v : Byte) (h : j ≠ i) :
    memGet (memPut m i v) j = memGet m j := by
  simp [memPut, memGet_eq, sparseGet_sparsePut_other m v h]

theorem memPut_wf {m : Memory} (i : Nat) (v : Byte) (hm : Memory.wf m = true) :
    Memory.wf (memPut m i v) = true :=
  sparseRising_sparsePut v hm (Nat.zero_le _)

theorem memPut_within {m : Memory} {cap i : Nat} (v : Byte) (hm : Memory.within m cap = true)
    (h : i < cap) : Memory.within (memPut m i v) cap = true :=
  all_sparsePut hm (by simpa using h)

theorem memPutAll_wf (vs : List Byte) {m : Memory} (i : Nat) (hm : Memory.wf m = true) :
    Memory.wf (memPutAll m i vs) = true := by
  induction vs generalizing m i with
  | nil => exact hm
  | cons v vs ih => exact ih (i + 1) (memPut_wf i v hm)

theorem memPutAll_within (vs : List Byte) {m : Memory} {cap i : Nat}
    (hm : Memory.within m cap = true) (h : i + vs.length ≤ cap) :
    Memory.within (memPutAll m i vs) cap = true := by
  induction vs generalizing m i with
  | nil => exact hm
  | cons v vs ih =>
    simp only [List.length_cons] at h
    exact ih (memPut_within v hm (by omega)) (by omega)

/-- A byte outside the bytes written keeps what it held. -/
theorem memGet_memPutAll_outside (vs : List Byte) (m : Memory) {i j : Nat}
    (h : j < i ∨ i + vs.length ≤ j) : memGet (memPutAll m i vs) j = memGet m j := by
  induction vs generalizing m i with
  | nil => rfl
  | cons v vs ih =>
    simp only [List.length_cons] at h
    rw [memPutAll, ih _ (by omega), memGet_memPut_other _ _ (by omega)]

/-- A byte of the bytes written reads as written. -/
theorem memGet_memPutAll_inside (vs : List Byte) (m : Memory) {i k : Nat} (h : k < vs.length) :
    memGet (memPutAll m i vs) (i + k) = vs[k]? := by
  induction vs generalizing m i k with
  | nil => simp at h
  | cons v vs ih =>
    cases k with
    | zero =>
      rw [memPutAll, memGet_memPutAll_outside _ _ (by omega)]
      simp [memPut, memGet_eq]
    | succ k =>
      have hk : k < vs.length := by simpa using h
      have hi : i + (k + 1) = (i + 1) + k := by omega
      rw [memPutAll, hi, ih _ hk]
      simp

/-- Two buffers in canonical form that read alike are the same data. -/
theorem sparse_ext {m m' : List (Nat × α)} {lo : Nat} (hm : sparseRising lo m = true)
    (hm' : sparseRising lo m' = true) (h : ∀ a, sparseGet m a = sparseGet m' a) : m = m' := by
  induction m generalizing m' lo with
  | nil =>
    cases m' with
    | nil => rfl
    | cons c rest =>
      obtain ⟨k, w⟩ := c
      simpa [sparseGet] using h k
  | cons c rest ih =>
    obtain ⟨k, w⟩ := c
    simp only [sparseRising, Bool.and_eq_true, decide_eq_true_eq] at hm
    cases m' with
    | nil => simpa [sparseGet] using h k
    | cons c' rest' =>
      obtain ⟨k', w'⟩ := c'
      simp only [sparseRising, Bool.and_eq_true, decide_eq_true_eq] at hm'
      have hkk : k = k' := by
        rcases Nat.lt_trichotomy k k' with hlt | heq | hgt
        · have h0 := h k
          have hb : sparseGet rest' k = none := sparseGet_below hm'.2 (by omega)
          simp [sparseGet, hb, show k ≠ k' by omega] at h0
        · exact heq
        · have h0 := h k'
          have hb : sparseGet rest k' = none := sparseGet_below hm.2 (by omega)
          simp [sparseGet, hb, show k' ≠ k by omega] at h0
      subst hkk
      have hw : w = w' := by simpa [sparseGet] using h k
      subst hw
      have hrest : rest = rest' := by
        refine ih hm.2 hm'.2 fun a => ?_
        by_cases ha : a = k
        · subst ha
          rw [sparseGet_below hm.2 (by omega), sparseGet_below hm'.2 (by omega)]
        · simpa [sparseGet, ha] using h a
      rw [hrest]

/-! The catalog. -/

theorem Catalog.wf_rising {m : Catalog} (hm : Catalog.wf m = true) : sparseRising 0 m = true := by
  simp only [Catalog.wf, Bool.and_eq_true] at hm
  exact hm.1

theorem catPut_wf {m : Catalog} {c : Nat} (e : CatEntry) (hm : Catalog.wf m = true)
    (h : c < 256) : Catalog.wf (catPut m c e) = true := by
  simp only [Catalog.wf, Bool.and_eq_true] at hm ⊢
  unfold catPut
  split
  · exact ⟨sparseRising_sparseErase c hm.1, all_sparseErase c hm.2⟩
  · rename_i he
    exact ⟨sparseRising_sparsePut e hm.1 (Nat.zero_le _), all_sparsePut hm.2 (by simp [h, he])⟩

theorem catGet_catPut_same {m : Catalog} (c : Nat) (e : CatEntry) (hm : Catalog.wf m = true) :
    catGet (catPut m c e) c = e := by
  unfold catGet catPut
  split
  · rename_i he
    rw [sparseGet_sparseErase_same c (Catalog.wf_rising hm), he]
    rfl
  · simp

theorem catGet_catPut_other (m : Catalog) {c d : Nat} (e : CatEntry) (h : d ≠ c) :
    catGet (catPut m c e) d = catGet m d := by
  unfold catGet catPut
  split
  · rw [sparseGet_sparseErase_other m h]
  · rw [sparseGet_sparsePut_other m e h]

/-! After reset. -/

theorem reset_txbuf_wf : Memory.wf State.reset.txbuf = true := rfl
theorem reset_rxbuf_wf : Memory.wf State.reset.rxbuf = true := rfl
theorem reset_strbuf_wf : Memory.wf State.reset.strbuf = true := rfl
theorem reset_cat_wf : Catalog.wf State.reset.cat = true := rfl

end Sys2Proof.Machine
end

