-- ==== Sys2Proof/Laws/Ops.lean ====
section
/-! SUPPORT. What the shared operations can do, said once: byte and range reads, the lenient read b(i), and the outcome of a command. -/

namespace Sys2Proof.Machine

/-! Reads that may fault. -/

@[simp] theorem except_ok_bind {ε α β : Type} (a : α) (f : α → Except ε β) :
    (Except.ok a >>= f) = f a := rfl

@[simp] theorem except_error_bind {ε α β : Type} (e : ε) (f : α → Except ε β) :
    ((Except.error e : Except ε α) >>= f) = Except.error e := rfl

@[simp] theorem except_pure {ε α : Type} (a : α) : (pure a : Except ε α) = Except.ok a := rfl

theorem bind_ok_iff {ε α β : Type} {x : Except ε α} {f : α → Except ε β} {b : β} :
    (x >>= f) = Except.ok b ↔ ∃ a, x = Except.ok a ∧ f a = Except.ok b := by
  cases x <;> simp

theorem bind_error_iff {ε α β : Type} {x : Except ε α} {f : α → Except ε β} {e : ε} :
    (x >>= f) = Except.error e ↔
      x = Except.error e ∨ ∃ a, x = Except.ok a ∧ f a = Except.error e := by
  cases x <;> simp

theorem readByte_ok_iff {b : BufferId} {m : Memory} {i : Nat} {v : Byte} :
    readByte b m i = .ok v ↔ memGet m i = some v := by
  unfold readByte
  cases memGet m i <;> simp

theorem readByte_error_iff {b : BufferId} {m : Memory} {i : Nat} {f : Fault} :
    readByte b m i = .error f ↔ memGet m i = none ∧ f = .unwrittenRead b i := by
  unfold readByte
  cases memGet m i <;> simp [eq_comm]

/-- A range reads as a list exactly when every byte of it is written, in order. -/
theorem readRange_ok_iff {b : BufferId} {m : Memory} {i n : Nat} {vs : List Byte} :
    readRange b m i n = .ok vs ↔ vs.length = n ∧ ∀ k, k < n → memGet m (i + k) = vs[k]? := by
  induction n generalizing i vs with
  | zero => cases vs <;> simp [readRange]
  | succ n ih =>
    simp only [readRange, bind_ok_iff, readByte_ok_iff, except_pure, ih]
    constructor
    · rintro ⟨v, hv, ws, ⟨hlen, hws⟩, hcons⟩
      obtain rfl : v :: ws = vs := by simpa using hcons
      refine ⟨by simp [hlen], fun k hk => ?_⟩
      cases k with
      | zero => simpa using hv
      | succ k =>
        have := hws k (by omega)
        rw [show i + (k + 1) = i + 1 + k by omega, this]
        simp
    · rintro ⟨hlen, hall⟩
      cases vs with
      | nil => simp at hlen
      | cons v ws =>
        have h0 := hall 0 (by omega)
        refine ⟨v, by simpa using h0, ws, ⟨by simpa using hlen, fun k hk => ?_⟩, rfl⟩
        have h1 := hall (k + 1) (by omega)
        rw [show i + 1 + k = i + (k + 1) by omega, h1]
        simp

/-- A range read faults exactly on the lowest unwritten byte of the range. -/
theorem readRange_error_iff {b : BufferId} {m : Memory} {i n : Nat} {f : Fault} :
    readRange b m i n = .error f ↔ ∃ k, k < n ∧ memGet m (i + k) = none ∧
      (∀ j, j < k → (memGet m (i + j)).isSome = true) ∧ f = .unwrittenRead b (i + k) := by
  induction n generalizing i with
  | zero => simp [readRange]
  | succ n ih =>
    simp only [readRange, bind_error_iff, readByte_error_iff, readByte_ok_iff, except_pure, ih]
    constructor
    · rintro (⟨h0, hf⟩ | ⟨v, hv, h⟩)
      · exact ⟨0, by omega, by simpa using h0, fun j hj => absurd hj (by omega), by simpa using hf⟩
      · rcases h with ⟨k, hk, hnone, hbelow, hf⟩ | ⟨ws, _, hbad⟩
        · refine ⟨k + 1, by omega, ?_, fun j hj => ?_, ?_⟩
          · rw [show i + (k + 1) = i + 1 + k by omega]; exact hnone
          · cases j with
            | zero => simp [hv]
            | succ j =>
              rw [show i + (j + 1) = i + 1 + j by omega]
              exact hbelow j (by omega)
          · rw [show i + (k + 1) = i + 1 + k by omega]; exact hf
        · simp at hbad
    · rintro ⟨k, hk, hnone, hbelow, hf⟩
      cases k with
      | zero => exact .inl ⟨by simpa using hnone, by simpa using hf⟩
      | succ k =>
        obtain ⟨v, hv⟩ := Option.isSome_iff_exists.mp (hbelow 0 (by omega))
        refine .inr ⟨v, by simpa using hv, .inl ⟨k, by omega, ?_, fun j hj => ?_, ?_⟩⟩
        · rw [show i + 1 + k = i + (k + 1) by omega]; exact hnone
        · rw [show i + 1 + j = i + (j + 1) by omega]; exact hbelow (j + 1) (by omega)
        · rw [show i + 1 + k = i + (k + 1) by omega]; exact hf

/-- b(i) (R150): the byte below RXLEN, 0 at or past it. -/
theorem lenient_ok_iff {s : State} {i : Nat} {v : Byte} :
    lenient s i = .ok v ↔
      (i < s.rxlen.toNat ∧ memGet s.rxbuf i = some v) ∨ (s.rxlen.toNat ≤ i ∧ v = 0) := by
  unfold lenient
  split
  · rename_i h
    simp [readByte_ok_iff, h, Nat.not_le.mpr h]
  · rename_i h
    simp only [h, Nat.not_lt.mp h, false_and, true_and, false_or, Except.ok.injEq]
    exact eq_comm

theorem lenient_error_iff {s : State} {i : Nat} {f : Fault} :
    lenient s i = .error f ↔
      i < s.rxlen.toNat ∧ memGet s.rxbuf i = none ∧ f = .unwrittenRead .rx i := by
  unfold lenient
  split
  · rename_i h
    simp [readByte_error_iff, h]
  · rename_i h
    simp [h]

theorem lenientRange_ok_iff {s : State} {i n : Nat} {vs : List Byte} :
    lenientRange s i n = .ok vs ↔
      vs.length = n ∧ ∀ k (v : Byte), vs[k]? = some v → lenient s (i + k) = .ok v := by
  induction n generalizing i vs with
  | zero => cases vs <;> simp [lenientRange]
  | succ n ih =>
    simp only [lenientRange, bind_ok_iff, except_pure, ih]
    constructor
    · rintro ⟨v, hv, ws, ⟨hlen, hws⟩, hcons⟩
      obtain rfl : v :: ws = vs := by simpa using hcons
      refine ⟨by simp [hlen], fun k w hk => ?_⟩
      cases k with
      | zero =>
        obtain rfl : v = w := by simpa using hk
        simpa using hv
      | succ k =>
        rw [show i + (k + 1) = i + 1 + k by omega]
        exact hws k w (by simpa using hk)
    · rintro ⟨hlen, hall⟩
      cases vs with
      | nil => simp at hlen
      | cons v ws =>
        refine ⟨v, by simpa using hall 0 v (by simp), ws, ⟨by simpa using hlen, fun k w hk => ?_⟩,
          rfl⟩
        rw [show i + 1 + k = i + (k + 1) by omega]
        exact hall (k + 1) w (by simpa using hk)

theorem lenientRange_error {s : State} {i n : Nat} {f : Fault}
    (h : lenientRange s i n = .error f) :
    ∃ k, i ≤ k ∧ k < i + n ∧ k < s.rxlen.toNat ∧ memGet s.rxbuf k = none ∧
      f = .unwrittenRead .rx k := by
  induction n generalizing i with
  | zero => simp [lenientRange] at h
  | succ n ih =>
    simp only [lenientRange, bind_error_iff, except_pure] at h
    rcases h with h | ⟨v, _, h | ⟨ws, _, h⟩⟩
    · obtain ⟨h1, h2, h3⟩ := lenient_error_iff.mp h
      exact ⟨i, by omega, by omega, h1, h2, h3⟩
    · obtain ⟨k, h1, h2, h3⟩ := ih h
      exact ⟨k, by omega, by omega, h3⟩
    · simp at h

/-! Outcomes. -/

@[simp] theorem outcomeOf_ok (t : State) : outcomeOf (.ok t) = .next t := rfl

@[simp] theorem outcomeOf_error (f : Fault) : outcomeOf (.error f) = .fault f := rfl

theorem outcomeOf_next_iff {r : Except Fault State} {t : State} :
    outcomeOf r = .next t ↔ r = .ok t := by
  cases r <;> simp [outcomeOf]

theorem outcomeOf_fault_iff {r : Except Fault State} {f : Fault} :
    outcomeOf r = .fault f ↔ r = .error f := by
  cases r <;> simp [outcomeOf]

theorem outcomeOf_not_refused (r : Except Fault State) (q : Refusal) :
    outcomeOf r ≠ .refused q := by
  cases r <;> simp [outcomeOf]

end Sys2Proof.Machine
end

