-- ==== Sys2Proof/Laws/HostPort.lean ====
section
/-! SUPPORT. What the host port and the host's statements can do, said once. -/

namespace Sys2Proof.Machine

theorem busy_eq_true_iff (s : State) : busy s = true ↔ ∃ w, s.pending = some w := by
  simp [busy, Option.isSome_iff_exists]

theorem busy_eq_false_iff (s : State) : busy s = false ↔ s.pending = none := by
  simp [busy]

/-- Writing one byte of a window touches TXBUF or RXBUF alone, at that byte. -/
theorem hostPutByte_eq (b : BufferId) (i : Nat) (v : Byte) (s : State) :
    hostPutByte b i v s =
      { s with
        txbuf := if b = .tx ∧ i < s.bufBytes then memPut s.txbuf i v else s.txbuf
        rxbuf := if b = .rx ∧ i < s.bufBytes then memPut s.rxbuf i v else s.rxbuf } := by
  unfold hostPutByte
  by_cases h : i < s.bufBytes <;> cases b <;> simp [h]

/-- Writing a window touches TXBUF or RXBUF alone. -/
theorem hostPutBytes_eq (b : BufferId) (v : Word) (i k n : Nat) (s : State) :
    hostPutBytes b v i k n s =
      { s with
        txbuf := (hostPutBytes b v i k n s).txbuf
        rxbuf := (hostPutBytes b v i k n s).rxbuf } := by
  induction n generalizing i k s with
  | zero => rfl
  | succ n ih =>
    rw [hostPutBytes]
    have h := ih (i + 1) (k + 1) (hostPutByte b i (wordByte v k) s)
    rw [h, hostPutByte_eq]

/-- What TXBUF and RXBUF keep under a window write, once for both: any property of a buffer that
writing one of the buffer's own bytes keeps. -/
theorem hostPutBytes_keeps (p : Memory → Prop) (cap : Nat)
    (hp : ∀ m i v, p m → i < cap → p (memPut m i v)) (b : BufferId) (v : Word) (i k n : Nat)
    (s : State) (hcap : s.bufBytes = cap) :
    (p s.txbuf → p (hostPutBytes b v i k n s).txbuf) ∧
      (p s.rxbuf → p (hostPutBytes b v i k n s).rxbuf) := by
  induction n generalizing i k s with
  | zero => exact ⟨id, id⟩
  | succ n ih =>
    rw [hostPutBytes]
    have h := ih (i + 1) (k + 1) (hostPutByte b i (wordByte v k) s)
      (by rw [hostPutByte_eq]; exact hcap)
    refine ⟨fun ht => h.1 ?_, fun hr => h.2 ?_⟩
    · rw [hostPutByte_eq]
      dsimp only
      split
      · rename_i hc
        exact hp _ _ _ ht (hcap ▸ hc.2)
      · exact ht
    · rw [hostPutByte_eq]
      dsimp only
      split
      · rename_i hc
        exact hp _ _ _ hr (hcap ▸ hc.2)
      · exact hr

/-- What a byte reads after a window write (R65, R66): the datum's byte inside the bytes written
that the buffer has, the old byte elsewhere. -/
theorem memGet_hostPutBytes (b : BufferId) (v : Word) (i k n j : Nat) (s : State)
    (hb : b ≠ .str) :
    memGet (bufferOf b (hostPutBytes b v i k n s)) j =
      if i ≤ j ∧ j < i + n ∧ j < s.bufBytes then some (wordByte v (k + (j - i)))
      else memGet (bufferOf b s) j := by
  induction n generalizing i k s with
  | zero =>
    rw [hostPutBytes, if_neg (by omega)]
  | succ n ih =>
    rw [hostPutBytes, ih (i + 1) (k + 1) (hostPutByte b i (wordByte v k) s)]
    have hcap : (hostPutByte b i (wordByte v k) s).bufBytes = s.bufBytes := by
      rw [hostPutByte_eq]
    rw [hcap]
    by_cases h1 : i + 1 ≤ j ∧ j < i + 1 + n ∧ j < s.bufBytes
    · rw [if_pos h1, if_pos (by omega), show k + 1 + (j - (i + 1)) = k + (j - i) by omega]
    · rw [if_neg h1]
      by_cases hj : j = i
      · subst hj
        by_cases hc : j < s.bufBytes
        · rw [if_pos ⟨by omega, by omega, hc⟩, show k + (j - j) = k by omega, hostPutByte_eq]
          cases b <;> first | exact absurd rfl hb | simp [bufferOf, hc, memGet_memPut_same]
        · rw [if_neg (by omega), hostPutByte_eq]
          cases b <;> simp [bufferOf, hc]
      · rw [if_neg (by omega), hostPutByte_eq]
        cases b <;> simp only [bufferOf, true_and] <;>
          first | rfl | (split <;> first | rfl | exact memGet_memPut_other _ _ hj)

/-- A byte of a window is a datum, or it is a byte of the buffer that nothing has written. -/
theorem hostByte_cases (b : BufferId) (i : Nat) (s : State) :
    (∃ v, hostByte b i s = .ok v) ∨
    (i < s.bufBytes ∧ memGet (bufferOf b s) i = none ∧
      hostByte b i s = .error (.unwrittenRead b i)) := by
  unfold hostByte readByte
  by_cases hi : i < s.bufBytes
  · cases hm : memGet (bufferOf b s) i <;> simp [hi]
  · simp [hi]

/-- A read of a window gives a datum, all its bytes readable, or stops on the lowest of its bytes that
nothing has written (R53, R66, log entry 8). -/
theorem hostBytes_cases (b : BufferId) (i n : Nat) (s : State) :
    ((∃ v, hostBytes b i n s = .ok v) ∧ ∀ k, k < n → ∃ v, hostByte b (i + k) s = .ok v) ∨
    ∃ k, k < n ∧ (∀ j, j < k → ∃ v, hostByte b (i + j) s = .ok v) ∧ i + k < s.bufBytes ∧
      memGet (bufferOf b s) (i + k) = none ∧
      hostBytes b i n s = .error (.unwrittenRead b (i + k)) := by
  induction n generalizing i with
  | zero => exact .inl ⟨⟨0#32, rfl⟩, by simp⟩
  | succ n ih =>
    rw [hostBytes]
    obtain ⟨v, hv⟩ | ⟨hi, hm, he⟩ := hostByte_cases b i s
    · have first : ∀ k, (∀ j, j < k → ∃ w, hostByte b (i + 1 + j) s = .ok w) →
          ∀ j, j < k + 1 → ∃ w, hostByte b (i + j) s = .ok w := by
        rintro k h (_ | j) hj
        · exact ⟨v, hv⟩
        · rw [show i + (j + 1) = i + 1 + j by omega]
          exact h j (by omega)
      obtain ⟨⟨w, hw⟩, hall⟩ | ⟨k, hk, hall, hb, hm, he⟩ := ih (i + 1)
      · exact .inl ⟨⟨_, by rw [hv, hw]; rfl⟩, first n hall⟩
      · refine .inr ⟨k + 1, by omega, first k hall, ?_⟩
        rw [show i + (k + 1) = i + 1 + k by omega, hv, he]
        exact ⟨hb, hm, rfl⟩
    · exact .inr ⟨0, by omega, by simp, hi, hm, by rw [he]; rfl⟩

/-- A host write that is no fault does one of four things. -/
theorem hostWrite_ok_cases {a : HostAddr} {n : PortWidth} {v : Word} {s t : State}
    (h : hostWrite a n v s = .ok t) :
    (busy s = false ∨ writableWhileBusy (regionOf a.toNat) = true) ∧
    ((∃ r, regionOf a.toNat = .csr (some r) ∧ t = csrWrite r v s) ∨
     (∃ c k, regionOf a.toNat = .cat c k ∧
        t = { s with cat := catPut s.cat c (catSetWord (catGet s.cat c) k v) }) ∨
     (∃ b i, regionOf a.toNat = .buf b i ∧ t = hostPutBytes b v i 0 (widthBytes n) s) ∨
     t = s) := by
  unfold hostWrite at h
  split at h
  · simp at h
  · split at h
    · simp at h
    · rename_i hb
      refine ⟨by revert hb; cases busy s <;> simp, ?_⟩
      split at h <;> simp only [Except.ok.injEq] at h <;> subst h <;> simp_all

/-- A catalog address names one of the 256 entries. -/
theorem regionOf_cat_lt {a c k : Nat} (h : regionOf a = .cat c k) : c < 256 := by
  unfold regionOf at h
  repeat' split at h
  all_goals first | (cases h; done) | skip
  simp only [Region.cat.injEq] at h
  omega

/-- Whose move it is, said once (R47, R72). -/
theorem whoMoves_engine_iff {s : State} {w : Word} :
    whoMoves s = .engine w ↔
      s.pending = some w ∧ (hostNext s = none ∨ hostNext s = some .poll ∨ s.delay = 0) := by
  unfold whoMoves
  cases hp : s.pending with
  | none => cases hostNext s <;> simp
  | some w' =>
    cases hn : hostNext s with
    | none => simp
    | some st =>
      by_cases hc : s.delay = 0 ∨ st = .poll
      · simp only [hc, if_true, Move.engine.injEq, Option.some.injEq, reduceCtorEq, false_or]
        constructor
        · rintro rfl
          exact ⟨rfl, hc.symm⟩
        · exact fun h => h.1
      · simp only [hc, if_false, reduceCtorEq, Option.some.injEq, false_or, false_iff, not_and]
        intro _ h
        exact hc h.symm

theorem whoMoves_idle_iff {s : State} :
    whoMoves s = .idle ↔ s.pending = none ∧ hostNext s = none := by
  unfold whoMoves
  cases s.pending <;> cases hostNext s <;> simp
  split <;> simp

theorem whoMoves_host_iff {s : State} {st : HostStmt} :
    whoMoves s = .host st ↔ s.pending = none ∧ hostNext s = some st := by
  unfold whoMoves
  cases s.pending <;> cases hostNext s <;> simp
  split <;> simp

theorem whoMoves_hostFirst_iff {s : State} {st : HostStmt} :
    whoMoves s = .hostFirst st ↔
      busy s = true ∧ hostNext s = some st ∧ s.delay ≠ 0 ∧ st ≠ .poll := by
  unfold whoMoves busy
  cases s.pending with
  | none => cases hostNext s <;> simp
  | some w =>
    cases hostNext s with
    | none => simp
    | some st' =>
      by_cases hc : s.delay = 0 ∨ st' = .poll
      · simp only [hc, if_true, reduceCtorEq, Option.isSome_some, true_and, Option.some.injEq,
          false_iff, not_and, not_not]
        rintro rfl hd
        exact hc.resolve_left hd
      · simp only [hc, if_false, Move.hostFirst.injEq, Option.isSome_some, true_and,
          Option.some.injEq]
        rw [not_or] at hc
        constructor
        · rintro rfl
          exact ⟨rfl, hc⟩
        · exact fun h => h.1

end Sys2Proof.Machine
end

