-- ==== Sys2Proof/Laws/State.lean ====
section
/-! SUPPORT. For each named update of the state, one lemma per field: what the field holds after the update. A proof rewrites with these and unfolds no record update. -/

namespace Sys2Proof.Machine

/-! complete -/

@[simp] theorem complete_bufBytes (s : State) : (complete s).bufBytes = s.bufBytes := rfl
@[simp] theorem complete_strict (s : State) : (complete s).strict = s.strict := rfl
@[simp] theorem complete_ckok (s : State) : (complete s).ckok = s.ckok := rfl
@[simp] theorem complete_endFlag (s : State) : (complete s).endFlag = s.endFlag := rfl
@[simp] theorem complete_ovr (s : State) : (complete s).ovr = s.ovr := rfl
@[simp] theorem complete_err (s : State) : (complete s).err = .ok := rfl
@[simp] theorem complete_pending (s : State) : (complete s).pending = none := rfl
@[simp] theorem complete_arg (s : State) : (complete s).arg = s.arg := rfl
@[simp] theorem complete_crc (s : State) : (complete s).crc = s.crc := rfl
@[simp] theorem complete_devid (s : State) : (complete s).devid = s.devid := rfl
@[simp] theorem complete_txlen (s : State) : (complete s).txlen = s.txlen := rfl
@[simp] theorem complete_rxlen (s : State) : (complete s).rxlen = s.rxlen := rfl
@[simp] theorem complete_fDevid (s : State) : (complete s).fDevid = s.fDevid := rfl
@[simp] theorem complete_fCmd (s : State) : (complete s).fCmd = s.fCmd := rfl
@[simp] theorem complete_fPlen (s : State) : (complete s).fPlen = s.fPlen := rfl
@[simp] theorem complete_fCksum (s : State) : (complete s).fCksum = s.fCksum := rfl
@[simp] theorem complete_res0 (s : State) : (complete s).res0 = s.res0 := rfl
@[simp] theorem complete_res1 (s : State) : (complete s).res1 = s.res1 := rfl
@[simp] theorem complete_res2 (s : State) : (complete s).res2 = s.res2 := rfl
@[simp] theorem complete_res3 (s : State) : (complete s).res3 = s.res3 := rfl
@[simp] theorem complete_strlen (s : State) : (complete s).strlen = s.strlen := rfl
@[simp] theorem complete_catKind (s : State) : (complete s).catKind = s.catKind := rfl
@[simp] theorem complete_recW (s : State) : (complete s).recW = s.recW := rfl
@[simp] theorem complete_recFirst (s : State) : (complete s).recFirst = s.recFirst := rfl
@[simp] theorem complete_recHdr (s : State) : (complete s).recHdr = s.recHdr := rfl
@[simp] theorem complete_recCount (s : State) : (complete s).recCount = s.recCount := rfl
@[simp] theorem complete_recIdx (s : State) : (complete s).recIdx = s.recIdx := rfl
@[simp] theorem complete_recBase (s : State) : (complete s).recBase = s.recBase := rfl
@[simp] theorem complete_cat (s : State) : (complete s).cat = s.cat := rfl
@[simp] theorem complete_txbuf (s : State) : (complete s).txbuf = s.txbuf := rfl
@[simp] theorem complete_rxbuf (s : State) : (complete s).rxbuf = s.rxbuf := rfl
@[simp] theorem complete_strbuf (s : State) : (complete s).strbuf = s.strbuf := rfl
@[simp] theorem complete_delay (s : State) : (complete s).delay = s.delay := rfl
@[simp] theorem complete_draws (s : State) : (complete s).draws = s.draws := rfl
@[simp] theorem complete_hostProg (s : State) : (complete s).hostProg = s.hostProg := rfl
@[simp] theorem complete_hostPc (s : State) : (complete s).hostPc = s.hostPc := rfl
@[simp] theorem complete_lastStatus (s : State) : (complete s).lastStatus = s.lastStatus := rfl
@[simp] theorem complete_hostReads (s : State) : (complete s).hostReads = s.hostReads := rfl

/-! raiseErr -/

@[simp] theorem raiseErr_bufBytes (e : ErrCode) (s : State) : (raiseErr e s).bufBytes = s.bufBytes := rfl
@[simp] theorem raiseErr_strict (e : ErrCode) (s : State) : (raiseErr e s).strict = s.strict := rfl
@[simp] theorem raiseErr_ckok (e : ErrCode) (s : State) : (raiseErr e s).ckok = s.ckok := rfl
@[simp] theorem raiseErr_endFlag (e : ErrCode) (s : State) : (raiseErr e s).endFlag = s.endFlag := rfl
@[simp] theorem raiseErr_ovr (e : ErrCode) (s : State) : (raiseErr e s).ovr = s.ovr := rfl
@[simp] theorem raiseErr_err (e : ErrCode) (s : State) : (raiseErr e s).err = e := rfl
@[simp] theorem raiseErr_pending (e : ErrCode) (s : State) : (raiseErr e s).pending = none := rfl
@[simp] theorem raiseErr_arg (e : ErrCode) (s : State) : (raiseErr e s).arg = s.arg := rfl
@[simp] theorem raiseErr_crc (e : ErrCode) (s : State) : (raiseErr e s).crc = s.crc := rfl
@[simp] theorem raiseErr_devid (e : ErrCode) (s : State) : (raiseErr e s).devid = s.devid := rfl
@[simp] theorem raiseErr_txlen (e : ErrCode) (s : State) : (raiseErr e s).txlen = s.txlen := rfl
@[simp] theorem raiseErr_rxlen (e : ErrCode) (s : State) : (raiseErr e s).rxlen = s.rxlen := rfl
@[simp] theorem raiseErr_fDevid (e : ErrCode) (s : State) : (raiseErr e s).fDevid = s.fDevid := rfl
@[simp] theorem raiseErr_fCmd (e : ErrCode) (s : State) : (raiseErr e s).fCmd = s.fCmd := rfl
@[simp] theorem raiseErr_fPlen (e : ErrCode) (s : State) : (raiseErr e s).fPlen = s.fPlen := rfl
@[simp] theorem raiseErr_fCksum (e : ErrCode) (s : State) : (raiseErr e s).fCksum = s.fCksum := rfl
@[simp] theorem raiseErr_res0 (e : ErrCode) (s : State) : (raiseErr e s).res0 = s.res0 := rfl
@[simp] theorem raiseErr_res1 (e : ErrCode) (s : State) : (raiseErr e s).res1 = s.res1 := rfl
@[simp] theorem raiseErr_res2 (e : ErrCode) (s : State) : (raiseErr e s).res2 = s.res2 := rfl
@[simp] theorem raiseErr_res3 (e : ErrCode) (s : State) : (raiseErr e s).res3 = s.res3 := rfl
@[simp] theorem raiseErr_strlen (e : ErrCode) (s : State) : (raiseErr e s).strlen = s.strlen := rfl
@[simp] theorem raiseErr_catKind (e : ErrCode) (s : State) : (raiseErr e s).catKind = s.catKind := rfl
@[simp] theorem raiseErr_recW (e : ErrCode) (s : State) : (raiseErr e s).recW = s.recW := rfl
@[simp] theorem raiseErr_recFirst (e : ErrCode) (s : State) : (raiseErr e s).recFirst = s.recFirst := rfl
@[simp] theorem raiseErr_recHdr (e : ErrCode) (s : State) : (raiseErr e s).recHdr = s.recHdr := rfl
@[simp] theorem raiseErr_recCount (e : ErrCode) (s : State) : (raiseErr e s).recCount = s.recCount := rfl
@[simp] theorem raiseErr_recIdx (e : ErrCode) (s : State) : (raiseErr e s).recIdx = s.recIdx := rfl
@[simp] theorem raiseErr_recBase (e : ErrCode) (s : State) : (raiseErr e s).recBase = s.recBase := rfl
@[simp] theorem raiseErr_cat (e : ErrCode) (s : State) : (raiseErr e s).cat = s.cat := rfl
@[simp] theorem raiseErr_txbuf (e : ErrCode) (s : State) : (raiseErr e s).txbuf = s.txbuf := rfl
@[simp] theorem raiseErr_rxbuf (e : ErrCode) (s : State) : (raiseErr e s).rxbuf = s.rxbuf := rfl
@[simp] theorem raiseErr_strbuf (e : ErrCode) (s : State) : (raiseErr e s).strbuf = s.strbuf := rfl
@[simp] theorem raiseErr_delay (e : ErrCode) (s : State) : (raiseErr e s).delay = s.delay := rfl
@[simp] theorem raiseErr_draws (e : ErrCode) (s : State) : (raiseErr e s).draws = s.draws := rfl
@[simp] theorem raiseErr_hostProg (e : ErrCode) (s : State) : (raiseErr e s).hostProg = s.hostProg := rfl
@[simp] theorem raiseErr_hostPc (e : ErrCode) (s : State) : (raiseErr e s).hostPc = s.hostPc := rfl
@[simp] theorem raiseErr_lastStatus (e : ErrCode) (s : State) : (raiseErr e s).lastStatus = s.lastStatus := rfl
@[simp] theorem raiseErr_hostReads (e : ErrCode) (s : State) : (raiseErr e s).hostReads = s.hostReads := rfl

/-! putString -/

@[simp] theorem putString_bufBytes (text : List Byte) (s : State) : (putString text s).bufBytes = s.bufBytes := rfl
@[simp] theorem putString_strict (text : List Byte) (s : State) : (putString text s).strict = s.strict := rfl
@[simp] theorem putString_ckok (text : List Byte) (s : State) : (putString text s).ckok = s.ckok := rfl
@[simp] theorem putString_endFlag (text : List Byte) (s : State) : (putString text s).endFlag = s.endFlag := rfl
@[simp] theorem putString_ovr (text : List Byte) (s : State) : (putString text s).ovr = s.ovr := rfl
@[simp] theorem putString_err (text : List Byte) (s : State) : (putString text s).err = s.err := rfl
@[simp] theorem putString_pending (text : List Byte) (s : State) : (putString text s).pending = s.pending := rfl
@[simp] theorem putString_arg (text : List Byte) (s : State) : (putString text s).arg = s.arg := rfl
@[simp] theorem putString_crc (text : List Byte) (s : State) : (putString text s).crc = s.crc := rfl
@[simp] theorem putString_devid (text : List Byte) (s : State) : (putString text s).devid = s.devid := rfl
@[simp] theorem putString_txlen (text : List Byte) (s : State) : (putString text s).txlen = s.txlen := rfl
@[simp] theorem putString_rxlen (text : List Byte) (s : State) : (putString text s).rxlen = s.rxlen := rfl
@[simp] theorem putString_fDevid (text : List Byte) (s : State) : (putString text s).fDevid = s.fDevid := rfl
@[simp] theorem putString_fCmd (text : List Byte) (s : State) : (putString text s).fCmd = s.fCmd := rfl
@[simp] theorem putString_fPlen (text : List Byte) (s : State) : (putString text s).fPlen = s.fPlen := rfl
@[simp] theorem putString_fCksum (text : List Byte) (s : State) : (putString text s).fCksum = s.fCksum := rfl
@[simp] theorem putString_res0 (text : List Byte) (s : State) : (putString text s).res0 = s.res0 := rfl
@[simp] theorem putString_res1 (text : List Byte) (s : State) : (putString text s).res1 = s.res1 := rfl
@[simp] theorem putString_res2 (text : List Byte) (s : State) : (putString text s).res2 = s.res2 := rfl
@[simp] theorem putString_res3 (text : List Byte) (s : State) : (putString text s).res3 = s.res3 := rfl
@[simp] theorem putString_strlen (text : List Byte) (s : State) : (putString text s).strlen = BitVec.ofNat 16 text.length := rfl
@[simp] theorem putString_catKind (text : List Byte) (s : State) : (putString text s).catKind = s.catKind := rfl
@[simp] theorem putString_recW (text : List Byte) (s : State) : (putString text s).recW = s.recW := rfl
@[simp] theorem putString_recFirst (text : List Byte) (s : State) : (putString text s).recFirst = s.recFirst := rfl
@[simp] theorem putString_recHdr (text : List Byte) (s : State) : (putString text s).recHdr = s.recHdr := rfl
@[simp] theorem putString_recCount (text : List Byte) (s : State) : (putString text s).recCount = s.recCount := rfl
@[simp] theorem putString_recIdx (text : List Byte) (s : State) : (putString text s).recIdx = s.recIdx := rfl
@[simp] theorem putString_recBase (text : List Byte) (s : State) : (putString text s).recBase = s.recBase := rfl
@[simp] theorem putString_cat (text : List Byte) (s : State) : (putString text s).cat = s.cat := rfl
@[simp] theorem putString_txbuf (text : List Byte) (s : State) : (putString text s).txbuf = s.txbuf := rfl
@[simp] theorem putString_rxbuf (text : List Byte) (s : State) : (putString text s).rxbuf = s.rxbuf := rfl
@[simp] theorem putString_strbuf (text : List Byte) (s : State) : (putString text s).strbuf = memPutAll s.strbuf 0 text := rfl
@[simp] theorem putString_delay (text : List Byte) (s : State) : (putString text s).delay = s.delay := rfl
@[simp] theorem putString_draws (text : List Byte) (s : State) : (putString text s).draws = s.draws := rfl
@[simp] theorem putString_hostProg (text : List Byte) (s : State) : (putString text s).hostProg = s.hostProg := rfl
@[simp] theorem putString_hostPc (text : List Byte) (s : State) : (putString text s).hostPc = s.hostPc := rfl
@[simp] theorem putString_lastStatus (text : List Byte) (s : State) : (putString text s).lastStatus = s.lastStatus := rfl
@[simp] theorem putString_hostReads (text : List Byte) (s : State) : (putString text s).hostReads = s.hostReads := rfl

/-! advanceRecord -/

@[simp] theorem advanceRecord_bufBytes (s : State) : (advanceRecord s).bufBytes = s.bufBytes := rfl
@[simp] theorem advanceRecord_strict (s : State) : (advanceRecord s).strict = s.strict := rfl
@[simp] theorem advanceRecord_ckok (s : State) : (advanceRecord s).ckok = s.ckok := rfl
@[simp] theorem advanceRecord_endFlag (s : State) : (advanceRecord s).endFlag = false := rfl
@[simp] theorem advanceRecord_ovr (s : State) : (advanceRecord s).ovr = s.ovr := rfl
@[simp] theorem advanceRecord_err (s : State) : (advanceRecord s).err = s.err := rfl
@[simp] theorem advanceRecord_pending (s : State) : (advanceRecord s).pending = s.pending := rfl
@[simp] theorem advanceRecord_arg (s : State) : (advanceRecord s).arg = s.arg := rfl
@[simp] theorem advanceRecord_crc (s : State) : (advanceRecord s).crc = s.crc := rfl
@[simp] theorem advanceRecord_devid (s : State) : (advanceRecord s).devid = s.devid := rfl
@[simp] theorem advanceRecord_txlen (s : State) : (advanceRecord s).txlen = s.txlen := rfl
@[simp] theorem advanceRecord_rxlen (s : State) : (advanceRecord s).rxlen = s.rxlen := rfl
@[simp] theorem advanceRecord_fDevid (s : State) : (advanceRecord s).fDevid = s.fDevid := rfl
@[simp] theorem advanceRecord_fCmd (s : State) : (advanceRecord s).fCmd = s.fCmd := rfl
@[simp] theorem advanceRecord_fPlen (s : State) : (advanceRecord s).fPlen = s.fPlen := rfl
@[simp] theorem advanceRecord_fCksum (s : State) : (advanceRecord s).fCksum = s.fCksum := rfl
@[simp] theorem advanceRecord_res0 (s : State) : (advanceRecord s).res0 = s.res0 := rfl
@[simp] theorem advanceRecord_res1 (s : State) : (advanceRecord s).res1 = s.res1 := rfl
@[simp] theorem advanceRecord_res2 (s : State) : (advanceRecord s).res2 = s.res2 := rfl
@[simp] theorem advanceRecord_res3 (s : State) : (advanceRecord s).res3 = s.res3 := rfl
@[simp] theorem advanceRecord_strlen (s : State) : (advanceRecord s).strlen = s.strlen := rfl
@[simp] theorem advanceRecord_catKind (s : State) : (advanceRecord s).catKind = s.catKind := rfl
@[simp] theorem advanceRecord_recW (s : State) : (advanceRecord s).recW = s.recW := rfl
@[simp] theorem advanceRecord_recFirst (s : State) : (advanceRecord s).recFirst = s.recFirst := rfl
@[simp] theorem advanceRecord_recHdr (s : State) : (advanceRecord s).recHdr = s.recHdr := rfl
@[simp] theorem advanceRecord_recCount (s : State) : (advanceRecord s).recCount = s.recCount := rfl
@[simp] theorem advanceRecord_recIdx (s : State) : (advanceRecord s).recIdx = BitVec.ofNat 16 (s.recIdx.toNat + 1) := rfl
@[simp] theorem advanceRecord_recBase (s : State) : (advanceRecord s).recBase = BitVec.ofNat 32 (recordBase s) := rfl
@[simp] theorem advanceRecord_cat (s : State) : (advanceRecord s).cat = s.cat := rfl
@[simp] theorem advanceRecord_txbuf (s : State) : (advanceRecord s).txbuf = s.txbuf := rfl
@[simp] theorem advanceRecord_rxbuf (s : State) : (advanceRecord s).rxbuf = s.rxbuf := rfl
@[simp] theorem advanceRecord_strbuf (s : State) : (advanceRecord s).strbuf = s.strbuf := rfl
@[simp] theorem advanceRecord_delay (s : State) : (advanceRecord s).delay = s.delay := rfl
@[simp] theorem advanceRecord_draws (s : State) : (advanceRecord s).draws = s.draws := rfl
@[simp] theorem advanceRecord_hostProg (s : State) : (advanceRecord s).hostProg = s.hostProg := rfl
@[simp] theorem advanceRecord_hostPc (s : State) : (advanceRecord s).hostPc = s.hostPc := rfl
@[simp] theorem advanceRecord_lastStatus (s : State) : (advanceRecord s).lastStatus = s.lastStatus := rfl
@[simp] theorem advanceRecord_hostReads (s : State) : (advanceRecord s).hostReads = s.hostReads := rfl

/-! hostAdvance -/

@[simp] theorem hostAdvance_bufBytes (s : State) : (hostAdvance s).bufBytes = s.bufBytes := rfl
@[simp] theorem hostAdvance_strict (s : State) : (hostAdvance s).strict = s.strict := rfl
@[simp] theorem hostAdvance_ckok (s : State) : (hostAdvance s).ckok = s.ckok := rfl
@[simp] theorem hostAdvance_endFlag (s : State) : (hostAdvance s).endFlag = s.endFlag := rfl
@[simp] theorem hostAdvance_ovr (s : State) : (hostAdvance s).ovr = s.ovr := rfl
@[simp] theorem hostAdvance_err (s : State) : (hostAdvance s).err = s.err := rfl
@[simp] theorem hostAdvance_pending (s : State) : (hostAdvance s).pending = s.pending := rfl
@[simp] theorem hostAdvance_arg (s : State) : (hostAdvance s).arg = s.arg := rfl
@[simp] theorem hostAdvance_crc (s : State) : (hostAdvance s).crc = s.crc := rfl
@[simp] theorem hostAdvance_devid (s : State) : (hostAdvance s).devid = s.devid := rfl
@[simp] theorem hostAdvance_txlen (s : State) : (hostAdvance s).txlen = s.txlen := rfl
@[simp] theorem hostAdvance_rxlen (s : State) : (hostAdvance s).rxlen = s.rxlen := rfl
@[simp] theorem hostAdvance_fDevid (s : State) : (hostAdvance s).fDevid = s.fDevid := rfl
@[simp] theorem hostAdvance_fCmd (s : State) : (hostAdvance s).fCmd = s.fCmd := rfl
@[simp] theorem hostAdvance_fPlen (s : State) : (hostAdvance s).fPlen = s.fPlen := rfl
@[simp] theorem hostAdvance_fCksum (s : State) : (hostAdvance s).fCksum = s.fCksum := rfl
@[simp] theorem hostAdvance_res0 (s : State) : (hostAdvance s).res0 = s.res0 := rfl
@[simp] theorem hostAdvance_res1 (s : State) : (hostAdvance s).res1 = s.res1 := rfl
@[simp] theorem hostAdvance_res2 (s : State) : (hostAdvance s).res2 = s.res2 := rfl
@[simp] theorem hostAdvance_res3 (s : State) : (hostAdvance s).res3 = s.res3 := rfl
@[simp] theorem hostAdvance_strlen (s : State) : (hostAdvance s).strlen = s.strlen := rfl
@[simp] theorem hostAdvance_catKind (s : State) : (hostAdvance s).catKind = s.catKind := rfl
@[simp] theorem hostAdvance_recW (s : State) : (hostAdvance s).recW = s.recW := rfl
@[simp] theorem hostAdvance_recFirst (s : State) : (hostAdvance s).recFirst = s.recFirst := rfl
@[simp] theorem hostAdvance_recHdr (s : State) : (hostAdvance s).recHdr = s.recHdr := rfl
@[simp] theorem hostAdvance_recCount (s : State) : (hostAdvance s).recCount = s.recCount := rfl
@[simp] theorem hostAdvance_recIdx (s : State) : (hostAdvance s).recIdx = s.recIdx := rfl
@[simp] theorem hostAdvance_recBase (s : State) : (hostAdvance s).recBase = s.recBase := rfl
@[simp] theorem hostAdvance_cat (s : State) : (hostAdvance s).cat = s.cat := rfl
@[simp] theorem hostAdvance_txbuf (s : State) : (hostAdvance s).txbuf = s.txbuf := rfl
@[simp] theorem hostAdvance_rxbuf (s : State) : (hostAdvance s).rxbuf = s.rxbuf := rfl
@[simp] theorem hostAdvance_strbuf (s : State) : (hostAdvance s).strbuf = s.strbuf := rfl
@[simp] theorem hostAdvance_delay (s : State) : (hostAdvance s).delay = s.delay := rfl
@[simp] theorem hostAdvance_draws (s : State) : (hostAdvance s).draws = s.draws := rfl
@[simp] theorem hostAdvance_hostProg (s : State) : (hostAdvance s).hostProg = s.hostProg := rfl
@[simp] theorem hostAdvance_hostPc (s : State) : (hostAdvance s).hostPc = s.hostPc + 1 := rfl
@[simp] theorem hostAdvance_lastStatus (s : State) : (hostAdvance s).lastStatus = s.lastStatus := rfl
@[simp] theorem hostAdvance_hostReads (s : State) : (hostAdvance s).hostReads = s.hostReads := rfl

/-! passTurn -/

@[simp] theorem passTurn_bufBytes (s : State) : (passTurn s).bufBytes = s.bufBytes := rfl
@[simp] theorem passTurn_strict (s : State) : (passTurn s).strict = s.strict := rfl
@[simp] theorem passTurn_ckok (s : State) : (passTurn s).ckok = s.ckok := rfl
@[simp] theorem passTurn_endFlag (s : State) : (passTurn s).endFlag = s.endFlag := rfl
@[simp] theorem passTurn_ovr (s : State) : (passTurn s).ovr = s.ovr := rfl
@[simp] theorem passTurn_err (s : State) : (passTurn s).err = s.err := rfl
@[simp] theorem passTurn_pending (s : State) : (passTurn s).pending = s.pending := rfl
@[simp] theorem passTurn_arg (s : State) : (passTurn s).arg = s.arg := rfl
@[simp] theorem passTurn_crc (s : State) : (passTurn s).crc = s.crc := rfl
@[simp] theorem passTurn_devid (s : State) : (passTurn s).devid = s.devid := rfl
@[simp] theorem passTurn_txlen (s : State) : (passTurn s).txlen = s.txlen := rfl
@[simp] theorem passTurn_rxlen (s : State) : (passTurn s).rxlen = s.rxlen := rfl
@[simp] theorem passTurn_fDevid (s : State) : (passTurn s).fDevid = s.fDevid := rfl
@[simp] theorem passTurn_fCmd (s : State) : (passTurn s).fCmd = s.fCmd := rfl
@[simp] theorem passTurn_fPlen (s : State) : (passTurn s).fPlen = s.fPlen := rfl
@[simp] theorem passTurn_fCksum (s : State) : (passTurn s).fCksum = s.fCksum := rfl
@[simp] theorem passTurn_res0 (s : State) : (passTurn s).res0 = s.res0 := rfl
@[simp] theorem passTurn_res1 (s : State) : (passTurn s).res1 = s.res1 := rfl
@[simp] theorem passTurn_res2 (s : State) : (passTurn s).res2 = s.res2 := rfl
@[simp] theorem passTurn_res3 (s : State) : (passTurn s).res3 = s.res3 := rfl
@[simp] theorem passTurn_strlen (s : State) : (passTurn s).strlen = s.strlen := rfl
@[simp] theorem passTurn_catKind (s : State) : (passTurn s).catKind = s.catKind := rfl
@[simp] theorem passTurn_recW (s : State) : (passTurn s).recW = s.recW := rfl
@[simp] theorem passTurn_recFirst (s : State) : (passTurn s).recFirst = s.recFirst := rfl
@[simp] theorem passTurn_recHdr (s : State) : (passTurn s).recHdr = s.recHdr := rfl
@[simp] theorem passTurn_recCount (s : State) : (passTurn s).recCount = s.recCount := rfl
@[simp] theorem passTurn_recIdx (s : State) : (passTurn s).recIdx = s.recIdx := rfl
@[simp] theorem passTurn_recBase (s : State) : (passTurn s).recBase = s.recBase := rfl
@[simp] theorem passTurn_cat (s : State) : (passTurn s).cat = s.cat := rfl
@[simp] theorem passTurn_txbuf (s : State) : (passTurn s).txbuf = s.txbuf := rfl
@[simp] theorem passTurn_rxbuf (s : State) : (passTurn s).rxbuf = s.rxbuf := rfl
@[simp] theorem passTurn_strbuf (s : State) : (passTurn s).strbuf = s.strbuf := rfl
@[simp] theorem passTurn_delay (s : State) : (passTurn s).delay = s.delay - 1 := rfl
@[simp] theorem passTurn_draws (s : State) : (passTurn s).draws = s.draws := rfl
@[simp] theorem passTurn_hostProg (s : State) : (passTurn s).hostProg = s.hostProg := rfl
@[simp] theorem passTurn_hostPc (s : State) : (passTurn s).hostPc = s.hostPc := rfl
@[simp] theorem passTurn_lastStatus (s : State) : (passTurn s).lastStatus = s.lastStatus := rfl
@[simp] theorem passTurn_hostReads (s : State) : (passTurn s).hostReads = s.hostReads := rfl

/-! placeCommand -/

@[simp] theorem placeCommand_bufBytes (w : Word) (s : State) : (placeCommand w s).bufBytes = s.bufBytes := rfl
@[simp] theorem placeCommand_strict (w : Word) (s : State) : (placeCommand w s).strict = s.strict := rfl
@[simp] theorem placeCommand_ckok (w : Word) (s : State) : (placeCommand w s).ckok = s.ckok := rfl
@[simp] theorem placeCommand_endFlag (w : Word) (s : State) : (placeCommand w s).endFlag = s.endFlag := rfl
@[simp] theorem placeCommand_ovr (w : Word) (s : State) : (placeCommand w s).ovr = s.ovr := rfl
@[simp] theorem placeCommand_err (w : Word) (s : State) : (placeCommand w s).err = s.err := rfl
@[simp] theorem placeCommand_pending (w : Word) (s : State) : (placeCommand w s).pending = some w := rfl
@[simp] theorem placeCommand_arg (w : Word) (s : State) : (placeCommand w s).arg = s.arg := rfl
@[simp] theorem placeCommand_crc (w : Word) (s : State) : (placeCommand w s).crc = s.crc := rfl
@[simp] theorem placeCommand_devid (w : Word) (s : State) : (placeCommand w s).devid = s.devid := rfl
@[simp] theorem placeCommand_txlen (w : Word) (s : State) : (placeCommand w s).txlen = s.txlen := rfl
@[simp] theorem placeCommand_rxlen (w : Word) (s : State) : (placeCommand w s).rxlen = s.rxlen := rfl
@[simp] theorem placeCommand_fDevid (w : Word) (s : State) : (placeCommand w s).fDevid = s.fDevid := rfl
@[simp] theorem placeCommand_fCmd (w : Word) (s : State) : (placeCommand w s).fCmd = s.fCmd := rfl
@[simp] theorem placeCommand_fPlen (w : Word) (s : State) : (placeCommand w s).fPlen = s.fPlen := rfl
@[simp] theorem placeCommand_fCksum (w : Word) (s : State) : (placeCommand w s).fCksum = s.fCksum := rfl
@[simp] theorem placeCommand_res0 (w : Word) (s : State) : (placeCommand w s).res0 = s.res0 := rfl
@[simp] theorem placeCommand_res1 (w : Word) (s : State) : (placeCommand w s).res1 = s.res1 := rfl
@[simp] theorem placeCommand_res2 (w : Word) (s : State) : (placeCommand w s).res2 = s.res2 := rfl
@[simp] theorem placeCommand_res3 (w : Word) (s : State) : (placeCommand w s).res3 = s.res3 := rfl
@[simp] theorem placeCommand_strlen (w : Word) (s : State) : (placeCommand w s).strlen = s.strlen := rfl
@[simp] theorem placeCommand_catKind (w : Word) (s : State) : (placeCommand w s).catKind = s.catKind := rfl
@[simp] theorem placeCommand_recW (w : Word) (s : State) : (placeCommand w s).recW = s.recW := rfl
@[simp] theorem placeCommand_recFirst (w : Word) (s : State) : (placeCommand w s).recFirst = s.recFirst := rfl
@[simp] theorem placeCommand_recHdr (w : Word) (s : State) : (placeCommand w s).recHdr = s.recHdr := rfl
@[simp] theorem placeCommand_recCount (w : Word) (s : State) : (placeCommand w s).recCount = s.recCount := rfl
@[simp] theorem placeCommand_recIdx (w : Word) (s : State) : (placeCommand w s).recIdx = s.recIdx := rfl
@[simp] theorem placeCommand_recBase (w : Word) (s : State) : (placeCommand w s).recBase = s.recBase := rfl
@[simp] theorem placeCommand_cat (w : Word) (s : State) : (placeCommand w s).cat = s.cat := rfl
@[simp] theorem placeCommand_txbuf (w : Word) (s : State) : (placeCommand w s).txbuf = s.txbuf := rfl
@[simp] theorem placeCommand_rxbuf (w : Word) (s : State) : (placeCommand w s).rxbuf = s.rxbuf := rfl
@[simp] theorem placeCommand_strbuf (w : Word) (s : State) : (placeCommand w s).strbuf = s.strbuf := rfl
@[simp] theorem placeCommand_delay (w : Word) (s : State) : (placeCommand w s).delay = 0 := rfl
@[simp] theorem placeCommand_draws (w : Word) (s : State) : (placeCommand w s).draws = s.draws := rfl
@[simp] theorem placeCommand_hostProg (w : Word) (s : State) : (placeCommand w s).hostProg = s.hostProg := rfl
@[simp] theorem placeCommand_hostPc (w : Word) (s : State) : (placeCommand w s).hostPc = s.hostPc := rfl
@[simp] theorem placeCommand_lastStatus (w : Word) (s : State) : (placeCommand w s).lastStatus = s.lastStatus := rfl
@[simp] theorem placeCommand_hostReads (w : Word) (s : State) : (placeCommand w s).hostReads = s.hostReads := rfl

/-! noteRead -/

@[simp] theorem noteRead_bufBytes (a : HostAddr) (v : Word) (s : State) : (noteRead a v s).bufBytes = s.bufBytes := rfl
@[simp] theorem noteRead_strict (a : HostAddr) (v : Word) (s : State) : (noteRead a v s).strict = s.strict := rfl
@[simp] theorem noteRead_ckok (a : HostAddr) (v : Word) (s : State) : (noteRead a v s).ckok = s.ckok := rfl
@[simp] theorem noteRead_endFlag (a : HostAddr) (v : Word) (s : State) : (noteRead a v s).endFlag = s.endFlag := rfl
@[simp] theorem noteRead_ovr (a : HostAddr) (v : Word) (s : State) : (noteRead a v s).ovr = s.ovr := rfl
@[simp] theorem noteRead_err (a : HostAddr) (v : Word) (s : State) : (noteRead a v s).err = s.err := rfl
@[simp] theorem noteRead_pending (a : HostAddr) (v : Word) (s : State) : (noteRead a v s).pending = s.pending := rfl
@[simp] theorem noteRead_arg (a : HostAddr) (v : Word) (s : State) : (noteRead a v s).arg = s.arg := rfl
@[simp] theorem noteRead_crc (a : HostAddr) (v : Word) (s : State) : (noteRead a v s).crc = s.crc := rfl
@[simp] theorem noteRead_devid (a : HostAddr) (v : Word) (s : State) : (noteRead a v s).devid = s.devid := rfl
@[simp] theorem noteRead_txlen (a : HostAddr) (v : Word) (s : State) : (noteRead a v s).txlen = s.txlen := rfl
@[simp] theorem noteRead_rxlen (a : HostAddr) (v : Word) (s : State) : (noteRead a v s).rxlen = s.rxlen := rfl
@[simp] theorem noteRead_fDevid (a : HostAddr) (v : Word) (s : State) : (noteRead a v s).fDevid = s.fDevid := rfl
@[simp] theorem noteRead_fCmd (a : HostAddr) (v : Word) (s : State) : (noteRead a v s).fCmd = s.fCmd := rfl
@[simp] theorem noteRead_fPlen (a : HostAddr) (v : Word) (s : State) : (noteRead a v s).fPlen = s.fPlen := rfl
@[simp] theorem noteRead_fCksum (a : HostAddr) (v : Word) (s : State) : (noteRead a v s).fCksum = s.fCksum := rfl
@[simp] theorem noteRead_res0 (a : HostAddr) (v : Word) (s : State) : (noteRead a v s).res0 = s.res0 := rfl
@[simp] theorem noteRead_res1 (a : HostAddr) (v : Word) (s : State) : (noteRead a v s).res1 = s.res1 := rfl
@[simp] theorem noteRead_res2 (a : HostAddr) (v : Word) (s : State) : (noteRead a v s).res2 = s.res2 := rfl
@[simp] theorem noteRead_res3 (a : HostAddr) (v : Word) (s : State) : (noteRead a v s).res3 = s.res3 := rfl
@[simp] theorem noteRead_strlen (a : HostAddr) (v : Word) (s : State) : (noteRead a v s).strlen = s.strlen := rfl
@[simp] theorem noteRead_catKind (a : HostAddr) (v : Word) (s : State) : (noteRead a v s).catKind = s.catKind := rfl
@[simp] theorem noteRead_recW (a : HostAddr) (v : Word) (s : State) : (noteRead a v s).recW = s.recW := rfl
@[simp] theorem noteRead_recFirst (a : HostAddr) (v : Word) (s : State) : (noteRead a v s).recFirst = s.recFirst := rfl
@[simp] theorem noteRead_recHdr (a : HostAddr) (v : Word) (s : State) : (noteRead a v s).recHdr = s.recHdr := rfl
@[simp] theorem noteRead_recCount (a : HostAddr) (v : Word) (s : State) : (noteRead a v s).recCount = s.recCount := rfl
@[simp] theorem noteRead_recIdx (a : HostAddr) (v : Word) (s : State) : (noteRead a v s).recIdx = s.recIdx := rfl
@[simp] theorem noteRead_recBase (a : HostAddr) (v : Word) (s : State) : (noteRead a v s).recBase = s.recBase := rfl
@[simp] theorem noteRead_cat (a : HostAddr) (v : Word) (s : State) : (noteRead a v s).cat = s.cat := rfl
@[simp] theorem noteRead_txbuf (a : HostAddr) (v : Word) (s : State) : (noteRead a v s).txbuf = s.txbuf := rfl
@[simp] theorem noteRead_rxbuf (a : HostAddr) (v : Word) (s : State) : (noteRead a v s).rxbuf = s.rxbuf := rfl
@[simp] theorem noteRead_strbuf (a : HostAddr) (v : Word) (s : State) : (noteRead a v s).strbuf = s.strbuf := rfl
@[simp] theorem noteRead_delay (a : HostAddr) (v : Word) (s : State) : (noteRead a v s).delay = s.delay := rfl
@[simp] theorem noteRead_draws (a : HostAddr) (v : Word) (s : State) : (noteRead a v s).draws = s.draws + 1 := rfl
@[simp] theorem noteRead_hostProg (a : HostAddr) (v : Word) (s : State) : (noteRead a v s).hostProg = s.hostProg := rfl
@[simp] theorem noteRead_hostPc (a : HostAddr) (v : Word) (s : State) : (noteRead a v s).hostPc = s.hostPc := rfl
@[simp] theorem noteRead_lastStatus (a : HostAddr) (v : Word) (s : State) : (noteRead a v s).lastStatus = if a = statusAddr then v else s.lastStatus := rfl
@[simp] theorem noteRead_hostReads (a : HostAddr) (v : Word) (s : State) : (noteRead a v s).hostReads = v :: s.hostReads := rfl

/-! resetBlock -/

@[simp] theorem resetBlock_bufBytes (s : State) : (resetBlock s).bufBytes = s.bufBytes := rfl
@[simp] theorem resetBlock_strict (s : State) : (resetBlock s).strict = State.reset.strict := rfl
@[simp] theorem resetBlock_ckok (s : State) : (resetBlock s).ckok = State.reset.ckok := rfl
@[simp] theorem resetBlock_endFlag (s : State) : (resetBlock s).endFlag = State.reset.endFlag := rfl
@[simp] theorem resetBlock_ovr (s : State) : (resetBlock s).ovr = State.reset.ovr := rfl
@[simp] theorem resetBlock_err (s : State) : (resetBlock s).err = State.reset.err := rfl
@[simp] theorem resetBlock_pending (s : State) : (resetBlock s).pending = State.reset.pending := rfl
@[simp] theorem resetBlock_arg (s : State) : (resetBlock s).arg = State.reset.arg := rfl
@[simp] theorem resetBlock_crc (s : State) : (resetBlock s).crc = State.reset.crc := rfl
@[simp] theorem resetBlock_devid (s : State) : (resetBlock s).devid = State.reset.devid := rfl
@[simp] theorem resetBlock_txlen (s : State) : (resetBlock s).txlen = State.reset.txlen := rfl
@[simp] theorem resetBlock_rxlen (s : State) : (resetBlock s).rxlen = State.reset.rxlen := rfl
@[simp] theorem resetBlock_fDevid (s : State) : (resetBlock s).fDevid = State.reset.fDevid := rfl
@[simp] theorem resetBlock_fCmd (s : State) : (resetBlock s).fCmd = State.reset.fCmd := rfl
@[simp] theorem resetBlock_fPlen (s : State) : (resetBlock s).fPlen = State.reset.fPlen := rfl
@[simp] theorem resetBlock_fCksum (s : State) : (resetBlock s).fCksum = State.reset.fCksum := rfl
@[simp] theorem resetBlock_res0 (s : State) : (resetBlock s).res0 = State.reset.res0 := rfl
@[simp] theorem resetBlock_res1 (s : State) : (resetBlock s).res1 = State.reset.res1 := rfl
@[simp] theorem resetBlock_res2 (s : State) : (resetBlock s).res2 = State.reset.res2 := rfl
@[simp] theorem resetBlock_res3 (s : State) : (resetBlock s).res3 = State.reset.res3 := rfl
@[simp] theorem resetBlock_strlen (s : State) : (resetBlock s).strlen = State.reset.strlen := rfl
@[simp] theorem resetBlock_catKind (s : State) : (resetBlock s).catKind = State.reset.catKind := rfl
@[simp] theorem resetBlock_recW (s : State) : (resetBlock s).recW = State.reset.recW := rfl
@[simp] theorem resetBlock_recFirst (s : State) : (resetBlock s).recFirst = State.reset.recFirst := rfl
@[simp] theorem resetBlock_recHdr (s : State) : (resetBlock s).recHdr = State.reset.recHdr := rfl
@[simp] theorem resetBlock_recCount (s : State) : (resetBlock s).recCount = State.reset.recCount := rfl
@[simp] theorem resetBlock_recIdx (s : State) : (resetBlock s).recIdx = State.reset.recIdx := rfl
@[simp] theorem resetBlock_recBase (s : State) : (resetBlock s).recBase = State.reset.recBase := rfl
@[simp] theorem resetBlock_cat (s : State) : (resetBlock s).cat = State.reset.cat := rfl
@[simp] theorem resetBlock_txbuf (s : State) : (resetBlock s).txbuf = State.reset.txbuf := rfl
@[simp] theorem resetBlock_rxbuf (s : State) : (resetBlock s).rxbuf = State.reset.rxbuf := rfl
@[simp] theorem resetBlock_strbuf (s : State) : (resetBlock s).strbuf = State.reset.strbuf := rfl
@[simp] theorem resetBlock_delay (s : State) : (resetBlock s).delay = State.reset.delay := rfl
@[simp] theorem resetBlock_draws (s : State) : (resetBlock s).draws = s.draws := rfl
@[simp] theorem resetBlock_hostProg (s : State) : (resetBlock s).hostProg = s.hostProg := rfl
@[simp] theorem resetBlock_hostPc (s : State) : (resetBlock s).hostPc = s.hostPc := rfl
@[simp] theorem resetBlock_lastStatus (s : State) : (resetBlock s).lastStatus = s.lastStatus := rfl
@[simp] theorem resetBlock_hostReads (s : State) : (resetBlock s).hostReads = s.hostReads := rfl

/-! The other updates, as equations. -/

theorem loadDescriptor_stream (e : CatEntry) (s : State) (h : e.kind = true) :
    loadDescriptor e s =
      { s with catKind := true, recW := e.recW, recFirst := e.recFirst, recHdr := e.recHdr } := by
  simp [loadDescriptor, h]

theorem loadDescriptor_flat (e : CatEntry) (s : State) (h : e.kind = false) :
    loadDescriptor e s = { s with catKind := false } := by
  simp [loadDescriptor, h]

theorem withFetchWord_pending (s : State) (nbits w : Nat) :
    (s.withFetchWord nbits w).pending = some (BitVec.ofNat 32 (w % 2 ^ nbits)) := rfl

theorem withFetchWord_delay (s : State) (nbits w : Nat) : (s.withFetchWord nbits w).delay = 0 := rfl

end Sys2Proof.Machine
end

