-- ==== Sys2Proof/Laws/Meanings.lean ====
section
/-! SUPPORT. What each command can do, said once: the shapes of every next state exec gives, so that a statement about all commands is a case analysis with no definition unfolded. -/

namespace Sys2Proof.Machine

theorem loadDescriptor_eq (e : CatEntry) (s : State) :
    loadDescriptor e s =
      { s with
        catKind := e.kind
        recW := if e.kind then e.recW else s.recW
        recFirst := if e.kind then e.recFirst else s.recFirst
        recHdr := if e.kind then e.recHdr else s.recHdr } := by
  cases h : e.kind
  · rw [loadDescriptor_flat e s h]; simp
  · rw [loadDescriptor_stream e s h]; simp

/-- Reading an attendance record changes RES0-RES3 alone. -/
theorem readAttendance_ok {base : Nat} {s t : State} (h : readAttendance base s = .ok t) :
    ∃ r0 r1 r2 r3, t = { s with res0 := r0, res1 := r1, res2 := r2, res3 := r3 } := by
  simp only [readAttendance, bind_ok_iff, except_pure, Except.ok.injEq] at h
  obtain ⟨_, _, _, _, _, _, _, _, _, _, _, _, _, _, _, _, _, _, _, _, _, _, _, _, rfl⟩ := h
  exact ⟨_, _, _, _, rfl⟩

theorem exec_crcInit (s : State) : exec .crcInit s = .next (complete { s with crc := 0xFFFF }) := rfl

theorem exec_crcByte (d : Byte) (s : State) :
    exec (.crcByte d) s = .next (complete { s with crc := crcStep s.crc d }) := rfl

theorem exec_crcRx_next {start : Nat} {s t : State} (h : exec (.crcRx start) s = .next t) :
    (s.rxlen.toNat < start + s.arg.toNat ∧ t = raiseErr .range s) ∨
    (start + s.arg.toNat ≤ s.rxlen.toNat ∧ ∃ r, t = complete { s with crc := r }) := by
  simp only [exec, execCrcRx] at h
  split at h
  · rename_i hr
    exact .inl ⟨hr, by cases h; rfl⟩
  · rename_i hr
    simp only [outcomeOf_next_iff, bind_ok_iff, except_pure, Except.ok.injEq] at h
    obtain ⟨_, _, rfl⟩ := h
    exact .inr ⟨Nat.not_lt.mp hr, _, rfl⟩

theorem exec_frmEnc_next {c : Byte} {p : Nat} {s t : State} (h : exec (.frmEnc c p) s = .next t) :
    (s.bufBytes < minFrame + p ∧ t = raiseErr .range s) ∨
    (minFrame + p ≤ s.bufBytes ∧ ∃ r,
      readRange .tx (memPutAll s.txbuf 0 (frameHead s.devid c)) 1 (5 + p) = .ok r ∧
      t = complete
        { s with
          txbuf := memPutAll (memPutAll s.txbuf 0 (frameHead s.devid c)) (6 + p)
            (checksumBytes (crcCompute r))
          txlen := BitVec.ofNat 16 (minFrame + p)
          crc := crcCompute r }) := by
  simp only [exec, execFrmEnc] at h
  split at h
  · rename_i hr
    exact .inl ⟨hr, by cases h; rfl⟩
  · rename_i hr
    simp only [outcomeOf_next_iff, bind_ok_iff, except_pure, Except.ok.injEq] at h
    obtain ⟨r, hread, rfl⟩ := h
    exact .inr ⟨Nat.not_lt.mp hr, r, hread, rfl⟩

/-- An accepted frame: the registers it writes and the code it completes with. -/
theorem acceptFrame_eq (body : List Byte) (lo hi : Byte) (s : State) :
    acceptFrame body lo hi s =
      { s with
        fDevid := le32 (body.getD 0 0) (body.getD 1 0) (body.getD 2 0) (body.getD 3 0)
        fCmd := body.getD 4 0
        fPlen := BitVec.ofNat 16 (s.rxlen.toNat - minFrame)
        fCksum := crcCompute body ++ le16 lo hi
        crc := crcCompute body
        ckok := decide (crcCompute body = le16 lo hi)
        err := if s.strict = true ∧ crcCompute body ≠ le16 lo hi then .checksumMismatch else .ok
        pending := none } := by
  have e : checksumsAgree (crcCompute body) (le16 lo hi) =
      decide (crcCompute body = le16 lo hi) := by
    by_cases h : crcCompute body = le16 lo hi <;> simp [checksumsAgree, h]
  unfold acceptFrame
  simp only [e]
  by_cases hs : s.strict = true <;> by_cases hx : crcCompute body = le16 lo hi <;>
    simp [hs, hx, raiseErr, complete]

theorem exec_frmDec_next {s t : State} (h : exec .frmDec s = .next t) :
    (s.rxlen.toNat < minFrame ∧ t = raiseErr .frameShort { s with ckok := false }) ∨
    (minFrame ≤ s.rxlen.toNat ∧
      t = raiseErr .frameBadHeader { s with ckok := false }) ∨
    (minFrame ≤ s.rxlen.toNat ∧ readByte .rx s.rxbuf 0 = .ok headerByte ∧
      ∃ body lo hi, readRange .rx s.rxbuf 1 (s.rxlen.toNat - 3) = .ok body ∧
        readByte .rx s.rxbuf (s.rxlen.toNat - 2) = .ok lo ∧
        readByte .rx s.rxbuf (s.rxlen.toNat - 1) = .ok hi ∧ t = acceptFrame body lo hi s) := by
  simp only [exec, execFrmDec] at h
  split at h
  · rename_i hl
    exact .inl ⟨hl, by cases h; rfl⟩
  · rename_i hl
    simp only [outcomeOf_next_iff, bind_ok_iff, except_pure] at h
    obtain ⟨b, hb, h⟩ := h
    split at h
    · exact .inr (.inl ⟨Nat.not_lt.mp hl, by cases h; rfl⟩)
    · rename_i hne
      simp only [bind_ok_iff, Except.ok.injEq] at h
      obtain ⟨body, hbody, lo, hlo, hi, hhi, rfl⟩ := h
      rw [Decidable.not_not.mp hne] at hb
      exact .inr (.inr ⟨Nat.not_lt.mp hl, hb, body, lo, hi, hbody, hlo, hhi, rfl⟩)

theorem exec_fldU8_next {rel : Bool} {off : Nat} {s t : State}
    (h : exec (.fldU8 rel off) s = .next t) : ∃ r, t = complete { s with res0 := r } := by
  simp only [exec, execFldU8, outcomeOf_next_iff, bind_ok_iff, except_pure, Except.ok.injEq] at h
  obtain ⟨_, _, rfl⟩ := h
  exact ⟨_, rfl⟩

theorem exec_fldU16_next {rel : Bool} {off : Nat} {s t : State}
    (h : exec (.fldU16 rel off) s = .next t) : ∃ r, t = complete { s with res0 := r } := by
  simp only [exec, execFldU16, outcomeOf_next_iff, bind_ok_iff, except_pure, Except.ok.injEq] at h
  obtain ⟨_, _, _, _, rfl⟩ := h
  exact ⟨_, rfl⟩

theorem exec_fldU32_next {rel : Bool} {off : Nat} {s t : State}
    (h : exec (.fldU32 rel off) s = .next t) : ∃ r, t = complete { s with res0 := r } := by
  simp only [exec, execFldU32, outcomeOf_next_iff, bind_ok_iff, except_pure, Except.ok.injEq] at h
  obtain ⟨_, _, _, _, _, _, _, _, rfl⟩ := h
  exact ⟨_, rfl⟩

theorem exec_fldS8_next {rel : Bool} {off : Nat} {s t : State}
    (h : exec (.fldS8 rel off) s = .next t) : ∃ r, t = complete { s with res0 := r } := by
  simp only [exec, execFldS8, outcomeOf_next_iff, bind_ok_iff, except_pure, Except.ok.injEq] at h
  obtain ⟨_, _, rfl⟩ := h
  exact ⟨_, rfl⟩

theorem exec_fldYear_next {rel : Bool} {off : Nat} {s t : State}
    (h : exec (.fldYear rel off) s = .next t) : ∃ r, t = complete { s with res0 := r } := by
  simp only [exec, execFldYear, outcomeOf_next_iff, bind_ok_iff, except_pure, Except.ok.injEq] at h
  obtain ⟨_, _, rfl⟩ := h
  exact ⟨_, rfl⟩

theorem exec_fldDate6_next {rel : Bool} {off : Nat} {s t : State}
    (h : exec (.fldDate6 rel off) s = .next t) :
    ∃ r0 r1 r2, t = complete { s with res0 := r0, res1 := r1, res2 := r2 } := by
  simp only [exec, execFldDate6, outcomeOf_next_iff, bind_ok_iff, except_pure,
    Except.ok.injEq] at h
  obtain ⟨_, _, _, _, _, _, _, _, _, _, _, _, rfl⟩ := h
  exact ⟨_, _, _, rfl⟩

theorem exec_fldIp_next {rel : Bool} {off : Nat} {s t : State}
    (h : exec (.fldIp rel off) s = .next t) :
    ∃ o0 o1 o2 o3 r, t = complete (putString (dottedQuad o0 o1 o2 o3) { s with res0 := r }) := by
  simp only [exec, execFldIp, outcomeOf_next_iff, bind_ok_iff, except_pure, Except.ok.injEq] at h
  obtain ⟨_, _, _, _, _, _, _, _, rfl⟩ := h
  exact ⟨_, _, _, _, _, rfl⟩

theorem exec_fldAscii_next {rel : Bool} {start : Nat} {s t : State}
    (h : exec (.fldAscii rel start) s = .next t) :
    ∃ bytes, lenientRange s (fieldOffset rel start s) (fieldEnd rel s - fieldOffset rel start s)
        = .ok bytes ∧ t = complete (putString (dropZeros bytes) s) := by
  simp only [exec, execFldAscii, outcomeOf_next_iff, bind_ok_iff, except_pure,
    Except.ok.injEq] at h
  obtain ⟨bytes, hread, rfl⟩ := h
  exact ⟨bytes, hread, rfl⟩

theorem exec_rspCheck_next {c : Byte} {s t : State} (h : exec (.rspCheck c) s = .next t) :
    t = raiseErr .unknownCommand s ∨ t = raiseErr .incompleteResponse s ∨
      t = complete (loadDescriptor (catGet s.cat c.toNat) s) := by
  simp only [exec, execRspCheck] at h
  split at h
  · exact .inl (by cases h; rfl)
  · split at h
    · exact .inr (.inl (by cases h; rfl))
    · exact .inr (.inr (by cases h; rfl))

theorem exec_recStart_next {s t : State} (h : exec .recStart s = .next t) :
    t = raiseErr .badParam s ∨
    (s.recW.toNat ≠ 0 ∧ s.recFirst.toNat ≤ s.recHdr.toNat ∧
      t = complete
        { s with
          recCount := BitVec.ofNat 16 (recordCount s.rxlen.toNat s.recHdr.toNat s.recW.toNat)
          recIdx := 0
          recBase := zext16 s.recFirst
          endFlag := false }) := by
  simp only [exec, execRecStart] at h
  split at h
  · exact .inl (by cases h; rfl)
  · rename_i hw
    split at h
    · exact .inl (by cases h; rfl)
    · rename_i hf
      refine .inr ⟨fun h0 => hw (BitVec.eq_of_toNat_eq h0), Nat.not_lt.mp hf, ?_⟩
      cases h
      rfl

theorem exec_recNext_next {att : Bool} {s t : State} (h : exec (.recNext att) s = .next t) :
    (s.recCount.toNat ≤ s.recIdx.toNat ∧ t = complete { s with endFlag := true }) ∨
    (s.recIdx.toNat < s.recCount.toNat ∧ att = true ∧ t = raiseErr .badParam s) ∨
    (s.recIdx.toNat < s.recCount.toNat ∧ att = true ∧ ∃ r0 r1 r2 r3,
      t = complete
        (advanceRecord { s with res0 := r0, res1 := r1, res2 := r2, res3 := r3 })) ∨
    (s.recIdx.toNat < s.recCount.toNat ∧ att = false ∧ t = complete (advanceRecord s)) := by
  simp only [exec, execRecNext] at h
  split at h
  · rename_i he
    exact .inl ⟨of_decide_eq_true he, by cases h; rfl⟩
  · rename_i he
    have hlt : s.recIdx.toNat < s.recCount.toNat := by simpa [exhausted] using he
    split at h
    · rename_i hb
      simp only [Bool.and_eq_true] at hb
      exact .inr (.inl ⟨hlt, hb.1, by cases h; rfl⟩)
    · split at h
      · rename_i ha
        simp only [outcomeOf_next_iff, bind_ok_iff, except_pure, Except.ok.injEq] at h
        obtain ⟨u, hu, rfl⟩ := h
        obtain ⟨r0, r1, r2, r3, rfl⟩ := readAttendance_ok hu
        exact .inr (.inr (.inl ⟨hlt, ha, r0, r1, r2, r3, rfl⟩))
      · rename_i ha
        exact .inr (.inr (.inr ⟨hlt, by simpa using ha, by cases h; rfl⟩))

end Sys2Proof.Machine
end

