-- ==== Sys2Proof/Laws/PerInstr.lean ====
section
/-! SUPPORT. Statements made per instruction. Family OpcodeByte: the low byte of a command's word is its OP in the table of R92 (30_encoding.md), and the word has the bits its row of spec/opcode_table.json fixes when the command is well-formed. -/

namespace Sys2Proof.Laws.OpcodeByte

open Sys2Proof

/-- OP of each command (R92). -/
def opOf : Instr → Byte
  | .crcInit => 0x10
  | .crcByte _ => 0x11
  | .crcRx _ => 0x12
  | .frmEnc _ _ => 0x20
  | .frmDec => 0x21
  | .fldU8 _ _ => 0x30
  | .fldU16 _ _ => 0x31
  | .fldU32 _ _ => 0x32
  | .fldS8 _ _ => 0x33
  | .fldYear _ _ => 0x34
  | .fldDate6 _ _ => 0x35
  | .fldIp _ _ => 0x36
  | .fldAscii _ _ => 0x37
  | .rspCheck _ => 0x40
  | .recStart => 0x41
  | .recNext _ => 0x42

/-- The word's OP field is the command's opcode. -/
def Statement (i : Instr) : Prop := wordOp (encode i) = opOf i

theorem crcInit : Statement .crcInit := wordOp_packWord _ _ _
theorem crcByte (d : Byte) : Statement (.crcByte d) := wordOp_packWord _ _ _
theorem crcRx (s : Nat) : Statement (.crcRx s) := wordOp_packWord _ _ _
theorem frmEnc (c : Byte) (p : Nat) : Statement (.frmEnc c p) := wordOp_packWord _ _ _
theorem frmDec : Statement .frmDec := wordOp_packWord _ _ _
theorem fldU8 (r : Bool) (o : Nat) : Statement (.fldU8 r o) := wordOp_packWord _ _ _
theorem fldU16 (r : Bool) (o : Nat) : Statement (.fldU16 r o) := wordOp_packWord _ _ _
theorem fldU32 (r : Bool) (o : Nat) : Statement (.fldU32 r o) := wordOp_packWord _ _ _
theorem fldS8 (r : Bool) (o : Nat) : Statement (.fldS8 r o) := wordOp_packWord _ _ _
theorem fldYear (r : Bool) (o : Nat) : Statement (.fldYear r o) := wordOp_packWord _ _ _
theorem fldDate6 (r : Bool) (o : Nat) : Statement (.fldDate6 r o) := wordOp_packWord _ _ _
theorem fldIp (r : Bool) (o : Nat) : Statement (.fldIp r o) := wordOp_packWord _ _ _
theorem fldAscii (r : Bool) (o : Nat) : Statement (.fldAscii r o) := wordOp_packWord _ _ _
theorem rspCheck (c : Byte) : Statement (.rspCheck c) := wordOp_packWord _ _ _
theorem recStart : Statement .recStart := wordOp_packWord _ _ _
theorem recNext (a : Bool) : Statement (.recNext a) := wordOp_packWord _ _ _

end Sys2Proof.Laws.OpcodeByte
end

