-- ==== Sys2Proof/Tests/Slice0.lean ====
section
/-! SUPPORT. The model's own tests: ill-formed commands, one word per constructor written out from R92 of 30_encoding.md, one step per command with the expected values of 95_test_vectors.md, and for every obligation with hypotheses a concrete state and operands that meet them. -/

namespace Sys2Proof.Tests

open Sys2Proof Sys2Proof.Machine Sys2Proof.Safety Sys2Proof.Claims

/-! ## Helpers -/

/-- A list of numbers as bytes. -/
def bytes (l : List Nat) : List Byte := l.map fun n => BitVec.ofNat 8 n

/-- A buffer whose bytes from `i` on are these. -/
def buf (i : Nat) (l : List Nat) : Memory := memPutAll [] i (bytes l)

/-- A block after reset with BUF_BYTES = 256, as 95_test_vectors.md assumes. -/
def base : State := { State.reset with bufBytes := 256 }

/-- `base` with a response of these bytes in RXBUF and its length in RXLEN. -/
def resp (l : List Nat) : State :=
  { base with rxbuf := buf 0 l, rxlen := BitVec.ofNat 16 l.length }

/-- The response section 2.3 of 95_test_vectors.md decodes: RXBUF[6 .. 11], RXLEN = 12. -/
def fields : State := { base with rxbuf := buf 6 [0x34, 0x12, 0x78, 0x56, 0, 0], rxlen := 12 }

/-- The answer is a next state with this property. -/
def nextHas (o : Host.Outcome State Fault Refusal) (p : State → Bool) : Bool :=
  match o with
  | .next t => p t
  | .fault _ => false
  | .refused _ => false

/-- The answer is this fault. -/
def faultIs (o : Host.Outcome State Fault Refusal) (f : Fault) : Bool :=
  match o with
  | .next _ => false
  | .fault g => g == f
  | .refused _ => false

/-- The first n bytes of a buffer. -/
def firstBytes (m : Memory) (n : Nat) : List (Option Byte) := (List.range n).map (memGet m)

/-- The machine one step after the word is placed. -/
def runWord (w : Nat) (s : State) : Host.Outcome State Fault Refusal :=
  step (s.withFetchWord 32 w)

/-- Entry 0x40 of section 2.4 of 95_test_vectors.md. -/
def streamEntry : CatEntry :=
  { valid := true, kind := true, minLen := 8, recW := 16, recFirst := 6, recHdr := 6 }

/-- Entry 0x38 of section 2.4 of 95_test_vectors.md. -/
def flatEntry : CatEntry :=
  { valid := true, kind := false, minLen := 26, recW := 0, recFirst := 0, recHdr := 0 }

/-- E1's frame (95_test_vectors.md). -/
def frameE1 : List Nat := [0xA5, 5, 0, 0, 0, 0x38, 0xE9, 0xD2]

/-- The 40-byte frame of program P4, and the record registers of its REC.START. -/
def stream : State :=
  { resp [0xA5, 5, 0, 0, 0, 0x40, 0xE9, 3, 0, 0, 0, 0, 0x19, 3, 0xF, 8, 0, 5, 1, 0, 0, 0,
      0xEA, 3, 0, 0, 0, 0, 0x19, 3, 0xF, 0x11, 0x2D, 0x3B, 0, 0, 0, 0, 0x7C, 0x3D] with
    recW := 16, recFirst := 6, recHdr := 6, recCount := 2, recBase := 6 }

/-! ## Ill-formed commands (R93, R98) -/

theorem test_wf_crcRx : (Instr.crcRx 65535).wf = true ∧ (Instr.crcRx 65536).wf = false := by decide
theorem test_wf_frmEnc :
    (Instr.frmEnc 0xFF 65535).wf = true ∧ (Instr.frmEnc 0 65536).wf = false := by decide
theorem test_wf_fldU8 :
    (Instr.fldU8 true 65535).wf = true ∧ (Instr.fldU8 true 65536).wf = false := by decide
theorem test_wf_fldU16 :
    (Instr.fldU16 true 65535).wf = true ∧ (Instr.fldU16 false 65536).wf = false := by decide
theorem test_wf_fldU32 :
    (Instr.fldU32 true 65535).wf = true ∧ (Instr.fldU32 false 70000).wf = false := by decide
theorem test_wf_fldS8 :
    (Instr.fldS8 true 65535).wf = true ∧ (Instr.fldS8 true 65536).wf = false := by decide
theorem test_wf_fldYear :
    (Instr.fldYear true 65535).wf = true ∧ (Instr.fldYear false 65536).wf = false := by decide
theorem test_wf_fldDate6 :
    (Instr.fldDate6 true 65535).wf = true ∧ (Instr.fldDate6 false 65536).wf = false := by decide
theorem test_wf_fldIp :
    (Instr.fldIp true 65535).wf = true ∧ (Instr.fldIp false 65536).wf = false := by decide
theorem test_wf_fldAscii :
    (Instr.fldAscii true 65535).wf = true ∧ (Instr.fldAscii false 65536).wf = false := by decide

/-! ## One word per constructor: OFF16, IMM8, OP as R92 writes them -/

theorem test_decode_crcInit :
    decode (0b0000000000000000#16 ++ 0b00000000#8 ++ 0b00010000#8) = some .crcInit := by decide
theorem test_decode_crcByte :
    decode (0b0000000000000000#16 ++ 0b10000001#8 ++ 0b00010001#8) = some (.crcByte 0x81) := by
  decide
theorem test_decode_crcRx :
    decode (0b1000000000000001#16 ++ 0b00000000#8 ++ 0b00010010#8) = some (.crcRx 0x8001) := by
  decide
theorem test_decode_frmEnc :
    decode (0b0000000000000110#16 ++ 0b00111000#8 ++ 0b00100000#8) = some (.frmEnc 0x38 6) := by
  decide
theorem test_decode_frmDec :
    decode (0b0000000000000000#16 ++ 0b00000000#8 ++ 0b00100001#8) = some .frmDec := by decide
theorem test_decode_fldU8 :
    decode (0b0000000000000110#16 ++ 0b00000000#8 ++ 0b00110000#8) = some (.fldU8 false 6) := by
  decide
theorem test_decode_fldU16 :
    decode (0b0000000000000010#16 ++ 0b00000001#8 ++ 0b00110001#8) = some (.fldU16 true 2) := by
  decide
theorem test_decode_fldU32 :
    decode (0b0000000011001000#16 ++ 0b00000000#8 ++ 0b00110010#8) = some (.fldU32 false 200) := by
  decide
theorem test_decode_fldS8 :
    decode (0b1111111111111111#16 ++ 0b00000001#8 ++ 0b00110011#8) = some (.fldS8 true 65535) := by
  decide
theorem test_decode_fldYear :
    decode (0b0000000000000110#16 ++ 0b00000000#8 ++ 0b00110100#8) = some (.fldYear false 6) := by
  decide
theorem test_decode_fldDate6 :
    decode (0b0000000000000110#16 ++ 0b00000001#8 ++ 0b00110101#8) = some (.fldDate6 true 6) := by
  decide
theorem test_decode_fldIp :
    decode (0b0000000000001100#16 ++ 0b00000000#8 ++ 0b00110110#8) = some (.fldIp false 12) := by
  decide
theorem test_decode_fldAscii :
    decode (0b0000000000010000#16 ++ 0b00000000#8 ++ 0b00110111#8)
      = some (.fldAscii false 16) := by decide
theorem test_decode_rspCheck :
    decode (0b0000000000000000#16 ++ 0b01000000#8 ++ 0b01000000#8) = some (.rspCheck 0x40) := by
  decide
theorem test_decode_recStart :
    decode (0b0000000000000000#16 ++ 0b00000000#8 ++ 0b01000001#8) = some .recStart := by decide
theorem test_decode_recNext :
    decode (0b0000000000000000#16 ++ 0b00000000#8 ++ 0b01000010#8) = some (.recNext false) := by
  decide
theorem test_decode_recNextAtt :
    decode (0b0000000000000000#16 ++ 0b00000001#8 ++ 0b01000010#8) = some (.recNext true) := by
  decide

/-- Vectors C28, C29, F26, K7, K27, H1-H3: words that encode nothing. -/
theorem test_decode_rejects :
    [0x00010010, 0x00000110, 0x00060230, 0x00014040, 0x00000242, 0, 0xFF, 0x13, 0x22, 0x38, 0x43,
      0x00010021].all (fun n => (decode (BitVec.ofNat 32 n)).isNone) = true := by decide

/-- A word is four bytes, the low byte first (R65, R90); no other length is a word. -/
theorem test_decodeBytes :
    (decodeBytes [0x31, 0x01, 0x02, 0x00]).toOption = some (.fldU16 true 2) ∧
    (decodeBytes [0x10, 0, 0]).toOption = none ∧
    (decodeBytes [0x10, 0, 0, 0, 0]).toOption = none := by decide

/-! ## One step per command -/

/-- C19. -/
theorem test_crcInit :
    nextHas (runWord 0x10 { base with crc := 0x1234 })
      (fun t => t.crc == 0xFFFF && t.err == .ok && !busy t) = true := by decide
/-- C20. -/
theorem test_crcByte : nextHas (runWord 0x11 base) (fun t => t.crc == 0x40BF) = true := by decide
/-- C22. -/
theorem test_crcRx :
    nextHas (runWord 0x12
      { resp [0x31, 0x32, 0x33, 0x34, 0x35, 0x36, 0x37, 0x38, 0x39] with arg := 9 })
      (fun t => t.crc == 0x4B37 && t.err == .ok) = true := by decide +kernel
/-- C25. -/
theorem test_crcRx_range :
    nextHas (runWord 0x00090012 { base with rxlen := 8, crc := 0xD2E9 })
      (fun t => t.err == .range && t.crc == 0xD2E9) = true := by decide
/-- E5. -/
theorem test_frmEnc :
    nextHas (runWord 0x00063820 { base with txbuf := buf 6 [0x19, 3, 0xF, 0xA, 0x1E, 0] })
      (fun t => firstBytes t.txbuf 15 == (bytes [0xA5, 5, 0, 0, 0, 0x38, 0x19, 3, 0xF, 0xA, 0x1E,
        0, 0xC2, 0x54]).map some ++ [none] && t.txlen == 14 && t.crc == 0x54C2) = true := by decide +kernel
/-- E12. -/
theorem test_frmEnc_unwritten :
    faultIs (runWord 0x00023820 { base with txbuf := buf 6 [1] }) (.unwrittenRead .tx 7) = true := by
  decide
/-- D7. -/
theorem test_frmDec :
    nextHas (runWord 0x21 (resp [0xA5, 5, 0, 0, 0, 0x38, 0, 0, 0xC4, 0xB8]))
      (fun t => t.err == .ok && !t.ckok && t.fDevid == 5 && t.fCmd == 0x38 && t.fPlen == 2 &&
        t.fCksum == 0xCDCFB8C4 && t.crc == 0xCDCF) = true := by decide +kernel
/-- D6. -/
theorem test_frmDec_strict :
    nextHas (runWord 0x21 { resp [0xA5, 5, 0, 0, 0, 0x38, 0xE9, 0xD3] with strict := true })
      (fun t => statusWord t == 0x300 && t.fCksum == 0xD2E9D3E9) = true := by decide +kernel
/-- F1. -/
theorem test_fldU8 : nextHas (runWord 0x00060030 fields) (fun t => t.res0 == 0x34) = true := by
  decide
/-- F7: the high byte is past the end. -/
theorem test_fldU16 :
    nextHas (runWord 0x000B0031 { fields with rxbuf := buf 11 [0xAB] })
      (fun t => t.res0 == 0xAB) = true := by decide
/-- F25. -/
theorem test_fldU16_rel :
    nextHas (runWord 0x00020131 { fields with recBase := 4 }) (fun t => t.res0 == 0x1234) = true := by
  decide
/-- F5. -/
theorem test_fldU32 : nextHas (runWord 0x00090032 fields) (fun t => t.res0 == 0x56) = true := by
  decide
/-- F10, byte 0xFE. -/
theorem test_fldS8 :
    nextHas (runWord 0x00060033 { fields with rxbuf := buf 6 [0xFE] })
      (fun t => t.res0 == 0xFFFFFFFE) = true := by decide
/-- F11, byte 0x64. -/
theorem test_fldYear :
    nextHas (runWord 0x00060034 { fields with rxbuf := buf 6 [0x64] })
      (fun t => t.res0 == 2100) = true := by decide
/-- F14. -/
theorem test_fldDate6 :
    nextHas (runWord 0x00060035 { fields with rxbuf := buf 6 [0x19, 0xD, 0, 0x63, 0xFF, 0x3C] })
      (fun t => t.res0 == 2025 && t.res1 == 0xFF63000D && t.res2 == 0x3C) = true := by decide
/-- F16. -/
theorem test_fldIp :
    nextHas (runWord 0x00060036 { fields with rxbuf := buf 6 [0xC0, 0xA8, 1, 0x64] })
      (fun t => t.res0 == 0x6401A8C0 && t.strlen == 13 && firstBytes t.strbuf 13 ==
        (bytes [0x31, 0x39, 0x32, 0x2E, 0x31, 0x36, 0x38, 0x2E, 0x31, 0x2E, 0x31, 0x30,
          0x30]).map some) = true := by decide
/-- F21. -/
theorem test_fldAscii :
    nextHas (runWord 0x00060037 { base with
        rxbuf := buf 6 [0x41, 0x42, 0, 0x43, 0, 0, 0, 0], rxlen := 14, arg := 14 })
      (fun t => t.strlen == 3 &&
        firstBytes t.strbuf 4 == (bytes [0x41, 0x42, 0x43]).map some ++ [none]) = true := by decide
/-- F22. -/
theorem test_fldAscii_empty :
    nextHas (runWord 0x00060037 { fields with arg := 5 })
      (fun t => t.strlen == 0 && t.err == .ok) = true := by decide
/-- K3. -/
theorem test_rspCheck :
    nextHas (runWord 0x4040 { base with cat := [(0x40, streamEntry)], rxlen := 8 })
      (fun t => t.err == .ok && t.catKind && t.recW == 16 && t.recFirst == 6 && t.recHdr == 6)
      = true := by decide
/-- K6: the lookup comes before the length. -/
theorem test_rspCheck_order :
    nextHas (runWord 0x3840 { base with cat := [(0x38, { flatEntry with valid := false })] })
      (fun t => t.err == .unknownCommand) = true := by decide
/-- K12. -/
theorem test_recStart :
    nextHas (runWord 0x41 { base with
        recFirst := 6, recHdr := 6, rxlen := 40, recIdx := 1, recCount := 1, endFlag := true })
      (fun t => t.recCount == 2 && t.recIdx == 0 && t.recBase == 6 && !t.endFlag) = true := by decide
/-- K15. -/
theorem test_recStart_badParam :
    nextHas (runWord 0x41 { base with recW := 0, recCount := 7, endFlag := true })
      (fun t => t.err == .badParam && t.recCount == 7 && t.endFlag) = true := by decide
/-- K19. -/
theorem test_recNext_att :
    nextHas (runWord 0x142 stream)
      (fun t => t.recIdx == 1 && t.recBase == 6 && !t.endFlag && t.res0 == 0x07E903E9 &&
        t.res1 == 0x00080F03 && t.res2 == 5 && t.res3 == 1) = true := by decide
/-- K26: exhaustion is tested before the width. -/
theorem test_recNext_exhausted :
    nextHas (runWord 0x142 { base with recW := 4, recCount := 1, recIdx := 1 })
      (fun t => t.endFlag && t.err == .ok && t.recIdx == 1) = true := by decide
/-- H1. -/
theorem test_illegalOp :
    nextHas (runWord 0 { base with crc := 7 })
      (fun t => statusWord t == 0x600 && t.crc == 7) = true := by decide

/-! ## The host port -/

/-- The answer of a host read is this datum. -/
def readIs (r : Except Fault Word) (v : Word) : Bool :=
  match r with
  | .ok x => x == v
  | .error _ => false

/-- The answer of a host write is a state with this property. -/
def writeHas (r : Except Fault State) (p : State → Bool) : Bool :=
  match r with
  | .ok t => p t
  | .error _ => false

/-- H4, H5, H13, H16. -/
theorem test_host_reads :
    (readIs (hostRead 0x00000 .four base) 0x36314B43 && readIs (hostRead 0x00004 .four base) 0x100 &&
      readIs (hostRead 0x00068 .four base) 0 && readIs (hostRead 0x00100 .four base) 0 &&
      readIs (hostRead 0x40000 .four base) 0 && readIs (hostRead 0x00010 .four base) 0) = true := by
  decide
/-- H6, H9. -/
theorem test_host_busErrors :
    faultIs (hostStep (.write 0x10001 .four 5) base) (.hostBusError 0x10001 4) = true ∧
    faultIs (hostStep (.read 0x00018 .one) base) (.hostBusError 0x00018 1) = true := by decide
/-- H7, H8, H12. -/
theorem test_host_windows :
    writeHas (hostWrite 0x10004 .four 5 base)
      (fun t => firstBytes t.txbuf 8 == [none, none, none, none] ++ (bytes [5, 0, 0, 0]).map some)
      = true ∧
    writeHas (hostWrite 0x20006 .two 0x1234 base)
      (fun t => memGet t.rxbuf 6 == some 0x34 && readIs (hostRead 0x20007 .one t) 0x12) = true ∧
    writeHas (hostWrite 0x30000 .one 0x41 base) (fun t => t == base) = true := by decide
/-- H10, H11, H14, H15. -/
theorem test_host_registers :
    writeHas (hostWrite 0x024 .four 0x00012345 base) (fun t => t.rxlen == 0x100) = true ∧
    writeHas (hostWrite 0x024 .four 0xFFFF0010 base) (fun t => t.rxlen == 0x10) = true ∧
    writeHas (hostWrite 0x020 .four 1 base) (fun t => t == base) = true ∧
    writeHas (hostWrite 0x008 .four 0xFFFFFFFF base)
      (fun t => readIs (hostRead 0x008 .four t) 1) = true := by decide
/-- H17: the second CMD write is dropped. H19, H20. -/
theorem test_host_overrun :
    writeHas (hostWrite 0x010 .four 0x3111 { base with pending := some 0x10 })
      (fun t => t.ovr && t.pending == some 0x10) = true ∧
    writeHas (hostWrite 0x00C .four 8 { base with ovr := true }) (fun t => statusWord t == 0) = true ∧
    writeHas (hostWrite 0x00C .four 0xFFFFFFF7 { base with ovr := true, err := .illegalOp })
      (fun t => statusWord t == 0x608) = true := by decide
/-- H21. -/
theorem test_host_busyWrite :
    faultIs (hostStep (.write 0x20000 .one 0) { base with pending := some 0x10 })
      (.hostWriteWhileBusy 0x20000) = true := by decide
/-- The catalog words of section 2.4: K3's entry as the host reads it. -/
theorem test_host_catalog :
    (List.range 4).map (catWord streamEntry) = [0x00080003, 0x00060010, 6, 0] ∧
    catSetWord (catSetWord (catSetWord CatEntry.zero 0 0x00080003) 1 0x00060010) 2 6
      = streamEntry := by decide

/-! ## The assembler (R98) -/

/-- The lines of R98's examples as 95_test_vectors.md gives their words. -/
theorem test_assemble :
    (assembleLine "EXEC".toList).toOption = none ∧
    (assembleLine "FRM.ENC 0x38, 6 ; a comment".toList).toOption
      = some (some (.frmEnc 0x38 6)) ∧
    (assembleLine "FLD.U16 rec+2".toList).toOption = some (some (.fldU16 true 2)) ∧
    (assembleLine "REC.NEXT.ATT".toList).toOption = some (some (.recNext true)) ∧
    (assembleLine "CRC.BYTE 256".toList).toOption = none ∧
    (assembleLine "; nothing".toList).toOption = some none := by decide

/-! ## Memory after reset -/

theorem test_reset_memory :
    Memory.wf State.reset.txbuf = true ∧ Memory.wf State.reset.rxbuf = true ∧
    Memory.wf State.reset.strbuf = true ∧ Catalog.wf State.reset.cat = true := by decide

/-! ## Witnesses: for every obligation with hypotheses, a state and operands that meet them -/

/-- `base` with the word pending, its latency not over, and the host at this program. -/
def pendingWith (w : Word) (d : Nat) (prog : List HostStmt) : State :=
  { base with pending := some w, delay := d, hostProg := prog }

/-- A block of sixteen-byte buffers, the smallest there is, with eight payload bytes staged. -/
def small : State :=
  { base with bufBytes := 16, txbuf := buf 6 [1, 2, 3, 4, 5, 6, 7, 8] }

/-- `small` with the seventh payload byte never written. -/
def smallHole : State := { small with txbuf := buf 6 [1, 2, 3, 4, 5, 6] }

/-- `base` with E2's payload staged. -/
def staged : State := { base with txbuf := buf 6 [0, 0] }

/-- A block just after FRM.ENC of E1 and FLD.ASCII of one character. -/
def afterE1 : State :=
  { base with
    txbuf := buf 0 frameE1, txlen := 8, strbuf := buf 0 [0x41], strlen := 1, recCount := 2
    recIdx := 2 }

/-- A response of twenty bytes, byte 4 never written. -/
def holed : State := { base with rxbuf := buf 0 [0xA5, 5, 0, 0] ++ buf 5 [1, 2], rxlen := 20 }

/-- A predicate on the bytes of a list from the predicate at each index. -/
theorem all_getElem? {p : Nat → Byte → Prop} (bs : List Byte)
    (h : ∀ k, k < bs.length → p k (bs.getD k 0)) : ∀ k v, bs[k]? = some v → p k v := by
  intro k v hk
  obtain ⟨hlt, rfl⟩ := List.getElem?_eq_some_iff.mp hk
  simpa [hlt] using h k hlt

/-- StepRunsDecodedCommand: no statement left, a POLL, a latency that is over; and a placed word. -/
theorem test_witness_stepRuns :
    engineDue (pendingWith 0x11 3 []) 0x11 ∧ engineDue (pendingWith 0x11 3 [.poll]) 0x11 ∧
    engineDue (pendingWith 0x11 0 [.goto 0]) 0x11 ∧ decode 0x11 = some (.crcByte 0) ∧
    decodeTableWord 32 (0xFFFF0137 : Word).toNat = some (.fldAscii true 65535) := by
  unfold engineDue; decide

/-- IllegalWordOnlyRaisesIllegalOp, on C28's word. -/
theorem test_witness_illegalWord :
    engineDue (pendingWith 0x00010010 0 []) 0x00010010 ∧
    ∀ row ∈ opcodeRows, (0x00010010 : Word) &&& row.1 ≠ row.2 := by
  refine ⟨?_, ?_⟩
  · unfold engineDue; decide
  · simp [opcodeRows]

/-- StepOtherMoves: idle, a host statement with nothing pending, a host statement before the
engine. -/
theorem test_witness_otherMoves :
    (base.pending = none ∧ hostNext base = none) ∧
    (({ base with hostProg := [.poll] } : State).pending = none ∧
      hostNext { base with hostProg := [.poll] } = some .poll) ∧
    ((pendingWith 0x10 1 [.goto 0]).pending = some 0x10 ∧
      hostNext (pendingWith 0x10 1 [.goto 0]) = some (.goto 0) ∧ HostStmt.goto 0 ≠ .poll ∧
      (pendingWith 0x10 1 [.goto 0]).delay ≠ 0) := by decide

/-- PendingCommandEnds: a command that ends after its latency of one, and one that faults. -/
theorem test_witness_pendingEnds :
    (pendingWith 0x10 1 [.goto 0]).pending = some 0x10 ∧
    nextHas (Host.Core.run core 2 (pendingWith 0x10 1 [.goto 0])) (fun t => t.pending == none)
      = true ∧
    faultIs (Host.Core.run core 1 { pendingWith 0x30 0 [] with rxlen := 1 }) (.unwrittenRead .rx 0)
      = true := by decide

/-- InvKeptByStep: a state with a frame, a string and an exhausted iterator, whose step is its
own next state. -/
theorem test_witness_invKept : GoodState afterE1 ∧ step afterE1 = .next afterE1 := by
  refine ⟨⟨?_, ?_, ?_, ?_, ?_, ?_⟩, rfl⟩
  · unfold paramLegal; decide
  · unfold buffersWf; decide
  · decide
  · unfold lengthsFit; decide
  · unfold resultsWritten; decide
  · unfold iteratorInRange; decide

/-- CommandsStopOnlyOnUnwrittenBytes: a fault of FRM.ENC (E12) and one of a field command. -/
theorem test_witness_commandFaults :
    faultIs (exec (.frmEnc 0x38 2) { base with txbuf := buf 6 [1] }) (.unwrittenRead .tx 7) = true ∧
    faultIs (exec (.fldU16 false 3) holed) (.unwrittenRead .rx 4) = true := by decide

/-- UnwrittenByteStopsTheCommand, clause by clause, on a byte that is the last or the first one
read. -/
theorem test_witness_unwritten :
    ((Instr.fldU32 false 1, 4) ∈ fieldWidths false 1 0 ∧ Missing holed (ea false 1 holed + 3)) ∧
    ((Instr.fldAscii false 4, 2) ∈ fieldWidths false 4
        (ea false ({ holed with arg := 6 } : State).arg.toNat holed - ea false 4 holed) ∧
      Missing holed (ea false 4 holed + 0)) ∧
    (0 + ({ holed with arg := 20 } : State).arg.toNat ≤ holed.rxlen.toNat ∧ Missing holed (0 + 19)) ∧
    (8 ≤ ({ base with rxlen := 8 } : State).rxlen.toNat ∧ Missing { base with rxlen := 8 } 0) ∧
    (8 ≤ holed.rxlen.toNat ∧ memGet holed.rxbuf 0 = some 0xA5 ∧ Missing holed 19) ∧
    (let s : State := { holed with recCount := 1, recW := 16, recFirst := 4 }
     s.recIdx.toNat < s.recCount.toNat ∧ 16 ≤ s.recW.toNat ∧
     4 = s.recFirst.toNat + s.recIdx.toNat * s.recW.toNat ∧ Missing s (4 + 0) ∧
     Missing s (4 + 15)) := by
  unfold Missing ea fieldWidths; decide +kernel

/-- DecodeEncodeRoundTrip and DecodedWordIsTheEncoding, at the largest operands. -/
theorem test_witness_roundTrip :
    (Instr.frmEnc 0xFF 65535).wf = true ∧ decode 0xFFFFFF20 = some (.frmEnc 0xFF 65535) := by decide

/-- DecodeAcceptsExactlyTheTable: a word that fits a row, taken twice. -/
theorem test_witness_rows :
    ((0xFFFF00FF, 0x11) : Word × Word) ∈ opcodeRows ∧ (0xFF11 : Word) &&& 0xFFFF00FF = 0x11 := by
  decide

/-- AssemblerNeverTruncates: a text that assembles, with both operands at their largest, and the
smallest numbers that do not fit. -/
theorem test_witness_assembler :
    assemble "FRM.ENC".toList [.num 255, .num 65535] = .ok (.frmEnc 255 65535) ∧
    (Instr.fldAscii true 65535).wf = true ∧
    asmText (.fldAscii true 65535) = ("FLD.ASCII".toList, [.recPlus 65535]) ∧
    255 < 256 ∧ "RSP.CHECK" ∈ byteMnemonics ∧ 65535 < 65536 ∧ "FLD.ASCII" ∈ fieldMnemonics := by
  decide

/-- CrcRxFoldsTheRange: C25 and C24 past the end and at it, and C22's range. -/
theorem test_witness_crcRx :
    (8 : Half).toNat < 9 + (0 : Half).toNat ∧ 8 + (0 : Half).toNat ≤ (8 : Half).toNat ∧
    (let s : State := { resp [0x31, 0x32, 0x33] with arg := 2 }
     1 + s.arg.toNat ≤ s.rxlen.toNat ∧ (bytes [0x32, 0x33]).length = s.arg.toNat ∧
     HoldsAt s.rxbuf 1 (bytes [0x32, 0x33])) := by
  unfold HoldsAt; decide

/-- CrcComputeMacroComputes, on the whole of a three-byte response. -/
theorem test_witness_crcCompute :
    (resp [0x31, 0x32, 0x33]).pending = none ∧ 0 + 3 ≤ (resp [0x31, 0x32, 0x33]).rxlen.toNat ∧
    (bytes [0x31, 0x32, 0x33]).length = 3 ∧
    HoldsAt (resp [0x31, 0x32, 0x33]).rxbuf 0 (bytes [0x31, 0x32, 0x33]) := by
  unfold HoldsAt; decide

/-- FrmEncBuildsTheFrame: E10, a payload byte never written, and E11, at BUF_BYTES = 16. -/
theorem test_witness_frmEnc :
    small.bufBytes < 8 + 9 ∧
    (8 + 8 ≤ smallHole.bufBytes ∧ 6 < 8 ∧ memGet smallHole.txbuf (6 + 6) = none) ∧
    (8 + 8 ≤ small.bufBytes ∧ small.bufBytes ≤ 65535 ∧
      (bytes [1, 2, 3, 4, 5, 6, 7, 8]).length = 8 ∧
      HoldsAt small.txbuf 6 (bytes [1, 2, 3, 4, 5, 6, 7, 8])) := by
  unfold HoldsAt; decide

/-- FrmDecSplitsTheFrame: D10, D11 and D1. -/
theorem test_witness_frmDec :
    (resp [0xA5, 5, 0, 0, 0, 0x38, 0xE9]).rxlen.toNat < 8 ∧
    (let s := resp [0x5A, 5, 0, 0, 0, 0x38, 0xE9, 0xD2]
     8 ≤ s.rxlen.toNat ∧ memGet s.rxbuf 0 = some 0x5A ∧ (0x5A : Byte) ≠ 0xA5) ∧
    (let s := resp frameE1
     8 ≤ s.rxlen.toNat ∧ (bytes frameE1).length = s.rxlen.toNat ∧
     HoldsAt s.rxbuf 0 (bytes frameE1) ∧ (bytes frameE1)[0]? = some 0xA5) := by
  unfold HoldsAt; decide

/-- FrameRoundTrip, on E2: the frame FRM.ENC builds, and a receiver that holds its bytes. -/
theorem test_witness_frameRoundTrip :
    staged.bufBytes ≤ 65535 ∧ (bytes [0, 0]).length = 2 ∧ HoldsAt staged.txbuf 6 (bytes [0, 0]) ∧
    nextHas (exec (.frmEnc 0x38 2) staged) (fun t => t.err == .ok && t.txlen == 10 &&
      firstBytes t.txbuf 10 == firstBytes (resp [0xA5, 5, 0, 0, 0, 0x38, 0, 0, 0xCF, 0xCD]).rxbuf 10)
      = true ∧
    (resp [0xA5, 5, 0, 0, 0, 0x38, 0, 0, 0xCF, 0xCD]).rxlen = 10 := by
  unfold HoldsAt; decide +kernel

/-- OneByteFieldsDecode to FldIpWritesTheDottedQuad: the last byte of the response, the first byte
past it, and an operand relative to REC_BASE. -/
theorem test_witness_lenient :
    ReadsB fields (ea false 11 fields) 0 ∧ ReadsB fields (ea false 6 fields) 0x34 ∧
    ReadsB fields (ea false 11 fields + 1) 0 ∧ ReadsB fields (ea false 65535 fields + 5) 0 ∧
    ReadsB { fields with recBase := 4 } (ea true 2 { fields with recBase := 4 }) 0x34 := by
  unfold ReadsB ea; decide

/-- FldAsciiKeepsNonZeroBytes: F24's range, which passes the end of the response. -/
theorem test_witness_fldAscii :
    (let s : State := { fields with arg := 14 }
     (bytes [0x34, 0x12, 0x78, 0x56, 0, 0, 0, 0]).length = ea false s.arg.toNat s - ea false 6 s ∧
     ∀ k v, (bytes [0x34, 0x12, 0x78, 0x56, 0, 0, 0, 0])[k]? = some v →
       ReadsB s (ea false 6 s + k) v) := by
  refine ⟨by decide, all_getElem? _ ?_⟩
  unfold ReadsB ea
  decide

/-- FieldCommandsChangeOnlyResults, and the statements about the next state of any command: one that
answers a next state, and the first STRBUF index past its string. -/
theorem test_witness_nextState :
    isField (.fldIp false 200) = true ∧ writesCrc (.fldIp false 200) = false ∧
    Instr.fldIp false 200 ≠ .frmDec ∧
    nextHas (exec (.fldIp false 200) fields)
      (fun t => t.strlen == 7 && decide (t.strlen.toNat ≤ 7)) = true ∧
    nextHas (exec (.fldAscii false 0) fields) (fun t => decide (t.strlen.toNat ≤ 0)) = true := by
  decide

/-- FieldPastTheEndYieldsDefaults: at the end itself. -/
theorem test_witness_pastTheEnd : fields.rxlen.toNat ≤ ea false 12 fields := by decide

/-- RspCheckLooksUpThenChecks: K1, K2 and K3, a stream entry at its MIN_LEN, and a flat entry. -/
theorem test_witness_rspCheck :
    (catGet base.cat 0x40).valid = false ∧
    (let s : State := { base with cat := [(0x38, flatEntry), (0x40, streamEntry)], rxlen := 7 }
     (catGet s.cat (0x40 : Byte).toNat).valid = true ∧
     s.rxlen.toNat < (catGet s.cat (0x40 : Byte).toNat).minLen.toNat) ∧
    (let s : State := { base with cat := [(0x38, flatEntry), (0x40, streamEntry)], rxlen := 26 }
     (catGet s.cat (0x40 : Byte).toNat).valid = true ∧
     (catGet s.cat (0x40 : Byte).toNat).minLen.toNat ≤ s.rxlen.toNat ∧
     (catGet s.cat (0x38 : Byte).toNat).valid = true ∧
     (catGet s.cat (0x38 : Byte).toNat).minLen.toNat ≤ s.rxlen.toNat) := by decide

/-- RecStartCountsRecords: K15, K16, and F = H with L < H, L = H and K12. -/
theorem test_witness_recStart :
    ({ base with recW := 0 } : State).recW.toNat = 0 ∧
    ({ base with recFirst := 7, recHdr := 6 } : State).recHdr.toNat
      < ({ base with recFirst := 7, recHdr := 6 } : State).recFirst.toNat ∧
    (stream.recW.toNat ≠ 0 ∧ stream.recFirst.toNat ≤ stream.recHdr.toNat ∧
      stream.recHdr.toNat ≤ stream.rxlen.toNat) ∧
    (let s : State := { stream with rxlen := 5 }
     s.recW.toNat ≠ 0 ∧ s.recFirst.toNat ≤ s.recHdr.toNat ∧ s.rxlen.toNat < s.recHdr.toNat) := by
  decide

/-- RecNextProducesOrEnds: exhausted at REC_IDX = REC_COUNT, K24, and K25. -/
theorem test_witness_recNext :
    ({ base with recCount := 1, recIdx := 1 } : State).recCount.toNat
      ≤ ({ base with recCount := 1, recIdx := 1 } : State).recIdx.toNat ∧
    (let s : State := { base with recW := 15, recCount := 1 }
     s.recIdx.toNat < s.recCount.toNat ∧ s.recW.toNat < 16) := by decide

/-- RecNextProducesOrEnds, its clause for ATT = 1: the first record of P4; its reserved bytes 2 to 5 are not read. -/
theorem test_witness_recNextAtt :
    stream.recIdx.toNat < stream.recCount.toNat ∧ 16 ≤ stream.recW.toNat ∧
    6 = stream.recFirst.toNat + stream.recIdx.toNat * stream.recW.toNat ∧
    (bytes [0xE9, 3, 9, 9, 9, 9, 0x19, 3, 0xF, 8, 0, 5, 1, 0, 0, 0]).length = 16 ∧
    ∀ k v, (bytes [0xE9, 3, 9, 9, 9, 9, 0x19, 3, 0xF, 8, 0, 5, 1, 0, 0, 0])[k]? = some v →
      k < 2 ∨ 6 ≤ k → ReadsB stream (6 + k) v := by
  refine ⟨by decide, by decide, by decide, by decide, all_getElem? _ ?_⟩
  unfold ReadsB
  decide

/-- RecordsStayInsideTheResponse: REC.START on P4's frame, an iterator that fits it and a step that
leaves the record registers alone, and the second of its two records (K20). -/
theorem test_witness_recordsStay :
    nextHas (exec .recStart stream) (fun t => t.err == .ok && t.recCount == 2) = true ∧
    stream.recHdr.toNat ≤ stream.rxlen.toNat ∧
    IteratorFits stream ∧ step stream = .next stream ∧
    IteratorFits { stream with recIdx := 1 } ∧
    nextHas (exec (.recNext true) { stream with recIdx := 1 })
      (fun t => t.err == .ok && !t.endFlag && t.recBase == 22) = true := by
  refine ⟨by decide, by decide, ?_, rfl, ?_, by decide⟩ <;> (unfold IteratorFits; decide)

/-- CkokReportsFrmDecOnly: D1. -/
theorem test_witness_ckok :
    nextHas (exec .frmDec (resp frameE1)) (fun t => t.ckok) = true := by decide +kernel

/-- OvrSetAndClearedOnlyByTheHost and CmdWriteAcceptedOrDropped: a command pending; a step that sets
OVR, one that clears it, and a reset event that clears it. -/
theorem test_witness_ovr :
    nextHas (step (pendingWith 0x10 1 [.write 0x010 .four 0x11])) (fun t => t.ovr) = true ∧
    nextHas (step { base with ovr := true, hostProg := [.write 0x00C .four 8] }) (fun t => !t.ovr)
      = true ∧
    nextHas (step { base with ovr := true, hostProg := [.assertReset] }) (fun t => !t.ovr)
      = true := by decide

/-- OtherCommandsIgnoreArg: a command that takes no operand from ARG. -/
theorem test_witness_ignoresArg : usesArg (.fldIp true 0) = false := by decide

/-- FailedCommandWritesOnlyItsCode: a failing CRC.RX, and each failure of FRM.DEC. -/
theorem test_witness_failed :
    nextHas (exec (.crcRx 1) base) (fun t => t.err != .ok) = true ∧
    nextHas (exec .frmDec base) (fun t => t.err == .frameShort) = true ∧
    nextHas (exec .frmDec (resp [0, 0, 0, 0, 0, 0, 0, 0])) (fun t => t.err == .frameBadHeader)
      = true ∧
    nextHas (exec .frmDec { resp [0xA5, 5, 0, 0, 0, 0x38, 0xE9, 0xD3] with strict := true })
      (fun t => t.err == .checksumMismatch) = true := by decide +kernel

/-- CsrMapReads, CsrMapWrites: nothing pending, and registers of both lists. -/
theorem test_witness_csr :
    base.pending = none ∧ ((0x064, base.recBase) ∈ csrTable base) ∧ 0x064 ∈ readOnlyAddrs := by
  unfold csrTable; decide

/-- BusErrorExactly: misaligned, too narrow, and allowed. -/
theorem test_witness_busError :
    ((0x10001 : HostAddr).toNat % widthBytes .four ≠ 0) ∧
    ((0x1FFE : HostAddr).toNat < 0x2000 ∧ PortWidth.two ≠ .four) ∧
    ((0x0FE : HostAddr).toNat < 0x100 ∧ PortWidth.two ≠ .four) ∧
    ((0x1FFFE : HostAddr).toNat % widthBytes .two = 0 ∧ ¬ (0x1FFFE : HostAddr).toNat < 0x2000) := by
  decide

/-- ReservedAddressesReadZero: each reserved range at its ends, and the first byte the buffer does not
have; a misaligned one. -/
theorem test_witness_reserved :
    base.pending = none ∧ reservedAddr base 0x68 ∧ reservedAddr base 0xFFF ∧
    reservedAddr base 0x2000 ∧ reservedAddr base 0xFFFF ∧ reservedAddr base 0x10100 ∧
    reservedAddr base 0x3FFFF ∧ reservedAddr base 0x40000 ∧
    (0x68 : HostAddr).toNat % widthBytes .four = 0 ∧ (0xFFF : HostAddr).toNat % widthBytes .two ≠ 0 := by
  unfold reservedAddr; decide

/-- WindowWriteStoresLittleEndian: the last word of a window, and the last word of the buffer. -/
theorem test_witness_windowWrite :
    base.pending = none ∧ BufferId.tx ≠ .str ∧ BufferId.rx ≠ .str ∧ 65532 < 65536 ∧
    65532 % widthBytes .four = 0 ∧ 3 < widthBytes .four ∧ 252 + 3 < base.bufBytes := by decide

/-- WindowReadsLittleEndian: bytes of the buffer, bytes past it, an access that holds both, a byte
never written, and 2- and 4-byte reads whose last byte alone was never written. -/
theorem test_witness_windowRead :
    (let s : State := { fields with bufBytes := 18, rxbuf := buf 16 [0x34, 0x12] }
     s.pending = none ∧ 16 < 65536 ∧ 16 % 4 = 0 ∧ WindowByte s .rx 16 0x34 ∧
     WindowByte s .rx (16 + 1) 0x12 ∧ WindowByte s .rx (16 + 2) 0 ∧ WindowByte s .rx (16 + 3) 0 ∧
     15 < s.bufBytes ∧ memGet (bufferOf .rx s) 15 = none) ∧
    (let s : State := { base with txbuf := buf 252 [1, 2, 3] }
     s.pending = none ∧ 252 < 65536 ∧ 252 % widthBytes .four = 0 ∧ 3 < widthBytes .four ∧
     252 + 3 < s.bufBytes ∧ memGet (bufferOf .tx s) (252 + 3) = none ∧ 254 < 65536 ∧
     254 % widthBytes .two = 0 ∧ 1 < widthBytes .two ∧ 254 + 1 < s.bufBytes ∧
     memGet (bufferOf .tx s) (254 + 1) = none) := by
  unfold WindowByte; decide

/-- The lowest of several bytes never written is named (the model's choice, log entry 8), and a byte
past the first one stops the read too. -/
theorem test_hostRead_unwritten :
    (hostRead (bufAddr .tx 252) .four { base with txbuf := buf 252 [1, 2, 3] } ==
      .error (.unwrittenRead .tx 255)) = true ∧
    (hostRead (bufAddr .tx 252) .four { base with txbuf := buf 252 [1] } ==
      .error (.unwrittenRead .tx 253)) = true := by decide

/-- CatalogWordReadsBack: the last word of the last entry, another word, and another entry. -/
theorem test_witness_catalog :
    (let s : State := { base with cat := [(0x40, streamEntry), (255, flatEntry)] }
     s.pending = none ∧ Catalog.wf s.cat = true ∧ 255 < 256 ∧ 3 < 4 ∧ (255, 2) ≠ (255, 3) ∧
     0x40 ≠ 255) := by
  decide

/-- BusyPortRules: an access that is allowed while a command is pending, at an address that is neither
STATUS nor CMD. -/
theorem test_witness_busyPort :
    (pendingWith 0x10 1 []).pending = some 0x10 ∧ accessOk 0x3FFFF .one = true ∧
    (0x3FFFF : HostAddr) ≠ 0x00C ∧ (0x3FFFF : HostAddr) ≠ 0x010 := by decide

/-- HostReadsHaveNoSideEffect and HostNeverWritesEngineRegisters: a read and a write that are no
faults. -/
theorem test_witness_hostSteps :
    nextHas (hostStep (.read 0x00C .four) base) (fun t => t.hostReads == [0]) = true ∧
    HostStmt.write 0x01C .four 7 ≠ .assertReset ∧
    nextHas (hostStep (.write 0x01C .four 7) base) (fun t => t.devid == 7) = true := by decide

end Sys2Proof.Tests
end

section
/-! SUPPORT. The invariant GoodState of Safety.lean (R7, R34, R35, R38, R41, R49, R51, R62, R184): it holds after reset, and every update a step can make keeps it. -/

namespace Sys2Proof.Safety

open Sys2Proof.Machine

/-! What the invariant says of one buffer. -/

/-- What GoodState asks of a buffer of `cap` bytes whose first `len` bytes are a result: canonical
form, no byte outside the buffer, and the result written. RXBUF holds no result, so its `len` is 0. -/
structure GoodBuffer (cap len : Nat) (m : Memory) : Prop where
  wf : Memory.wf m = true
  within : Memory.within m cap = true
  written : ∀ i, i < len → (memGet m i).isSome = true

/-- Writing bytes right after the written ones makes the written part that much longer. -/
theorem GoodBuffer.append {cap len : Nat} {m : Memory} (h : GoodBuffer cap len m)
    (vs : List Byte) (hfit : len + vs.length ≤ cap) :
    GoodBuffer cap (len + vs.length) (memPutAll m len vs) where
  wf := memPutAll_wf vs len h.wf
  within := memPutAll_within vs h.within hfit
  written i hi := by
    by_cases hlt : i < len
    · rw [memGet_memPutAll_outside vs m (.inl hlt)]
      exact h.written i hlt
    · obtain ⟨k, rfl⟩ := Nat.exists_eq_add_of_le (Nat.not_lt.mp hlt)
      have hk : k < vs.length := by omega
      rw [memGet_memPutAll_inside vs m hk]
      simpa using hk

theorem GoodBuffer.memPut {cap len i : Nat} {m : Memory} (h : GoodBuffer cap len m) (v : Byte)
    (hi : i < cap) : GoodBuffer cap len (Machine.memPut m i v) where
  wf := memPut_wf i v h.wf
  within := memPut_within v h.within hi
  written j hj := by
    by_cases hji : j = i
    · rw [hji, memGet_memPut_same]
      rfl
    · rw [memGet_memPut_other m v hji]
      exact h.written j hj

/-- The empty result asks nothing of the buffer's bytes. -/
theorem GoodBuffer.dropResult {cap len : Nat} {m : Memory} (h : GoodBuffer cap len m) :
    GoodBuffer cap 0 m :=
  ⟨h.wf, h.within, fun _ hi => absurd hi (Nat.not_lt_zero _)⟩

/-- Bytes that a range read found are written, so the written part reaches to the range's end. -/
theorem GoodBuffer.extend_of_read {cap len i n : Nat} {m : Memory} {b : BufferId}
    {vs : List Byte} (h : GoodBuffer cap len m) (hread : readRange b m i n = .ok vs)
    (hi : i ≤ len) : GoodBuffer cap (i + n) m where
  wf := h.wf
  within := h.within
  written j hj := by
    by_cases hlt : j < i
    · exact h.written j (by omega)
    · obtain ⟨k, rfl⟩ := Nat.exists_eq_add_of_le (Nat.not_lt.mp hlt)
      obtain ⟨hlen, hall⟩ := readRange_ok_iff.mp hread
      rw [hall k (by omega)]
      simp only [isSome_getElem?]
      omega

/-! The invariant as its parts. -/

section
variable {s : State} (h : GoodState s)
include h

theorem GoodState.tx : GoodBuffer s.bufBytes s.txlen.toNat s.txbuf := by
  obtain ⟨⟨hwf, hin⟩, -, -⟩ := h.buffers
  obtain ⟨hwritten, -⟩ := h.written
  exact ⟨hwf, hin, hwritten⟩

theorem GoodState.rx : GoodBuffer s.bufBytes 0 s.rxbuf := by
  obtain ⟨-, ⟨hwf, hin⟩, -⟩ := h.buffers
  exact ⟨hwf, hin, fun _ hi => absurd hi (Nat.not_lt_zero _)⟩

theorem GoodState.str : GoodBuffer s.bufBytes s.strlen.toNat s.strbuf := by
  obtain ⟨-, -, hwf, hin⟩ := h.buffers
  obtain ⟨-, hwritten⟩ := h.written
  exact ⟨hwf, hin, hwritten⟩

end

theorem GoodState.of_parts {s : State} (param : paramLegal s)
    (tx : GoodBuffer s.bufBytes s.txlen.toNat s.txbuf) (rx : GoodBuffer s.bufBytes 0 s.rxbuf)
    (str : GoodBuffer s.bufBytes s.strlen.toNat s.strbuf) (catalog : Catalog.wf s.cat = true)
    (lengths : lengthsFit s) (iterator : iteratorInRange s) : GoodState s where
  param := param
  buffers := ⟨⟨tx.wf, tx.within⟩, ⟨rx.wf, rx.within⟩, ⟨str.wf, str.within⟩⟩
  catalog := catalog
  lengths := lengths
  written := ⟨tx.written, str.written⟩
  iterator := iterator

/-- The fields that GoodState speaks of. -/
def invView (s : State) :
    Nat × (Half × Memory) × (Half × Memory) × (Half × Memory) × Catalog × Half × Half × Half :=
  (s.bufBytes, (s.txlen, s.txbuf), (s.rxlen, s.rxbuf), (s.strlen, s.strbuf), s.cat, s.fPlen,
    s.recIdx, s.recCount)

/-- An update of other fields keeps the invariant. -/
theorem GoodState.of_view {s t : State} (h : GoodState s) (hv : invView t = invView s) :
    GoodState t := by
  simp only [invView, Prod.mk.injEq] at hv
  obtain ⟨hcap, ⟨htl, htx⟩, ⟨hrl, hrx⟩, ⟨hsl, hst⟩, hcat, hfp, hidx, hcnt⟩ := hv
  refine .of_parts ?_ ?_ ?_ ?_ ?_ ?_ ?_
  · simpa only [paramLegal, hcap] using h.param
  · simpa only [hcap, htl, htx] using h.tx
  · simpa only [hcap, hrx] using h.rx
  · simpa only [hcap, hsl, hst] using h.str
  · simpa only [hcat] using h.catalog
  · simpa only [lengthsFit, hcap, htl, hrl, hsl, hfp] using h.lengths
  · simpa only [iteratorInRange, hidx, hcnt] using h.iterator

/-- A length that fits BUF_BYTES loses nothing in a 16-bit register (R7, R9). -/
theorem GoodState.toNat_ofNat {s : State} (h : GoodState s) {n : Nat} (hn : n ≤ s.bufBytes) :
    (BitVec.ofNat 16 n).toNat = n := by
  have hcap := h.param.2
  rw [BitVec.toNat_ofNat, Nat.mod_eq_of_lt (by omega)]

/-! Reset. -/

/-- The reset event gives a good state whatever the state was (R240), for a legal BUF_BYTES. -/
theorem goodState_resetBlock {s : State} (hparam : paramLegal s) : GoodState (resetBlock s) := by
  have hplen : State.reset.fPlen.toNat + 8 ≤ s.bufBytes :=
    Nat.le_trans (by decide : 0 + 8 ≤ 16) hparam.1
  have empty : GoodBuffer s.bufBytes 0 [] := ⟨rfl, rfl, fun _ hi => absurd hi (Nat.not_lt_zero _)⟩
  exact .of_parts hparam empty empty empty reset_cat_wf
    ⟨Nat.zero_le _, Nat.zero_le _, Nat.zero_le _, hplen⟩ (Nat.le_refl 0)

theorem paramLegal_reset : paramLegal State.reset := by
  have hcap : State.reset.bufBytes = Config.bufBytesFree % 65520 + 16 := rfl
  unfold paramLegal
  omega

/-! What the commands write. -/

/-- A string that fits the buffer, as a result (R41, R52). -/
theorem GoodState.putString {s : State} (h : GoodState s) {text : List Byte}
    (hfit : text.length ≤ s.bufBytes) : GoodState (Machine.putString text s) := by
  have hlen := h.toNat_ofNat hfit
  obtain ⟨hrx, htx, -, hpl⟩ := h.lengths
  refine .of_parts h.param h.tx h.rx ?_ h.catalog ⟨hrx, htx, ?_, hpl⟩ h.iterator
  · have hbuf := h.str.dropResult.append text (by omega)
    simpa [Machine.putString, hlen] using hbuf
  · simpa [Machine.putString, hlen] using hfit

theorem decimalText_length_le (v : Byte) : (decimalText v).length ≤ 3 := by
  unfold decimalText
  split
  · simp
  · split <;> simp

theorem dottedQuad_length_le (o0 o1 o2 o3 : Byte) : (dottedQuad o0 o1 o2 o3).length ≤ 15 := by
  have h0 := decimalText_length_le o0
  have h1 := decimalText_length_le o1
  have h2 := decimalText_length_le o2
  have h3 := decimalText_length_le o3
  simp only [dottedQuad, List.length_append, List.length_cons]
  omega

/-- FLD.ASCII keeps no byte from RXLEN on: each one reads 0 and is dropped (R150, R158). -/
theorem dropZeros_length_le {s : State} {i n : Nat} {vs : List Byte}
    (h : lenientRange s i n = .ok vs) : (dropZeros vs).length ≤ s.rxlen.toNat - i := by
  induction n generalizing i vs with
  | zero =>
    obtain rfl : [] = vs := by simpa [lenientRange] using h
    exact Nat.zero_le _
  | succ n ih =>
    simp only [lenientRange, bind_ok_iff, except_pure, Except.ok.injEq] at h
    obtain ⟨v, hv, ws, hws, rfl⟩ := h
    have htail := ih hws
    obtain ⟨hlt, -⟩ | ⟨hge, rfl⟩ := lenient_ok_iff.mp hv
    · have hcons : (dropZeros (v :: ws)).length ≤ (dropZeros ws).length + 1 := by
        unfold dropZeros
        rw [List.filter_cons]
        split <;> simp
      omega
    · have hcons : dropZeros (0 :: ws) = dropZeros ws := rfl
      rw [hcons]
      omega

theorem length_frameHead (d : Word) (c : Byte) : (frameHead d c).length = 6 := rfl

theorem length_checksumBytes (r : Half) : (checksumBytes r).length = 2 := rfl

/-- FRM.ENC's frame in TXBUF: the head, a payload that FRM.ENC could read, and the checksum (R131). -/
theorem GoodBuffer.frame {cap len p : Nat} {m : Memory} (h : GoodBuffer cap len m)
    (d : Word) (c : Byte) (r : Half) {bytes : List Byte} (hfit : minFrame + p ≤ cap)
    (hread : readRange .tx (memPutAll m 0 (frameHead d c)) 1 (5 + p) = .ok bytes) :
    GoodBuffer cap (minFrame + p)
      (memPutAll (memPutAll m 0 (frameHead d c)) (6 + p) (checksumBytes r)) := by
  have hmin : minFrame = 8 := rfl
  have hhead := h.dropResult.append (frameHead d c) (by rw [length_frameHead]; omega)
  have hbody := hhead.extend_of_read hread (by rw [length_frameHead]; omega)
  rw [show 1 + (5 + p) = 6 + p by omega] at hbody
  have hsum := hbody.append (checksumBytes r) (by rw [length_checksumBytes]; omega)
  rwa [length_checksumBytes, show 6 + p + 2 = minFrame + p by omega] at hsum

theorem GoodState.acceptFrame {s : State} (h : GoodState s) (hmin : minFrame ≤ s.rxlen.toNat)
    (body : List Byte) (lo hi : Byte) : GoodState (Machine.acceptFrame body lo hi s) := by
  rw [acceptFrame_eq]
  obtain ⟨hrx, htx, hstr, -⟩ := h.lengths
  have hplen : (BitVec.ofNat 16 (s.rxlen.toNat - minFrame)).toNat + 8 ≤ s.bufBytes := by
    rw [h.toNat_ofNat (by omega)]
    exact Nat.le_trans (Nat.le_of_eq (Nat.sub_add_cancel hmin)) hrx
  exact .of_parts h.param h.tx h.rx h.str h.catalog ⟨hrx, htx, hstr, hplen⟩ h.iterator

/-- The iterator moves only while a record is left (R188). -/
theorem GoodState.advanceRecord {s : State} (h : GoodState s)
    (hlt : s.recIdx.toNat < s.recCount.toNat) : GoodState (Machine.advanceRecord s) := by
  have hcount := s.recCount.isLt
  have hidx : (BitVec.ofNat 16 (s.recIdx.toNat + 1)).toNat = s.recIdx.toNat + 1 := by
    rw [BitVec.toNat_ofNat, Nat.mod_eq_of_lt (by omega)]
  exact .of_parts h.param h.tx h.rx h.str h.catalog h.lengths (hidx.trans_le hlt)

/-! Every command keeps the invariant. -/

theorem frmEnc_keeps_good {c : Byte} {p : Nat} {s t : State} (h : GoodState s)
    (hx : exec (.frmEnc c p) s = .next t) : GoodState t := by
  obtain ⟨-, rfl⟩ | ⟨hfit, r, hread, rfl⟩ := exec_frmEnc_next hx
  · exact h.of_view rfl
  · have hlen := h.toNat_ofNat hfit
    obtain ⟨hrx, -, hstr, hpl⟩ := h.lengths
    refine .of_parts h.param ?_ h.rx h.str h.catalog ⟨hrx, ?_, hstr, hpl⟩ h.iterator
    · simpa [hlen] using h.tx.frame s.devid c (crcCompute r) hfit hread
    · simpa [hlen] using hfit

theorem frmDec_keeps_good {s t : State} (h : GoodState s) (hx : exec .frmDec s = .next t) :
    GoodState t := by
  obtain ⟨-, rfl⟩ | ⟨-, rfl⟩ | ⟨hmin, -, body, lo, hi, -, -, -, rfl⟩ := exec_frmDec_next hx
  · exact h.of_view rfl
  · exact h.of_view rfl
  · exact h.acceptFrame hmin body lo hi

theorem fldIp_keeps_good {rel : Bool} {off : Nat} {s t : State} (h : GoodState s)
    (hx : exec (.fldIp rel off) s = .next t) : GoodState t := by
  obtain ⟨o0, o1, o2, o3, r, rfl⟩ := exec_fldIp_next hx
  have hr : GoodState { s with res0 := r } := h.of_view rfl
  have hquad : (dottedQuad o0 o1 o2 o3).length ≤ s.bufBytes := by
    have hlen := dottedQuad_length_le o0 o1 o2 o3
    have hcap := h.param.1
    omega
  exact (hr.putString hquad).of_view rfl

theorem fldAscii_keeps_good {rel : Bool} {start : Nat} {s t : State} (h : GoodState s)
    (hx : exec (.fldAscii rel start) s = .next t) : GoodState t := by
  obtain ⟨bytes, hread, rfl⟩ := exec_fldAscii_next hx
  have hfit : (dropZeros bytes).length ≤ s.bufBytes := by
    have hlen := dropZeros_length_le hread
    have hrx := h.lengths.1
    omega
  exact (h.putString hfit).of_view rfl

theorem rspCheck_keeps_good {c : Byte} {s t : State} (h : GoodState s)
    (hx : exec (.rspCheck c) s = .next t) : GoodState t := by
  obtain rfl | rfl | rfl := exec_rspCheck_next hx
  · exact h.of_view rfl
  · exact h.of_view rfl
  · rw [loadDescriptor_eq]
    exact h.of_view rfl

theorem recStart_keeps_good {s t : State} (h : GoodState s) (hx : exec .recStart s = .next t) :
    GoodState t := by
  obtain rfl | ⟨-, -, rfl⟩ := exec_recStart_next hx
  · exact h.of_view rfl
  · exact .of_parts h.param h.tx h.rx h.str h.catalog h.lengths (Nat.zero_le _)

theorem recNext_keeps_good {att : Bool} {s t : State} (h : GoodState s)
    (hx : exec (.recNext att) s = .next t) : GoodState t := by
  obtain ⟨-, rfl⟩ | ⟨-, -, rfl⟩ | ⟨hlt, -, r0, r1, r2, r3, rfl⟩ | ⟨hlt, -, rfl⟩ :=
    exec_recNext_next hx
  · exact h.of_view rfl
  · exact h.of_view rfl
  · have hr : GoodState { s with res0 := r0, res1 := r1, res2 := r2, res3 := r3 } := h.of_view rfl
    exact (hr.advanceRecord hlt).of_view rfl
  · exact (h.advanceRecord hlt).of_view rfl

/-- The commands left over write CRC or RES0-RES2, which the invariant does not read. -/
theorem exec_keeps_good {i : Instr} {s t : State} (h : GoodState s) (hx : exec i s = .next t) :
    GoodState t := by
  cases i with
  | crcInit =>
    cases hx
    exact h.of_view rfl
  | crcByte d =>
    cases hx
    exact h.of_view rfl
  | crcRx start =>
    obtain ⟨-, rfl⟩ | ⟨-, r, rfl⟩ := exec_crcRx_next hx
    · exact h.of_view rfl
    · exact h.of_view rfl
  | frmEnc c p => exact frmEnc_keeps_good h hx
  | frmDec => exact frmDec_keeps_good h hx
  | fldU8 rel off =>
    obtain ⟨r, rfl⟩ := exec_fldU8_next hx
    exact h.of_view rfl
  | fldU16 rel off =>
    obtain ⟨r, rfl⟩ := exec_fldU16_next hx
    exact h.of_view rfl
  | fldU32 rel off =>
    obtain ⟨r, rfl⟩ := exec_fldU32_next hx
    exact h.of_view rfl
  | fldS8 rel off =>
    obtain ⟨r, rfl⟩ := exec_fldS8_next hx
    exact h.of_view rfl
  | fldYear rel off =>
    obtain ⟨r, rfl⟩ := exec_fldYear_next hx
    exact h.of_view rfl
  | fldDate6 rel off =>
    obtain ⟨r0, r1, r2, rfl⟩ := exec_fldDate6_next hx
    exact h.of_view rfl
  | fldIp rel off => exact fldIp_keeps_good h hx
  | fldAscii rel start => exact fldAscii_keeps_good h hx
  | rspCheck c => exact rspCheck_keeps_good h hx
  | recStart => exact recStart_keeps_good h hx
  | recNext att => exact recNext_keeps_good h hx

/-! Every host statement keeps the invariant. -/

/-- RXLEN is the one register of the invariant that the host can write (R21). -/
theorem invView_csrWrite {r : CsrName} (hr : r ≠ .rxlen) (v : Word) (s : State) :
    invView (csrWrite r v s) = invView s := by
  cases r with
  | rxlen => exact absurd rfl hr
  | status =>
    simp only [csrWrite, writeStatus]
    split <;> rfl
  | cmd =>
    simp only [csrWrite, writeCmd]
    split <;> rfl
  | _ => rfl

theorem GoodState.csrWrite {s : State} (h : GoodState s) (r : CsrName) (v : Word) :
    GoodState (Machine.csrWrite r v s) := by
  by_cases hr : r = .rxlen
  · subst hr
    have hclamp : (clampLen v s.bufBytes).toNat ≤ s.bufBytes := by
      have hmin : min (lowHalf v).toNat s.bufBytes ≤ s.bufBytes := Nat.min_le_right _ _
      rw [clampLen, h.toNat_ofNat hmin]
      exact hmin
    obtain ⟨-, htx, hstr, hpl⟩ := h.lengths
    exact .of_parts h.param h.tx h.rx h.str h.catalog ⟨hclamp, htx, hstr, hpl⟩ h.iterator
  · exact h.of_view (invView_csrWrite hr v s)

theorem GoodState.hostPutBytes {s : State} (h : GoodState s) (b : BufferId) (v : Word)
    (i k n : Nat) : GoodState (Machine.hostPutBytes b v i k n s) := by
  have keeps (len : Nat) := hostPutBytes_keeps (GoodBuffer s.bufBytes len) s.bufBytes
    (fun _ _ v hm hi => hm.memPut v hi) b v i k n s rfl
  rw [hostPutBytes_eq]
  exact .of_parts h.param ((keeps _).1 h.tx) ((keeps _).2 h.rx) h.str h.catalog h.lengths
    h.iterator

theorem hostWrite_keeps_good {a : HostAddr} {n : PortWidth} {v : Word} {s t : State}
    (h : GoodState s) (hw : hostWrite a n v s = .ok t) : GoodState t := by
  obtain ⟨r, -, rfl⟩ | ⟨c, k, hreg, rfl⟩ | ⟨b, i, -, rfl⟩ | rfl := (hostWrite_ok_cases hw).2
  · exact h.csrWrite r v
  · exact .of_parts h.param h.tx h.rx h.str (catPut_wf _ h.catalog (regionOf_cat_lt hreg))
      h.lengths h.iterator
  · exact h.hostPutBytes b v i 0 (widthBytes n)
  · exact h

theorem hostStep_keeps_good {st : HostStmt} {s t : State} (h : GoodState s)
    (hx : hostStep st s = .next t) : GoodState t := by
  cases st with
  | read a n =>
    simp only [hostStep] at hx
    split at hx
    · cases hx
      exact h.of_view rfl
    · cases hx
  | write a n v =>
    simp only [hostStep] at hx
    split at hx
    next u hw =>
      cases hx
      exact (hostWrite_keeps_good h hw).of_view rfl
    next => cases hx
  | poll =>
    simp only [hostStep] at hx
    split at hx
    · cases hx
      exact h.of_view rfl
    · cases hx
      exact h.of_view rfl
  | bneEnd target =>
    cases hx
    exact h.of_view rfl
  | beqEnd target =>
    cases hx
    exact h.of_view rfl
  | goto target =>
    cases hx
    exact h.of_view rfl
  | assertReset =>
    cases hx
    exact (goodState_resetBlock h.param).of_view rfl

end Sys2Proof.Safety

namespace Sys2Proof.Machine

/-! The step. -/

/-- Every next state of a step comes from one of the moves of R72: none, a command, a word that is
no command, or a host statement, with a turn passed first while a command is pending. -/
theorem step_next_cases {s t : State} (h : step s = .next t) :
    t = s ∨
    (∃ w i, whoMoves s = .engine w ∧ decode w = some i ∧ exec i s = .next t) ∨
    (∃ w, whoMoves s = .engine w ∧ decode w = none ∧ t = illegalOp s) ∨
    (∃ st, whoMoves s = .host st ∧ hostStep st s = .next t) ∨
    (∃ st, whoMoves s = .hostFirst st ∧ hostStep st (passTurn s) = .next t) := by
  unfold step at h
  split at h
  next => exact .inl (by cases h; rfl)
  next w hm =>
    split at h
    next i hd => exact .inr (.inl ⟨w, i, hm, hd, h⟩)
    next hd => exact .inr (.inr (.inl ⟨w, hm, hd, by cases h; rfl⟩))
  next st hm => exact .inr (.inr (.inr (.inl ⟨st, hm, h⟩)))
  next st hm => exact .inr (.inr (.inr (.inr ⟨st, hm, h⟩)))

/-! What the host owns. -/

/-- The part of the state that no command writes: BUF_BYTES, CTRL, ARG, DEVID, RXLEN, the catalog,
RXBUF and OVR (R23, R24, R28, R31, R33, R35, R49, R51), and the host's own state. -/
def hostView (s : State) :
    (Nat × Bool × Half × Word × Half × Catalog × Memory × Bool) ×
    (Nat × Nat × List HostStmt × Nat × Word × List Word) :=
  ((s.bufBytes, s.strict, s.arg, s.devid, s.rxlen, s.cat, s.rxbuf, s.ovr),
   (s.delay, s.draws, s.hostProg, s.hostPc, s.lastStatus, s.hostReads))

/-- A command ends with `complete` or `raise` (R11), after writes to engine-owned state alone. -/
theorem exec_next_hostView {i : Instr} {s t : State} (hx : exec i s = .next t) :
    t.pending = none ∧ hostView t = hostView s := by
  cases i with
  | crcInit =>
    cases hx
    exact ⟨rfl, rfl⟩
  | crcByte d =>
    cases hx
    exact ⟨rfl, rfl⟩
  | crcRx start =>
    obtain ⟨-, rfl⟩ | ⟨-, r, rfl⟩ := exec_crcRx_next hx
    · exact ⟨rfl, rfl⟩
    · exact ⟨rfl, rfl⟩
  | frmEnc c p =>
    obtain ⟨-, rfl⟩ | ⟨-, r, -, rfl⟩ := exec_frmEnc_next hx
    · exact ⟨rfl, rfl⟩
    · exact ⟨rfl, rfl⟩
  | frmDec =>
    obtain ⟨-, rfl⟩ | ⟨-, rfl⟩ | ⟨-, -, body, lo, hi, -, -, -, rfl⟩ := exec_frmDec_next hx
    · exact ⟨rfl, rfl⟩
    · exact ⟨rfl, rfl⟩
    · rw [acceptFrame_eq]
      exact ⟨rfl, rfl⟩
  | fldU8 rel off =>
    obtain ⟨r, rfl⟩ := exec_fldU8_next hx
    exact ⟨rfl, rfl⟩
  | fldU16 rel off =>
    obtain ⟨r, rfl⟩ := exec_fldU16_next hx
    exact ⟨rfl, rfl⟩
  | fldU32 rel off =>
    obtain ⟨r, rfl⟩ := exec_fldU32_next hx
    exact ⟨rfl, rfl⟩
  | fldS8 rel off =>
    obtain ⟨r, rfl⟩ := exec_fldS8_next hx
    exact ⟨rfl, rfl⟩
  | fldYear rel off =>
    obtain ⟨r, rfl⟩ := exec_fldYear_next hx
    exact ⟨rfl, rfl⟩
  | fldDate6 rel off =>
    obtain ⟨r0, r1, r2, rfl⟩ := exec_fldDate6_next hx
    exact ⟨rfl, rfl⟩
  | fldIp rel off =>
    obtain ⟨o0, o1, o2, o3, r, rfl⟩ := exec_fldIp_next hx
    exact ⟨rfl, rfl⟩
  | fldAscii rel start =>
    obtain ⟨bytes, -, rfl⟩ := exec_fldAscii_next hx
    exact ⟨rfl, rfl⟩
  | rspCheck c =>
    obtain rfl | rfl | rfl := exec_rspCheck_next hx
    · exact ⟨rfl, rfl⟩
    · exact ⟨rfl, rfl⟩
    · rw [loadDescriptor_eq]
      exact ⟨rfl, rfl⟩
  | recStart =>
    obtain rfl | ⟨-, -, rfl⟩ := exec_recStart_next hx
    · exact ⟨rfl, rfl⟩
    · exact ⟨rfl, rfl⟩
  | recNext att =>
    obtain ⟨-, rfl⟩ | ⟨-, -, rfl⟩ | ⟨-, -, r0, r1, r2, r3, rfl⟩ | ⟨-, -, rfl⟩ :=
      exec_recNext_next hx
    · exact ⟨rfl, rfl⟩
    · exact ⟨rfl, rfl⟩
    · exact ⟨rfl, rfl⟩
    · exact ⟨rfl, rfl⟩

end Sys2Proof.Machine

namespace Sys2Proof.Proofs

open Sys2Proof.Machine Sys2Proof.Safety

/-- Settles O6: by the moves of a step; a command or a host statement keeps the invariant, and the
other moves write no field of it. -/
theorem invKeptByStep : Obligations.InvKeptByStep := by
  intro s t hgood h
  obtain rfl | ⟨w, i, -, -, hx⟩ | ⟨w, -, -, rfl⟩ | ⟨st, -, hx⟩ | ⟨st, -, hx⟩ := step_next_cases h
  · exact hgood
  · exact exec_keeps_good hgood hx
  · exact hgood.of_view rfl
  · exact hostStep_keeps_good hgood hx
  · have hpass : GoodState (passTurn s) := hgood.of_view rfl
    exact hostStep_keeps_good hpass hx

/-- Settles O40: by the shapes of each command's next states. -/
theorem commandsLeaveHostStateAlone : Obligations.CommandsLeaveHostStateAlone := by
  intro i s t hx
  obtain ⟨hpending, hview⟩ := exec_next_hostView hx
  refine ⟨hpending, ?_⟩
  simpa only [hostView, Prod.mk.injEq, and_assoc] using hview

/-- Settles O5: the reset state is what the reset event leaves of itself. -/
theorem invAtReset : Obligations.InvAtReset :=
  goodState_resetBlock paramLegal_reset

end Sys2Proof.Proofs
end

section
/-! SUPPORT. The registers through the host port (R21, R60, R66-R73): which access reaches a register and what it does there, the bits of STATUS (R25), and what a host statement can change. -/

namespace Sys2Proof.Machine

/-! Addresses of registers. -/

@[simp] theorem regionOf_csrAddr (r : CsrName) : regionOf (csrAddr r).toNat = .csr (some r) := by
  cases r <;> rfl

@[simp] theorem accessOk_csrAddr (r : CsrName) : accessOk (csrAddr r) .four = true := by
  cases r <;> rfl

/-- No two registers share an offset of the CSR map (R21). -/
theorem csrOffset_of_csrAt {o : Nat} {r : CsrName} (h : csrAt o = some r) : o = csrOffset r := by
  unfold csrAt at h
  split at h
  next h4 =>
    obtain ⟨hlt, rfl⟩ := List.getElem?_eq_some_iff.mp h
    have hnodup : csrMap.Nodup := by decide
    rw [csrOffset, hnodup.idxOf_getElem]
    omega
  next => cases h

theorem eq_csrAddr_of_regionOf {a : HostAddr} {r : CsrName}
    (h : regionOf a.toNat = .csr (some r)) : a = csrAddr r := by
  have hat : csrAt a.toNat = some r := by
    unfold regionOf at h
    split at h
    · simpa using h
    · repeat' split at h
      all_goals cases h
  rw [csrAddr, ← csrOffset_of_csrAt hat, BitVec.ofNat_toNat, BitVec.setWidth_eq]

/-- A register is accessed with 4 bytes (R67). -/
theorem eq_four_of_accessOk_csr {a : HostAddr} {n : PortWidth} {r : Option CsrName}
    (h : regionOf a.toNat = .csr r) (hok : accessOk a n = true) : n = .four := by
  unfold accessOk at hok
  rw [h] at hok
  simp only [widthAllowed, Bool.and_eq_true, beq_iff_eq] at hok
  exact hok.2

/-! Reads and writes of registers. -/

theorem zext16_ofNat (n : Nat) : zext16 (BitVec.ofNat 16 n) = BitVec.ofNat 32 (n % 65536) := by
  apply BitVec.eq_of_toNat_eq
  rw [zext16_toNat, BitVec.toNat_ofNat, BitVec.toNat_ofNat]
  omega

theorem hostRead_csr {r : CsrName} {s : State}
    (h : s.pending = none ∨ readableWhileBusy (.csr (some r)) = true) :
    hostRead (csrAddr r) .four s = .ok (csrRead r s) := by
  have hfree : (busy s && !readableWhileBusy (.csr (some r))) = false := by
    obtain hp | hr := h
    · rw [(busy_eq_false_iff s).mpr hp]; rfl
    · rw [hr]; simp
  simp [hostRead, hfree]

theorem hostWrite_csr {r : CsrName} {v : Word} {s : State}
    (h : s.pending = none ∨ writableWhileBusy (.csr (some r)) = true) :
    hostWrite (csrAddr r) .four v s = .ok (csrWrite r v s) := by
  have hfree : (busy s && !writableWhileBusy (.csr (some r))) = false := by
    obtain hp | hr := h
    · rw [(busy_eq_false_iff s).mpr hp]; rfl
    · rw [hr]; simp
  simp [hostWrite, hfree]

theorem hostWrite_ok_accessOk {a : HostAddr} {n : PortWidth} {v : Word} {s t : State}
    (h : hostWrite a n v s = .ok t) : accessOk a n = true := by
  unfold hostWrite at h
  split at h
  · cases h
  · simp_all

/-- A CMD write while a command is pending is dropped (R30). -/
theorem writeCmd_of_pending {w v : Word} {s : State} (h : s.pending = some w) :
    writeCmd v s = { s with ovr := true } := by
  rw [writeCmd, if_pos ((busy_eq_true_iff s).mpr ⟨w, h⟩)]

/-- A CMD write while nothing is pending is accepted (R30). -/
theorem writeCmd_of_idle {v : Word} {s : State} (h : s.pending = none) :
    writeCmd v s =
      { s with pending := some v, delay := Config.latency s.draws, draws := s.draws + 1 } := by
  rw [writeCmd, if_neg (by simp [busy, h])]

/-- The registers of R21 that a write leaves as they are. -/
def readOnlyCsrs : List CsrName :=
  [.id, .param, .crc, .txlen, .fDevid, .fCmd, .fPlen, .fCksum, .res0, .res1, .res2, .res3, .strlen,
   .catKind, .recCount, .recIdx, .recBase]

theorem csrWrite_readOnly {r : CsrName} (hr : r ∈ readOnlyCsrs) (v : Word) (s : State) :
    csrWrite r v s = s := by
  cases r with
  | ctrl | status | cmd | arg | devid | rxlen | recW | recFirst | recHdr =>
    exact absurd hr (by decide)
  | _ => rfl

/-! STATUS. -/

theorem getLsbD_flagWord (b : Bool) (k : Nat) :
    (flagWord b).getLsbD k = (b && decide (k = 0)) := by
  cases b <;> simp [flagWord, BitVec.getLsbD_one]

/-- A bit of STATUS as the bits of its fields (R25). -/
theorem getLsbD_statusWord (s : State) {k : Nat} (hk : k < 32) :
    (statusWord s).getLsbD k =
      (busy s && decide (k = 0) || s.ckok && decide (k = 1) || s.endFlag && decide (k = 2) ||
        s.ovr && decide (k = 3) || decide (8 ≤ k) && (errBits s.err).getLsbD (k - 8)) := by
  have hflag (b : Bool) (i : Nat) :
      (flagWord b <<< i).getLsbD k = (b && decide (k = i)) := by
    rw [BitVec.getLsbD_shiftLeft, getLsbD_flagWord, Bool.eq_iff_iff]
    simp only [Bool.and_eq_true, Bool.not_eq_true', decide_eq_true_eq, decide_eq_false_iff_not]
    constructor
    · rintro ⟨⟨-, hi⟩, hb, hz⟩
      exact ⟨hb, by omega⟩
    · rintro ⟨hb, rfl⟩
      exact ⟨⟨hk, by omega⟩, hb, by omega⟩
  have herr : ((errBits s.err).setWidth 32 <<< 8).getLsbD k =
      (decide (8 ≤ k) && (errBits s.err).getLsbD (k - 8)) := by
    by_cases h8 : 8 ≤ k
    · simp [hk, h8, Nat.not_lt.mpr h8]
    · simp [h8, Nat.not_le.mp h8]
  simp only [statusWord, BitVec.getLsbD_or, getLsbD_flagWord, hflag, herr]

theorem getLsbD_statusWord_busy (s : State) : (statusWord s).getLsbD 0 = s.pending.isSome := by
  rw [getLsbD_statusWord s (by decide)]
  simp [busy]

/-- The reserved bits of STATUS are 0 (R25). -/
theorem getLsbD_statusWord_reserved (s : State) {k : Nat} (h : 4 ≤ k ∧ k < 8 ∨ 12 ≤ k) :
    (statusWord s).getLsbD k = false := by
  by_cases hk : k < 32
  · have herr : (decide (8 ≤ k) && (errBits s.err).getLsbD (k - 8)) = false := by
      obtain h8 | h12 := h
      · simp [Nat.not_le.mpr h8.2]
      · rw [BitVec.getLsbD_of_ge _ _ (by omega), Bool.and_false]
    have hflags : k ≠ 0 ∧ k ≠ 1 ∧ k ≠ 2 ∧ k ≠ 3 := by omega
    simp [getLsbD_statusWord s hk, herr, hflags]
  · exact BitVec.getLsbD_of_ge _ _ (Nat.not_lt.mp hk)

/-! What a host statement can change. -/

/-- The part of the state that only the engine and the reset event write (R21, R46, R52, R62). -/
def engineView (s : State) :
    (Nat × ErrCode × Bool × Bool × Half × Half × Word × Byte × Half × Word) ×
    (Word × Word × Word × Word × Half × Bool × Half × Half × Word × Memory) :=
  ((s.bufBytes, s.err, s.ckok, s.endFlag, s.crc, s.txlen, s.fDevid, s.fCmd, s.fPlen, s.fCksum),
   (s.res0, s.res1, s.res2, s.res3, s.strlen, s.catKind, s.recCount, s.recIdx, s.recBase,
    s.strbuf))

theorem engineView_csrWrite (r : CsrName) (v : Word) (s : State) :
    engineView (csrWrite r v s) = engineView s := by
  cases r with
  | status =>
    simp only [csrWrite, writeStatus]
    split <;> rfl
  | cmd =>
    simp only [csrWrite, writeCmd]
    split <;> rfl
  | _ => rfl

theorem engineView_hostWrite {a : HostAddr} {n : PortWidth} {v : Word} {s t : State}
    (h : hostWrite a n v s = .ok t) : engineView t = engineView s := by
  obtain ⟨r, -, rfl⟩ | ⟨c, k, -, rfl⟩ | ⟨b, i, -, rfl⟩ | rfl := (hostWrite_ok_cases h).2
  · exact engineView_csrWrite r v s
  · rfl
  · rw [hostPutBytes_eq]
    rfl
  · rfl

/-- OVR, the pending command and its latency: what a write changes only at CMD and STATUS. -/
def cmdView (s : State) : Bool × Option Word × Nat := (s.ovr, s.pending, s.delay)

/-- A write that is no fault leaves OVR and the pending command alone unless it is a 4-byte write to
CMD or STATUS (R28, R30). -/
theorem hostWrite_cmdView {a : HostAddr} {n : PortWidth} {v : Word} {s t : State}
    (h : hostWrite a n v s = .ok t) :
    cmdView t = cmdView s ∨ (a = csrAddr .cmd ∧ n = .four ∧ t = writeCmd v s) ∨
      (a = csrAddr .status ∧ n = .four ∧ t = writeStatus v s) := by
  obtain ⟨r, hreg, rfl⟩ | ⟨c, k, -, rfl⟩ | ⟨b, i, -, rfl⟩ | rfl := (hostWrite_ok_cases h).2
  · have ha := eq_csrAddr_of_regionOf hreg
    have hn := eq_four_of_accessOk_csr hreg (hostWrite_ok_accessOk h)
    cases r with
    | cmd => exact .inr (.inl ⟨ha, hn, rfl⟩)
    | status => exact .inr (.inr ⟨ha, hn, rfl⟩)
    | _ => exact .inl rfl
  · exact .inl rfl
  · rw [hostPutBytes_eq]
    exact .inl rfl
  · exact .inl rfl

/-- Every next state of a host statement: a write's, the reset event's, or a change of the host's
own fields alone (R99). -/
theorem hostStep_next_cases {st : HostStmt} {s t : State} (h : hostStep st s = .next t) :
    (∃ a n v u, st = .write a n v ∧ hostWrite a n v s = .ok u ∧ t = hostAdvance u) ∨
    (st = .assertReset ∧ t = hostAdvance (resetBlock s)) ∨
    (∃ reads last draws pc,
      t = { s with hostReads := reads, lastStatus := last, draws := draws, hostPc := pc }) := by
  cases st with
  | read a n =>
    simp only [hostStep] at h
    split at h
    · cases h
      exact .inr (.inr ⟨_, _, _, _, rfl⟩)
    · cases h
  | write a n v =>
    simp only [hostStep] at h
    split at h
    next u hw => exact .inl ⟨a, n, v, u, rfl, hw, by cases h; rfl⟩
    next => cases h
  | poll =>
    simp only [hostStep] at h
    split at h
    · cases h
      exact .inr (.inr ⟨_, _, _, _, rfl⟩)
    · cases h
      exact .inr (.inr ⟨_, _, _, _, rfl⟩)
  | bneEnd target | beqEnd target | goto target =>
    cases h
    exact .inr (.inr ⟨_, _, _, _, rfl⟩)
  | assertReset => exact .inr (.inl ⟨rfl, by cases h; rfl⟩)

theorem hostStep_not_refused (st : HostStmt) (s : State) (q : Refusal) :
    hostStep st s ≠ .refused q := by
  cases st with
  | read | write | poll =>
    simp only [hostStep]
    split <;> simp
  | _ => simp [hostStep]

/-- A host statement while a command is pending is the reset event, or it leaves the command and its
latency (R30, R214, R253). -/
theorem hostStep_pending {st : HostStmt} {s t : State} {w : Word} (hp : s.pending = some w)
    (h : hostStep st s = .next t) :
    t.pending = none ∨ (t.pending = some w ∧ t.delay = s.delay) := by
  obtain ⟨a, n, v, u, -, hw, rfl⟩ | ⟨-, rfl⟩ | ⟨reads, last, draws, pc, rfl⟩ :=
    hostStep_next_cases h
  · right
    obtain hv | ⟨-, -, rfl⟩ | ⟨-, -, rfl⟩ := hostWrite_cmdView hw
    · simp only [cmdView, Prod.mk.injEq] at hv
      obtain ⟨-, hpending, hdelay⟩ := hv
      exact ⟨hpending.trans hp, hdelay⟩
    · rw [writeCmd_of_pending hp]
      exact ⟨hp, rfl⟩
    · simp only [writeStatus]
      split <;> exact ⟨hp, rfl⟩
  · exact .inl rfl
  · exact .inr ⟨hp, rfl⟩

/-- A host statement that changes OVR is a dropped CMD write, a STATUS write with bit 3, or the
reset event (R28, R240). -/
theorem hostStep_ovr {st : HostStmt} {s t : State} (h : hostStep st s = .next t)
    (hne : t.ovr ≠ s.ovr) :
    (∃ v, st = .write (csrAddr .cmd) .four v ∧ s.pending.isSome = true ∧ t.ovr = true) ∨
    (∃ v, st = .write (csrAddr .status) .four v ∧ v.getLsbD 3 = true ∧ t.ovr = false) ∨
    (st = .assertReset ∧ t.ovr = false) := by
  obtain ⟨a, n, v, u, rfl, hw, rfl⟩ | ⟨rfl, rfl⟩ | ⟨reads, last, draws, pc, rfl⟩ :=
    hostStep_next_cases h
  · obtain hv | ⟨rfl, rfl, rfl⟩ | ⟨rfl, rfl, rfl⟩ := hostWrite_cmdView hw
    · exact absurd (congrArg Prod.fst hv) hne
    · cases hp : s.pending with
      | none => rw [writeCmd_of_idle hp] at hne; exact absurd rfl hne
      | some w =>
        rw [writeCmd_of_pending hp]
        exact .inl ⟨v, rfl, rfl, rfl⟩
    · simp only [writeStatus] at hne ⊢
      split at hne
      next hbit => exact .inr (.inl ⟨v, rfl, hbit, by rw [if_pos hbit]; rfl⟩)
      next => exact absurd rfl hne
  · exact .inr (.inr ⟨rfl, rfl⟩)
  · exact absurd rfl hne

/-- A step that changes OVR is a host statement, at most a turn passed before it (R28). -/
theorem hostStep_of_step_ovr {s t : State} (h : step s = .next t) (hne : t.ovr ≠ s.ovr) :
    ∃ st u, hostNext s = some st ∧ hostStep st u = .next t ∧ u.pending = s.pending ∧
      u.ovr = s.ovr := by
  obtain rfl | ⟨w, i, -, -, hx⟩ | ⟨w, -, -, rfl⟩ | ⟨st, hm, hx⟩ | ⟨st, hm, hx⟩ :=
    step_next_cases h
  · exact absurd rfl hne
  · obtain ⟨-, hview⟩ := exec_next_hostView hx
    simp only [hostView, Prod.mk.injEq] at hview
    obtain ⟨⟨-, -, -, -, -, -, -, hovr⟩, -⟩ := hview
    exact absurd hovr hne
  · exact absurd rfl hne
  · exact ⟨st, s, (whoMoves_host_iff.mp hm).2, hx, rfl, rfl⟩
  · obtain ⟨-, hnext, -, -⟩ := whoMoves_hostFirst_iff.mp hm
    exact ⟨st, passTurn s, hnext, hx, rfl, rfl⟩

end Sys2Proof.Machine
end

section
/-! SUPPORT. The commands as reads of the buffers (R53, R133, R150, R188): each command that reads a buffer is one range read and a result, so what it stops on is what the read stops on. -/

namespace Sys2Proof.Machine

open Sys2Proof.Claims

/-- A lenient read looks at RXLEN and RXBUF alone (R150). -/
theorem lenientRange_congr {s s' : State} (hlen : s'.rxlen = s.rxlen) (hbuf : s'.rxbuf = s.rxbuf)
    (i n : Nat) : lenientRange s' i n = lenientRange s i n := by
  induction n generalizing i with
  | zero => rfl
  | succ n ih => simp only [lenientRange, lenient, hlen, hbuf, ih]

/-- A lenient range read stops on nothing but a byte of the range that was never written (R53). -/
theorem missing_of_lenientRange_error {s : State} {i n : Nat} {f : Fault}
    (h : lenientRange s i n = .error f) :
    ∃ j, j < n ∧ Missing s (i + j) ∧ f = .unwrittenRead .rx (i + j) := by
  obtain ⟨k, hlo, hhi, hlt, hnone, rfl⟩ := lenientRange_error h
  obtain ⟨j, rfl⟩ := Nat.exists_eq_add_of_le hlo
  exact ⟨j, by omega, ⟨hlt, hnone⟩, rfl⟩

/-- A lenient range read with a byte below RXLEN never written stops on such a byte (R53, R150). -/
theorem lenientRange_of_missing {s : State} {i n k : Nat} (hk : k < n) (hm : Missing s (i + k)) :
    ∃ j, j < n ∧ Missing s (i + j) ∧
      lenientRange s i n = .error (.unwrittenRead .rx (i + j)) := by
  cases h : lenientRange s i n with
  | ok vs =>
    obtain ⟨hlen, hall⟩ := lenientRange_ok_iff.mp h
    have hread := hall k vs[k] (List.getElem?_eq_getElem (by omega))
    rw [lenient_error_iff.mpr ⟨hm.1, hm.2, rfl⟩] at hread
    cases hread
  | error f =>
    obtain ⟨j, hj, hmj, rfl⟩ := missing_of_lenientRange_error h
    exact ⟨j, hj, hmj, rfl⟩

/-! Ranges. -/

theorem readRange_append {b : BufferId} {m : Memory} (i n k : Nat) :
    readRange b m i (n + k) = do
      let xs ← readRange b m i n
      let ys ← readRange b m (i + n) k
      return xs ++ ys := by
  induction n generalizing i with
  | zero => cases h : readRange b m i k <;> simp [readRange, h]
  | succ n ih =>
    simp only [Nat.succ_add, readRange, ih, bind_assoc, except_pure, except_ok_bind,
      List.cons_append, Nat.add_right_comm i 1 n, Nat.add_assoc i n 1]

theorem readRange_length {b : BufferId} {m : Memory} {i n : Nat} {vs : List Byte}
    (h : readRange b m i n = .ok vs) : vs.length = n :=
  (readRange_ok_iff.mp h).1

theorem readRange_ok_iff_holdsAt {b : BufferId} {m : Memory} {i : Nat} {vs : List Byte} {n : Nat} :
    readRange b m i n = .ok vs ↔ vs.length = n ∧ HoldsAt m i vs := by
  rw [readRange_ok_iff]
  constructor
  · rintro ⟨rfl, h⟩
    exact ⟨rfl, h⟩
  · rintro ⟨rfl, h⟩
    exact ⟨rfl, h⟩

/-- A range with a byte never written stops on such a byte (R53). -/
theorem readRange_of_unwritten {b : BufferId} {m : Memory} {i n k : Nat} (hk : k < n)
    (hm : memGet m (i + k) = none) :
    ∃ j, j < n ∧ memGet m (i + j) = none ∧
      readRange b m i n = .error (.unwrittenRead b (i + j)) := by
  cases h : readRange b m i n with
  | ok vs =>
    obtain ⟨hlen, hall⟩ := readRange_ok_iff.mp h
    have hk' := hall k hk
    rw [hm, List.getElem?_eq_getElem (by omega)] at hk'
    cases hk'
  | error f =>
    obtain ⟨j, hj, hnone, -, rfl⟩ := readRange_error_iff.mp h
    exact ⟨j, hj, hnone, rfl⟩

/-! The field commands: one lenient range read each (R150-R158). -/

/-- The range a field command reads: its offset and its number of bytes. -/
def fieldRead (s : State) : Instr → Nat × Nat
  | .fldU8 rel off => (fieldOffset rel off s, 1)
  | .fldU16 rel off => (fieldOffset rel off s, 2)
  | .fldU32 rel off => (fieldOffset rel off s, 4)
  | .fldS8 rel off => (fieldOffset rel off s, 1)
  | .fldYear rel off => (fieldOffset rel off s, 1)
  | .fldDate6 rel off => (fieldOffset rel off s, 6)
  | .fldIp rel off => (fieldOffset rel off s, 4)
  | .fldAscii rel off => (fieldOffset rel off s, fieldEnd rel s - fieldOffset rel off s)
  | _ => (0, 0)

/-- The table of the statements gives each field command's range. -/
theorem fieldRead_of_mem {i : Instr} {w : Nat} {rel : Bool} {off : Nat} {s : State}
    (h : (i, w) ∈ fieldWidths rel off (ea rel s.arg.toNat s - ea rel off s)) :
    isField i = true ∧ fieldRead s i = (ea rel off s, w) := by
  simp only [fieldWidths, List.mem_cons, Prod.mk.injEq, List.not_mem_nil, or_false] at h
  obtain ⟨rfl, rfl⟩ | ⟨rfl, rfl⟩ | ⟨rfl, rfl⟩ | ⟨rfl, rfl⟩ | ⟨rfl, rfl⟩ | ⟨rfl, rfl⟩ |
    ⟨rfl, rfl⟩ | ⟨rfl, rfl⟩ := h <;> exact ⟨rfl, rfl⟩

/-- What a field command makes of the bytes it read. -/
def fieldResult (s : State) (bs : List Byte) : Instr → State
  | .fldU8 _ _ => { s with res0 := zext8 (bs.getD 0 0) }
  | .fldU16 _ _ => { s with res0 := zext16 (le16 (bs.getD 0 0) (bs.getD 1 0)) }
  | .fldU32 _ _ =>
    { s with res0 := le32 (bs.getD 0 0) (bs.getD 1 0) (bs.getD 2 0) (bs.getD 3 0) }
  | .fldS8 _ _ => { s with res0 := (bs.getD 0 0).signExtend 32 }
  | .fldYear _ _ => { s with res0 := yearOf (bs.getD 0 0) }
  | .fldDate6 _ _ =>
    { s with
      res0 := yearOf (bs.getD 0 0)
      res1 := le32 (bs.getD 1 0) (bs.getD 2 0) (bs.getD 3 0) (bs.getD 4 0)
      res2 := zext8 (bs.getD 5 0) }
  | .fldIp _ _ =>
    putString (dottedQuad (bs.getD 0 0) (bs.getD 1 0) (bs.getD 2 0) (bs.getD 3 0))
      { s with res0 := le32 (bs.getD 0 0) (bs.getD 1 0) (bs.getD 2 0) (bs.getD 3 0) }
  | .fldAscii _ _ => putString (dropZeros bs) s
  | _ => s

theorem exec_field {i : Instr} (hf : isField i = true) (s : State) :
    exec i s = outcomeOf do
      let bs ← lenientRange s (fieldRead s i).1 (fieldRead s i).2
      return complete (fieldResult s bs i) := by
  cases i with
  | fldU8 rel off =>
    simp [exec, execFldU8, fieldRead, fieldResult, lenientRange]
  | fldU16 rel off =>
    simp [exec, execFldU16, fieldRead, fieldResult, lenientRange]
  | fldU32 rel off =>
    simp [exec, execFldU32, fieldRead, fieldResult, lenientRange]
  | fldS8 rel off =>
    simp [exec, execFldS8, fieldRead, fieldResult, lenientRange]
  | fldYear rel off =>
    simp [exec, execFldYear, fieldRead, fieldResult, lenientRange]
  | fldDate6 rel off =>
    simp [exec, execFldDate6, fieldRead, fieldResult, lenientRange]
  | fldIp rel off =>
    simp [exec, execFldIp, fieldRead, fieldResult, lenientRange]
  | fldAscii rel off => rfl
  | _ => cases hf

/-- A field command writes RES0-RES2, STRBUF and STRLEN alone. -/
theorem fieldResult_eq (s : State) (bs : List Byte) (i : Instr) :
    ∃ r0 r1 r2 buf len, fieldResult s bs i =
      { s with res0 := r0, res1 := r1, res2 := r2, strbuf := buf, strlen := len } := by
  cases i <;> exact ⟨_, _, _, _, _, rfl⟩

theorem exec_field_next {i : Instr} {s t : State} (hf : isField i = true)
    (h : exec i s = .next t) :
    ∃ r0 r1 r2 buf len, t = complete
      { s with res0 := r0, res1 := r1, res2 := r2, strbuf := buf, strlen := len } := by
  rw [exec_field hf] at h
  simp only [outcomeOf_next_iff, bind_ok_iff, except_pure, Except.ok.injEq] at h
  obtain ⟨bs, -, rfl⟩ := h
  obtain ⟨r0, r1, r2, buf, len, hres⟩ := fieldResult_eq s bs i
  exact ⟨r0, r1, r2, buf, len, by rw [hres]⟩

/-- A case analysis over the commands with the eight field commands as one case. -/
theorem instrCases {motive : Instr → Prop} (crcInit : motive .crcInit)
    (crcByte : ∀ d, motive (.crcByte d)) (crcRx : ∀ start, motive (.crcRx start))
    (frmEnc : ∀ c p, motive (.frmEnc c p)) (frmDec : motive .frmDec)
    (field : ∀ i, isField i = true → motive i) (rspCheck : ∀ c, motive (.rspCheck c))
    (recStart : motive .recStart) (recNext : ∀ att, motive (.recNext att)) (i : Instr) :
    motive i := by
  cases i with
  | crcInit => exact crcInit
  | crcByte d => exact crcByte d
  | crcRx start => exact crcRx start
  | frmEnc c p => exact frmEnc c p
  | frmDec => exact frmDec
  | rspCheck c => exact rspCheck c
  | recStart => exact recStart
  | recNext att => exact recNext att
  | _ => exact field _ rfl

/-! The other commands, an equation per case. -/

theorem exec_crcRx_range {start : Nat} {s : State} (h : s.rxlen.toNat < start + s.arg.toNat) :
    exec (.crcRx start) s = .next (raiseErr .range s) := by
  simp only [exec, execCrcRx]
  exact if_pos h

theorem exec_crcRx_inside {start : Nat} {s : State} (h : start + s.arg.toNat ≤ s.rxlen.toNat) :
    exec (.crcRx start) s = outcomeOf do
      let bytes ← readRange .rx s.rxbuf start s.arg.toNat
      return complete { s with crc := crcFold s.crc bytes } := by
  simp only [exec, execCrcRx]
  exact if_neg (Nat.not_lt.mpr h)

theorem exec_frmDec_short {s : State} (h : s.rxlen.toNat < 8) :
    exec .frmDec s = .next (raiseErr .frameShort { s with ckok := false }) := by
  simp only [exec, execFrmDec]
  exact if_pos h

theorem exec_frmDec_noHeader {s : State} (h : 8 ≤ s.rxlen.toNat) (h0 : memGet s.rxbuf 0 = none) :
    exec .frmDec s = .fault (.unwrittenRead .rx 0) := by
  have hread : readByte .rx s.rxbuf 0 = .error (.unwrittenRead .rx 0) :=
    readByte_error_iff.mpr ⟨h0, rfl⟩
  simp [exec, execFrmDec, minFrame, Nat.not_lt.mpr h, hread]

theorem exec_frmDec_badHeader {s : State} {b : Byte} (h : 8 ≤ s.rxlen.toNat)
    (h0 : memGet s.rxbuf 0 = some b) (hb : b ≠ headerByte) :
    exec .frmDec s = .next (raiseErr .frameBadHeader { s with ckok := false }) := by
  have hread : readByte .rx s.rxbuf 0 = .ok b := readByte_ok_iff.mpr h0
  simp [exec, execFrmDec, minFrame, Nat.not_lt.mpr h, hread, hb]

/-- With a good header FRM.DEC reads the whole frame RXBUF[0 .. RXLEN-1] and accepts it (R133). -/
theorem exec_frmDec_goodHeader {s : State} (h : 8 ≤ s.rxlen.toNat)
    (h0 : memGet s.rxbuf 0 = some 0xA5) :
    exec .frmDec s = outcomeOf do
      let fr ← readRange .rx s.rxbuf 0 s.rxlen.toNat
      return acceptFrame ((fr.drop 1).take (fr.length - 3)) (fr.getD (fr.length - 2) 0)
        (fr.getD (fr.length - 1) 0) s := by
  have hread : readByte .rx s.rxbuf 0 = .ok 0xA5 := readByte_ok_iff.mpr h0
  obtain ⟨n, hn⟩ : ∃ n, s.rxlen.toNat = 1 + n + 2 := ⟨s.rxlen.toNat - 3, by omega⟩
  have hbody : s.rxlen.toNat - 3 = n := by omega
  have hlo : s.rxlen.toNat - 2 = 1 + n := by omega
  have hhi : s.rxlen.toNat - 1 = 1 + n + 1 := by omega
  simp only [exec, execFrmDec, minFrame, Nat.not_lt.mpr h, if_false, hread, hbody, hlo, hhi]
  rw [hn, readRange_append, readRange_append]
  cases hb : readRange .rx s.rxbuf 1 n with
  | error f => simp [readRange, hread, headerByte]
  | ok body =>
    obtain rfl := readRange_length hb
    cases hl : readByte .rx s.rxbuf (1 + body.length) with
    | error f => simp [readRange, hread, headerByte, hl]
    | ok lo =>
      cases hh : readByte .rx s.rxbuf (1 + body.length + 1) with
      | error f => simp [readRange, hread, headerByte, hl, hh]
      | ok hi => simp [readRange, hread, headerByte, hl, hh]

theorem exec_frmEnc_range {c : Byte} {p : Nat} {s : State} (h : s.bufBytes < minFrame + p) :
    exec (.frmEnc c p) s = .next (raiseErr .range s) := by
  simp only [exec, execFrmEnc]
  exact if_pos h

theorem exec_frmEnc_fits {c : Byte} {p : Nat} {s : State} (h : minFrame + p ≤ s.bufBytes) :
    exec (.frmEnc c p) s = outcomeOf do
      let bytes ← readRange .tx (memPutAll s.txbuf 0 (frameHead s.devid c)) 1 (5 + p)
      return complete
        { s with
          txbuf := memPutAll (memPutAll s.txbuf 0 (frameHead s.devid c)) (6 + p)
            (checksumBytes (crcCompute bytes))
          txlen := BitVec.ofNat 16 (minFrame + p)
          crc := crcCompute bytes } := by
  simp only [exec, execFrmEnc]
  exact if_neg (Nat.not_lt.mpr h)

theorem exec_rspCheck_eq (c : Byte) (s : State) :
    exec (.rspCheck c) s = .next
      (if (catGet s.cat c.toNat).valid = false then raiseErr .unknownCommand s
      else if s.rxlen.toNat < (catGet s.cat c.toNat).minLen.toNat then
        raiseErr .incompleteResponse s
      else complete (loadDescriptor (catGet s.cat c.toNat) s)) := by
  simp only [exec, execRspCheck, apply_ite Host.Outcome.next, Bool.not_eq_true']

theorem exec_recStart_eq (s : State) :
    exec .recStart s = .next
      (if s.recW = 0 ∨ s.recHdr.toNat < s.recFirst.toNat then raiseErr .badParam s
      else complete
        { s with
          recCount := BitVec.ofNat 16 (recordCount s.rxlen.toNat s.recHdr.toNat s.recW.toNat)
          recIdx := 0
          recBase := zext16 s.recFirst
          endFlag := false }) := by
  simp only [exec, execRecStart, apply_ite Host.Outcome.next, ite_or]
  rfl

theorem exhausted_eq_true_iff (s : State) :
    exhausted s = true ↔ s.recCount.toNat ≤ s.recIdx.toNat := decide_eq_true_iff

/-- What REC.NEXT.ATT makes of the bytes 0, 1 and 6 .. 15 of a record (R186, R188). -/
def attendanceResult (s : State) (user time : List Byte) : State :=
  { s with
    res0 := ((time.getD 0 0).setWidth 16 + 2000#16 : Half) ++ le16 (user.getD 0 0) (user.getD 1 0)
    res1 := le32 (time.getD 1 0) (time.getD 2 0) (time.getD 3 0) (time.getD 4 0)
    res2 := zext8 (time.getD 5 0)
    res3 := le32 (time.getD 6 0) (time.getD 7 0) (time.getD 8 0) (time.getD 9 0) }

/-- An attendance record is two lenient range reads. -/
theorem readAttendance_eq (base : Nat) (s : State) :
    readAttendance base s = do
      let user ← lenientRange s base 2
      let time ← lenientRange s (base + 6) 10
      return attendanceResult s user time := by
  simp [readAttendance, lenientRange, attendanceResult]

theorem exec_recNext_exhausted {att : Bool} {s : State} (h : s.recCount.toNat ≤ s.recIdx.toNat) :
    exec (.recNext att) s = .next (complete { s with endFlag := true }) := by
  simp only [exec, execRecNext]
  exact if_pos ((exhausted_eq_true_iff s).mpr h)

theorem exec_recNext_plain {s : State} (h : s.recIdx.toNat < s.recCount.toNat) :
    exec (.recNext false) s = .next (complete (advanceRecord s)) := by
  have hleft : exhausted s = false := by
    simpa [exhausted] using h
  simp [exec, execRecNext, hleft]

theorem exec_recNext_narrow {s : State} (h : s.recIdx.toNat < s.recCount.toNat)
    (hw : s.recW.toNat < 16) : exec (.recNext true) s = .next (raiseErr .badParam s) := by
  have hleft : exhausted s = false := by
    simpa [exhausted] using h
  simp [exec, execRecNext, hleft, attendanceWidth, hw]

theorem exec_recNext_attendance {s : State} (h : s.recIdx.toNat < s.recCount.toNat)
    (hw : 16 ≤ s.recW.toNat) :
    exec (.recNext true) s = outcomeOf do
      let user ← lenientRange s (recordBase s) 2
      let time ← lenientRange s (recordBase s + 6) 10
      return complete (advanceRecord (attendanceResult s user time)) := by
  have hleft : exhausted s = false := by
    simpa [exhausted] using h
  simp [exec, execRecNext, hleft, attendanceWidth, Nat.not_lt.mpr hw, readAttendance_eq]

/-! What no command does. -/

theorem exec_not_refused (i : Instr) (s : State) (q : Refusal) : exec i s ≠ .refused q := by
  cases i using instrCases with
  | crcInit | crcByte d => nofun
  | crcRx start =>
    simp only [exec, execCrcRx]
    split
    · nofun
    · exact outcomeOf_not_refused _ q
  | frmEnc c p =>
    simp only [exec, execFrmEnc]
    split
    · nofun
    · exact outcomeOf_not_refused _ q
  | frmDec =>
    simp only [exec, execFrmDec]
    split
    · nofun
    · exact outcomeOf_not_refused _ q
  | field i hf =>
    rw [exec_field hf]
    exact outcomeOf_not_refused _ q
  | rspCheck c =>
    rw [exec_rspCheck_eq]
    nofun
  | recStart =>
    rw [exec_recStart_eq]
    nofun
  | recNext att =>
    simp only [exec, execRecNext]
    split
    · nofun
    · split
      · nofun
      · split
        · exact outcomeOf_not_refused _ q
        · nofun

theorem step_not_refused (s : State) (q : Refusal) : step s ≠ .refused q := by
  unfold step
  split
  · nofun
  · split
    · exact exec_not_refused _ s q
    · nofun
  · exact hostStep_not_refused _ s q
  · exact hostStep_not_refused _ (passTurn s) q

theorem exec_keeps_ckok {i : Instr} {s t : State} (hi : i ≠ .frmDec) (h : exec i s = .next t) :
    t.ckok = s.ckok := by
  cases i using instrCases with
  | crcInit | crcByte d => cases h; rfl
  | crcRx start => obtain ⟨-, rfl⟩ | ⟨-, r, rfl⟩ := exec_crcRx_next h <;> rfl
  | frmEnc c p => obtain ⟨-, rfl⟩ | ⟨-, r, -, rfl⟩ := exec_frmEnc_next h <;> rfl
  | frmDec => exact absurd rfl hi
  | field i hf =>
    obtain ⟨r0, r1, r2, buf, len, rfl⟩ := exec_field_next hf h
    rfl
  | rspCheck c =>
    obtain rfl | rfl | rfl := exec_rspCheck_next h
    · rfl
    · rfl
    · rw [loadDescriptor_eq]; rfl
  | recStart => obtain rfl | ⟨-, -, rfl⟩ := exec_recStart_next h <;> rfl
  | recNext att =>
    obtain ⟨-, rfl⟩ | ⟨-, -, rfl⟩ | ⟨-, -, r0, r1, r2, r3, rfl⟩ | ⟨-, -, rfl⟩ :=
      exec_recNext_next h <;> rfl

theorem exec_keeps_endFlag {i : Instr} {s t : State} (hs : i ≠ .recStart)
    (hn : ∀ att, i ≠ .recNext att) (h : exec i s = .next t) : t.endFlag = s.endFlag := by
  cases i using instrCases with
  | crcInit | crcByte d => cases h; rfl
  | crcRx start => obtain ⟨-, rfl⟩ | ⟨-, r, rfl⟩ := exec_crcRx_next h <;> rfl
  | frmEnc c p => obtain ⟨-, rfl⟩ | ⟨-, r, -, rfl⟩ := exec_frmEnc_next h <;> rfl
  | frmDec =>
    obtain ⟨-, rfl⟩ | ⟨-, rfl⟩ | ⟨-, -, body, lo, hi, -, -, -, rfl⟩ := exec_frmDec_next h
    · rfl
    · rfl
    · rw [acceptFrame_eq]
  | field i hf =>
    obtain ⟨r0, r1, r2, buf, len, rfl⟩ := exec_field_next hf h
    rfl
  | rspCheck c =>
    obtain rfl | rfl | rfl := exec_rspCheck_next h
    · rfl
    · rfl
    · rw [loadDescriptor_eq]; rfl
  | recStart => exact absurd rfl hs
  | recNext att => exact absurd rfl (hn att)

/-! What a command stops on (R53). -/

/-- The fault of a read of an RXBUF byte below RXLEN that nothing has written. -/
def IsMissingRead (s : State) (f : Fault) : Prop := ∃ k, f = .unwrittenRead .rx k ∧ Missing s k

theorem lenientRange_error_isMissingRead {s : State} {i n : Nat} {f : Fault}
    (h : lenientRange s i n = .error f) : IsMissingRead s f := by
  obtain ⟨j, -, hm, rfl⟩ := missing_of_lenientRange_error h
  exact ⟨i + j, rfl, hm⟩

theorem readRange_error_isMissingRead {s : State} {i n : Nat} {f : Fault}
    (hin : i + n ≤ s.rxlen.toNat) (h : readRange .rx s.rxbuf i n = .error f) :
    IsMissingRead s f := by
  obtain ⟨k, hk, hnone, -, rfl⟩ := readRange_error_iff.mp h
  exact ⟨i + k, rfl, by omega, hnone⟩

theorem crcRx_fault {start : Nat} {s : State} {f : Fault} (h : exec (.crcRx start) s = .fault f) :
    IsMissingRead s f := by
  by_cases hr : s.rxlen.toNat < start + s.arg.toNat
  · rw [exec_crcRx_range hr] at h
    cases h
  · have hin := Nat.not_lt.mp hr
    rw [exec_crcRx_inside hin, outcomeOf_fault_iff, bind_error_iff] at h
    obtain hread | ⟨_, -, hdone⟩ := h
    · exact readRange_error_isMissingRead hin hread
    · cases hdone

theorem frmDec_fault {s : State} {f : Fault} (h : exec .frmDec s = .fault f) :
    IsMissingRead s f := by
  by_cases hl : s.rxlen.toNat < 8
  · rw [exec_frmDec_short hl] at h
    cases h
  · have h8 := Nat.not_lt.mp hl
    cases h0 : memGet s.rxbuf 0 with
    | none =>
      rw [exec_frmDec_noHeader h8 h0] at h
      cases h
      exact ⟨0, rfl, by omega, h0⟩
    | some b =>
      by_cases hb : b = headerByte
      · subst hb
        rw [exec_frmDec_goodHeader h8 h0, outcomeOf_fault_iff, bind_error_iff] at h
        obtain hread | ⟨_, -, hdone⟩ := h
        · exact readRange_error_isMissingRead (by omega) hread
        · cases hdone
      · rw [exec_frmDec_badHeader h8 h0 hb] at h
        cases h

theorem field_fault {i : Instr} {s : State} {f : Fault} (hf : isField i = true)
    (h : exec i s = .fault f) : IsMissingRead s f := by
  rw [exec_field hf, outcomeOf_fault_iff, bind_error_iff] at h
  obtain hread | ⟨_, -, hdone⟩ := h
  · exact lenientRange_error_isMissingRead hread
  · cases hdone

theorem recNext_fault {att : Bool} {s : State} {f : Fault}
    (h : exec (.recNext att) s = .fault f) : IsMissingRead s f := by
  by_cases he : s.recCount.toNat ≤ s.recIdx.toNat
  · rw [exec_recNext_exhausted he] at h
    cases h
  · have hleft := Nat.not_le.mp he
    cases att with
    | false =>
      rw [exec_recNext_plain hleft] at h
      cases h
    | true =>
      by_cases hw : s.recW.toNat < 16
      · rw [exec_recNext_narrow hleft hw] at h
        cases h
      · rw [exec_recNext_attendance hleft (Nat.not_lt.mp hw), outcomeOf_fault_iff] at h
        simp only [bind_error_iff] at h
        obtain huser | ⟨_, -, htime | ⟨_, -, hdone⟩⟩ := h
        · exact lenientRange_error_isMissingRead huser
        · exact lenientRange_error_isMissingRead htime
        · cases hdone

/-- FRM.ENC stops on a payload byte alone: the head is written before it reads (R131). -/
theorem frmEnc_fault {c : Byte} {p : Nat} {s : State} {f : Fault}
    (h : exec (.frmEnc c p) s = .fault f) :
    ∃ k, f = .unwrittenRead .tx k ∧ 6 ≤ k ∧ k < 6 + p ∧ memGet s.txbuf k = none := by
  by_cases hr : s.bufBytes < minFrame + p
  · rw [exec_frmEnc_range hr] at h
    cases h
  · rw [exec_frmEnc_fits (Nat.not_lt.mp hr), outcomeOf_fault_iff, bind_error_iff] at h
    obtain hread | ⟨_, -, hdone⟩ := h
    · obtain ⟨k, hk, hnone, -, rfl⟩ := readRange_error_iff.mp hread
      have hhead : 6 ≤ 1 + k := by
        by_contra hlt
        have hin : 1 + k < (frameHead s.devid c).length := Nat.not_le.mp hlt
        have hwritten := memGet_memPutAll_inside (frameHead s.devid c) s.txbuf (i := 0) hin
        rw [Nat.zero_add, hnone, List.getElem?_eq_getElem hin] at hwritten
        cases hwritten
      rw [memGet_memPutAll_outside _ _ (.inr (by simpa [Safety.length_frameHead] using hhead))]
        at hnone
      exact ⟨1 + k, rfl, hhead, by omega, hnone⟩
    · cases hdone

end Sys2Proof.Machine
end

section
/-! SUPPORT. The step (R47, R72, R253), the decoded word (R93), another ARG (R31) and the values after reset (R50, R54), as the statements below use them. -/

namespace Sys2Proof

/-- A decoded command is well-formed: its operands come from their fields (R93). -/
theorem wf_of_decode {w : Word} {i : Instr} (h : decode w = some i) : i.wf = true := by
  rw [decode_eq_some_iff, decodeWord_ok_iff] at h
  obtain ⟨o, -, -, rfl⟩ := h
  have hoff : fitsOff16 (wordOff w).toNat = true := decide_eq_true (wordOff w).isLt
  cases o with
  | crcInit | crcByte | frmDec | rspCheck | recStart | recNext => rfl
  | _ => exact hoff

theorem ofNat_toNat_mod (w : Word) : BitVec.ofNat 32 (w.toNat % 2 ^ 32) = w := by
  rw [Nat.mod_eq_of_lt w.isLt, BitVec.ofNat_toNat, BitVec.setWidth_eq]

/-- The host's view of a whole word is the decoder. -/
theorem decodeTableWord_toNat (w : Word) : decodeTableWord 32 w.toNat = decode w := by
  rw [decodeTableWord, ofNat_toNat_mod]
  simp only [wordToBytes, decodeBytes, bytesToWord_bytes]
  rfl

end Sys2Proof

namespace Sys2Proof.Machine

open Sys2Proof.Claims

/-! The step. -/

theorem withFetchWord_toNat (s : State) (w : Word) :
    s.withFetchWord 32 w.toNat = placeCommand w s := by
  rw [State.withFetchWord, ofNat_toNat_mod]

theorem step_of_engineDue {s : State} {w : Word} {i : Instr} (hdue : engineDue s w)
    (hd : decode w = some i) : step s = exec i s := by
  simp only [step, whoMoves_engine_iff.mpr hdue, hd]

/-- A step with a command pending is a fault, or ends the command, or uses up a turn of its latency
(R47, R253). -/
theorem step_of_pending {s : State} {w : Word} (hp : s.pending = some w) :
    (∃ f, step s = .fault f) ∨ ∃ t, step s = .next t ∧
      (t.pending = none ∨ (t.pending = some w ∧ t.delay + 1 = s.delay)) := by
  cases h : step s with
  | fault f => exact .inl ⟨f, rfl⟩
  | refused q => exact absurd h (step_not_refused s q)
  | next t =>
    refine .inr ⟨t, rfl, ?_⟩
    unfold step at h
    split at h
    next hm =>
      obtain ⟨hnone, -⟩ := whoMoves_idle_iff.mp hm
      rw [hp] at hnone
      cases hnone
    next =>
      split at h
      · exact .inl (exec_next_hostView h).1
      · cases h
        exact .inl rfl
    next st hm =>
      obtain ⟨hnone, -⟩ := whoMoves_host_iff.mp hm
      rw [hp] at hnone
      cases hnone
    next st hm =>
      obtain ⟨-, -, hdelay, -⟩ := whoMoves_hostFirst_iff.mp hm
      obtain hnone | ⟨hsome, hturn⟩ := hostStep_pending (s := passTurn s) hp h
      · exact .inl hnone
      · rw [passTurn_delay] at hturn
        exact .inr ⟨hsome, by omega⟩

theorem run_succ_of_next {s t : State} (h : step s = .next t) (k : Nat) :
    Host.Core.run core (k + 1) s = Host.Core.run core k t := by
  have hc : core.step s = .next t := h
  simp only [Host.Core.run, hc]

theorem run_one_of_fault {s : State} {f : Fault} (h : step s = .fault f) :
    Host.Core.run core 1 s = .fault f := by
  have hc : core.step s = .fault f := h
  simp only [Host.Core.run, hc]

/-- The pending command is over, or a model fault has ended the run, within that many steps. -/
def EndsWithin (n : Nat) (s : State) : Prop :=
  ∃ k, k ≤ n ∧ ((∃ f, Host.Core.run core k s = .fault f) ∨
    ∃ t : State, Host.Core.run core k s = .next t ∧ t.pending = none)

theorem EndsWithin.of_next {n : Nat} {s t : State} (h : step s = .next t) (ht : EndsWithin n t) :
    EndsWithin (n + 1) s := by
  obtain ⟨k, hk, hend⟩ := ht
  refine ⟨k + 1, by omega, ?_⟩
  rwa [run_succ_of_next h]

/-- By induction on the latency: each step of the host while the command waits uses up one turn. -/
theorem endsWithin_of_pending {d : Nat} {s : State} {w : Word} (hp : s.pending = some w)
    (hd : s.delay = d) : EndsWithin (d + 1) s := by
  induction d generalizing s with
  | zero =>
    obtain ⟨f, hf⟩ | ⟨t, ht, hnone | ⟨-, hdelay⟩⟩ := step_of_pending hp
    · exact ⟨1, by omega, .inl ⟨f, run_one_of_fault hf⟩⟩
    · exact .of_next ht ⟨0, by omega, .inr ⟨t, rfl, hnone⟩⟩
    · omega
  | succ d ih =>
    obtain ⟨f, hf⟩ | ⟨t, ht, hnone | ⟨hsome, hdelay⟩⟩ := step_of_pending hp
    · exact ⟨1, by omega, .inl ⟨f, run_one_of_fault hf⟩⟩
    · exact .of_next ht ⟨0, by omega, .inr ⟨t, rfl, hnone⟩⟩
    · exact .of_next ht (ih hsome (by omega))

/-! Another ARG. -/

/-- Another value in ARG. -/
def withArg (x : Half) (s : State) : State := { s with arg := x }

/-- A change made to the next state is made inside the reads. -/
theorem mapNext_outcomeOf (g : State → State) (r : Except Fault State) :
    mapNext g (outcomeOf r) = outcomeOf (g <$> r) := by
  cases r <;> rfl

theorem fieldRead_withArg {i : Instr} (hi : usesArg i = false) (x : Half) (s : State) :
    fieldRead (withArg x s) i = fieldRead s i := by
  cases i with
  | fldAscii rel off => cases hi
  | _ => rfl

theorem fieldResult_withArg (i : Instr) (x : Half) (s : State) (bs : List Byte) :
    fieldResult (withArg x s) bs i = withArg x (fieldResult s bs i) := by
  cases i <;> rfl

theorem exec_withArg {i : Instr} (hi : usesArg i = false) (x : Half) (s : State) :
    exec i (withArg x s) = mapNext (withArg x) (exec i s) := by
  cases i using instrCases with
  | crcInit | crcByte d => rfl
  | crcRx start => cases hi
  | frmEnc c p =>
    by_cases hr : s.bufBytes < minFrame + p
    · rw [exec_frmEnc_range hr, exec_frmEnc_range (s := withArg x s) hr]
      rfl
    · have hfit := Nat.not_lt.mp hr
      rw [exec_frmEnc_fits hfit, exec_frmEnc_fits (s := withArg x s) hfit]
      simp only [mapNext_outcomeOf, map_bind, map_pure]
      rfl
  | frmDec =>
    by_cases hl : s.rxlen.toNat < 8
    · rw [exec_frmDec_short hl, exec_frmDec_short (s := withArg x s) hl]
      rfl
    · have h8 := Nat.not_lt.mp hl
      cases h0 : memGet s.rxbuf 0 with
      | none =>
        rw [exec_frmDec_noHeader h8 h0, exec_frmDec_noHeader (s := withArg x s) h8 h0]
        rfl
      | some b =>
        by_cases hb : b = headerByte
        · subst hb
          rw [exec_frmDec_goodHeader h8 h0, exec_frmDec_goodHeader (s := withArg x s) h8 h0]
          simp only [mapNext_outcomeOf, map_bind, map_pure, acceptFrame_eq]
          rfl
        · rw [exec_frmDec_badHeader h8 h0 hb, exec_frmDec_badHeader (s := withArg x s) h8 h0 hb]
          rfl
  | field i hf =>
    have hread := lenientRange_congr (s := s) (s' := withArg x s) rfl rfl
    rw [exec_field hf, exec_field hf]
    simp only [mapNext_outcomeOf, map_bind, map_pure, fieldRead_withArg hi, fieldResult_withArg,
      hread]
    rfl
  | rspCheck c =>
    simp only [exec_rspCheck_eq, mapNext, loadDescriptor_eq, apply_ite (withArg x)]
    rfl
  | recStart =>
    simp only [exec_recStart_eq, mapNext, apply_ite (withArg x)]
    rfl
  | recNext att =>
    by_cases he : s.recCount.toNat ≤ s.recIdx.toNat
    · rw [exec_recNext_exhausted he, exec_recNext_exhausted (s := withArg x s) he]
      rfl
    · have hleft := Nat.not_le.mp he
      cases att with
      | false =>
        rw [exec_recNext_plain hleft, exec_recNext_plain (s := withArg x s) hleft]
        rfl
      | true =>
        by_cases hw : s.recW.toNat < 16
        · rw [exec_recNext_narrow hleft hw, exec_recNext_narrow (s := withArg x s) hleft hw]
          rfl
        · have hwide := Nat.not_lt.mp hw
          rw [exec_recNext_attendance hleft hwide,
            exec_recNext_attendance (s := withArg x s) hleft hwide]
          have hread := lenientRange_congr (s := s) (s' := withArg x s) rfl rfl
          simp only [mapNext_outcomeOf, map_bind, map_pure, hread]
          rfl

/-! Reset. -/

theorem catWordAddr_toNat {c k : Nat} (hc : c < 256) (hk : k < 4) :
    (catWordAddr c k).toNat = 0x1000 + 16 * c + 4 * k := by
  rw [catWordAddr, BitVec.toNat_ofNat]
  omega

theorem regionOf_catWordAddr {c k : Nat} (hc : c < 256) (hk : k < 4) :
    regionOf (catWordAddr c k).toNat = .cat c k := by
  rw [catWordAddr_toNat hc hk, regionOf, if_neg (by omega), if_neg (by omega), if_pos (by omega)]
  congr 1 <;> omega

theorem accessOk_catWordAddr {c k : Nat} (hc : c < 256) (hk : k < 4) :
    accessOk (catWordAddr c k) .four = true := by
  have halign : (0x1000 + 16 * c + 4 * k) % 4 = 0 := by omega
  rw [accessOk, regionOf_catWordAddr hc hk, catWordAddr_toNat hc hk, widthBytes, halign]
  rfl

/-- The host reads a catalog word, with nothing pending (R63). -/
theorem hostRead_catWordAddr {c k : Nat} {s : State} (hc : c < 256) (hk : k < 4)
    (hp : s.pending = none) :
    hostRead (catWordAddr c k) .four s = .ok (catWord (catGet s.cat c) k) := by
  simp [hostRead, accessOk_catWordAddr hc hk, regionOf_catWordAddr hc hk, busy, hp]

theorem catWord_zero (k : Nat) : catWord .zero k = 0 := by
  match k with
  | 0 => rfl
  | 1 => rfl
  | 2 => rfl
  | _ + 3 => rfl

theorem hostRead_catWordAddr_reset {c k : Nat} (hc : c < 256) (hk : k < 4) :
    hostRead (catWordAddr c k) .four State.reset = .ok 0 := by
  rw [hostRead_catWordAddr hc hk rfl, ← catWord_zero k]
  rfl

end Sys2Proof.Machine
end

section
/-! The statements about the state, its registers and the schedule (R7, R21-R54, R253). -/

namespace Sys2Proof.Proofs

open Sys2Proof.Machine Sys2Proof.Claims

/-- Settles O4: by induction on the latency. -/
theorem pendingCommandEnds : Obligations.PendingCommandEnds :=
  fun _ _ hp => endsWithin_of_pending hp rfl

/-- Settles O7: command by command. -/
theorem commandsStopOnlyOnUnwrittenBytes : Obligations.CommandsStopOnlyOnUnwrittenBytes := by
  refine ⟨step_not_refused, fun i s f h => ?_⟩
  cases i using instrCases with
  | crcInit | crcByte d => cases h
  | crcRx start => exact .inr (crcRx_fault h)
  | frmEnc c p =>
    obtain ⟨k, hf, hlo, hhi, hnone⟩ := frmEnc_fault h
    exact .inl ⟨c, p, k, rfl, hf, hlo, hhi, hnone⟩
  | frmDec => exact .inr (frmDec_fault h)
  | field i hf => exact .inr (field_fault hf h)
  | rspCheck c =>
    rw [exec_rspCheck_eq] at h
    cases h
  | recStart =>
    rw [exec_recStart_eq] at h
    cases h
  | recNext att => exact .inr (recNext_fault h)

/-- Settles O8: each command's range read stops on a byte of its range. -/
theorem unwrittenByteStopsTheCommand : Obligations.UnwrittenByteStopsTheCommand := by
  refine ⟨fun i w rel off s k hi hk hm => ?_, fun st s k hin hk hm => ?_, fun s h8 hm => ?_,
    fun s k h8 h0 hm => ?_, fun s base k hleft hw hbase hk hbytes hm => ?_⟩
  · obtain ⟨hf, hwhere⟩ := fieldRead_of_mem hi
    obtain ⟨j, hj, hmj, hread⟩ := lenientRange_of_missing hk hm
    refine ⟨j, hj, hmj, ?_⟩
    rw [exec_field hf, hwhere, hread]
    rfl
  · obtain ⟨j, hj, hnone, hread⟩ := readRange_of_unwritten (b := .rx) hk hm.2
    refine ⟨j, hj, ⟨by omega, hnone⟩, ?_⟩
    rw [exec_crcRx_inside hin, hread]
    rfl
  · exact exec_frmDec_noHeader h8 hm.2
  · obtain ⟨hlt, hnone⟩ := hm
    rw [← Nat.zero_add k] at hnone
    obtain ⟨j, hj, hjnone, hread⟩ := readRange_of_unwritten (b := .rx) hlt hnone
    rw [Nat.zero_add] at hjnone hread
    refine ⟨j, ⟨hj, hjnone⟩, ?_⟩
    rw [exec_frmDec_goodHeader h8 h0, hread]
    rfl
  · subst hbase
    rw [exec_recNext_attendance hleft hw]
    cases huser : lenientRange s (recordBase s) 2 with
    | error f =>
      obtain ⟨j, hj, hmj, rfl⟩ := missing_of_lenientRange_error huser
      exact ⟨j, by omega, .inl hj, hmj, rfl⟩
    | ok user =>
      have h6 : 6 ≤ k := hbytes.resolve_left fun h2 => by
        obtain ⟨j, -, -, hbad⟩ := lenientRange_of_missing (i := recordBase s) h2 hm
        rw [huser] at hbad
        cases hbad
      obtain ⟨d, rfl⟩ := Nat.exists_eq_add_of_le h6
      rw [← Nat.add_assoc] at hm
      obtain ⟨j, hj, hmj, htime⟩ :=
        lenientRange_of_missing (i := recordBase s + 6) (n := 10) (by omega) hm
      rw [Nat.add_assoc] at hmj
      refine ⟨6 + j, by omega, .inr (by omega), hmj, ?_⟩
      rw [except_ok_bind, htime, Nat.add_assoc]
      rfl

/-- Settles O35: only an accepted frame sets CKOK, and it is the frame in RXBUF. -/
theorem ckokReportsFrmDecOnly : Obligations.CkokReportsFrmDecOnly := by
  refine ⟨fun i s t hi h => exec_keeps_ckok hi h, fun s t h => ⟨fun hck => ?_, ?_⟩⟩
  · obtain ⟨-, rfl⟩ | ⟨-, rfl⟩ | ⟨h8, hhead, -⟩ := exec_frmDec_next h
    · cases hck
    · cases hck
    · have h0 := readByte_ok_iff.mp hhead
      rw [exec_frmDec_goodHeader h8 h0, outcomeOf_next_iff, bind_ok_iff] at h
      obtain ⟨fr, hread, hdone⟩ := h
      obtain ⟨hlen, hheld⟩ := readRange_ok_iff_holdsAt.mp hread
      cases hdone
      rw [acceptFrame_eq] at hck
      refine ⟨fr, hlen ▸ h8, hlen, hheld, ?_, of_decide_eq_true hck⟩
      have hfr0 := hheld 0 (Nat.lt_of_lt_of_le (by decide) (hlen ▸ h8))
      rw [← hfr0]
      exact h0
  · rintro ⟨fr, h8, hlen, hheld, hhead, hsum⟩
    have h0 : memGet s.rxbuf 0 = some 0xA5 := by
      rw [← hhead]
      exact hheld 0 (by omega)
    rw [exec_frmDec_goodHeader (hlen ▸ h8) h0, readRange_ok_iff_holdsAt.mpr ⟨hlen, hheld⟩] at h
    cases h
    rw [acceptFrame_eq]
    exact decide_eq_true hsum

/-- Settles O36: by the outcomes of REC.START and REC.NEXT. -/
theorem endWrittenByRecordCommandsOnly : Obligations.EndWrittenByRecordCommandsOnly := by
  intro i s t h
  split
  · obtain rfl | ⟨-, -, rfl⟩ := exec_recStart_next h
    · rfl
    · rfl
  · obtain ⟨he, rfl⟩ | ⟨-, -, rfl⟩ | ⟨hlt, -, r0, r1, r2, r3, rfl⟩ | ⟨hlt, -, rfl⟩ :=
      exec_recNext_next h
    · simp [he]
    · rfl
    · simp [hlt]
    · simp [hlt]
  next hs hn => exact exec_keeps_endFlag hs hn h

/-- Settles O37: the two writes, and every step that changes OVR is a host statement's. -/
theorem ovrSetAndClearedOnlyByTheHost : Obligations.OvrSetAndClearedOnlyByTheHost := by
  refine ⟨fun s w v hp => ?_, fun s v => hostWrite_csr (r := .status) (.inr rfl),
    fun s t h hne => ?_⟩
  · rw [← writeCmd_of_pending hp]
    exact hostWrite_csr (r := .cmd) (.inr rfl)
  · obtain ⟨st, u, hnext, hx, hp, hovr⟩ := hostStep_of_step_ovr h hne
    rw [← hovr] at hne
    rw [← hp, hnext]
    obtain ⟨v, rfl, hrest⟩ | ⟨v, rfl, hrest⟩ | ⟨rfl, hrest⟩ := hostStep_ovr hx hne
    · exact .inl ⟨v, rfl, hrest⟩
    · exact .inr (.inl ⟨v, rfl, hrest⟩)
    · exact .inr (.inr ⟨rfl, hrest⟩)

/-- Settles O42: command by command. -/
theorem otherCommandsIgnoreArg : Obligations.OtherCommandsIgnoreArg :=
  fun _ s x hi => exec_withArg hi x s

/-- Settles O54: no host statement but the reset event changes the engine's view. -/
theorem hostNeverWritesEngineRegisters : Obligations.HostNeverWritesEngineRegisters := by
  intro st s t hst h
  have hview : engineView t = engineView s := by
    obtain ⟨a, n, v, u, -, hw, rfl⟩ | ⟨hreset, -⟩ | ⟨reads, last, draws, pc, rfl⟩ :=
      hostStep_next_cases h
    · have hu : engineView u = engineView s := engineView_hostWrite hw
      exact hu
    · exact absurd hreset hst
    · rfl
  simp only [engineView, Prod.mk.injEq, and_assoc] at hview
  obtain ⟨hcap, hview⟩ := hview
  simp only [hview, hcap, and_self]

/-- Settles O1: the engine's move on the decoded word. -/
theorem stepRunsDecodedCommand : Obligations.StepRunsDecodedCommand := by
  refine ⟨fun s w i hdue hd => ⟨wf_of_decode hd, step_of_engineDue hdue hd⟩, fun s w i hd => ?_⟩
  rw [decodeTableWord_toNat] at hd
  have hdue : engineDue (placeCommand w s) w := ⟨rfl, .inr (.inr rfl)⟩
  rw [withFetchWord_toNat]
  exact step_of_engineDue hdue hd

/-- Settles O39: bit by bit. -/
theorem statusWordLayout : Obligations.StatusWordLayout := by
  intro s
  have hread : hostRead (csrAddr .status) .four s = .ok (statusWord s) := hostRead_csr (.inr rfl)
  refine ⟨hread, ?_, ?_, ?_, ?_, ?_, ?_⟩
  · exact getLsbD_statusWord_busy s
  · rw [getLsbD_statusWord s (by decide)]
    simp
  · rw [getLsbD_statusWord s (by decide)]
    simp
  · rw [getLsbD_statusWord s (by decide)]
    simp
  · apply BitVec.eq_of_getLsbD_eq
    intro k hk
    rw [BitVec.getLsbD_extractLsb', getLsbD_statusWord_reserved s (by omega)]
    simp
  · apply BitVec.eq_of_getLsbD_eq
    intro k hk
    rw [BitVec.getLsbD_extractLsb', getLsbD_statusWord_reserved s (by omega)]
    simp

/-- Settles O44: the table lists every register at its address with what it reads as. -/
theorem csrMapReads : Obligations.CsrMapReads := by
  intro s hp p hmem
  have htable : csrTable s = csrMap.map fun r => (csrAddr r, csrRead r s) := by
    rw [csrTable, ← zext16_ofNat]
    rfl
  rw [htable, List.mem_map] at hmem
  obtain ⟨r, -, rfl⟩ := hmem
  exact hostRead_csr (.inl hp)

/-- Settles O45: register by register. -/
theorem csrMapWrites : Obligations.CsrMapWrites := by
  intro s v hp
  have hwrite (r : CsrName) : hostWrite (csrAddr r) .four v s = .ok (csrWrite r v s) :=
    hostWrite_csr (.inl hp)
  refine ⟨fun a ha => ?_, hwrite .ctrl, hwrite .arg, hwrite .devid, ?_, hwrite .recW,
    hwrite .recFirst, hwrite .recHdr⟩
  · have haddrs : readOnlyAddrs = readOnlyCsrs.map csrAddr := by decide
    rw [haddrs, List.mem_map] at ha
    obtain ⟨r, hr, rfl⟩ := ha
    rw [hwrite, csrWrite_readOnly hr]
  · have hlow : (lowHalf v).toNat = v.toNat % 65536 := by simp [lowHalf]
    rw [← hlow]
    exact hwrite .rxlen

/-- Settles O46: the two cases of a CMD write. -/
theorem cmdWriteAcceptedOrDropped : Obligations.CmdWriteAcceptedOrDropped := by
  refine ⟨fun s hp => hostRead_csr (r := .cmd) (.inl hp), fun s w hp => ?_, fun s w v hp => ?_⟩
  · have hwrite : hostWrite (csrAddr .cmd) .four w s = .ok (writeCmd w s) :=
      hostWrite_csr (.inr rfl)
    refine ⟨_, hwrite, ?_⟩
    rw [writeCmd_of_idle hp]
    exact ⟨rfl, getLsbD_statusWord_busy _, rfl⟩
  · have hwrite : hostWrite (csrAddr .cmd) .four w s = .ok (writeCmd w s) :=
      hostWrite_csr (.inr rfl)
    rwa [writeCmd_of_pending hp] at hwrite

/-- Settles O55: register by register, from the values of the reset state. -/
theorem resetStateReads : Obligations.ResetStateReads := by
  have hread (r : CsrName) :
      hostRead (csrAddr r) .four State.reset = .ok (csrRead r State.reset) :=
    hostRead_csr (.inl rfl)
  refine ⟨fun p hp => ?_, ⟨Config.bufBytes, ?_, ?_, rfl, ?_⟩, rfl,
    fun c k hc hk => hostRead_catWordAddr_reset hc hk, fun b i => by cases b <;> rfl⟩
  · have hmem : p ∈ (csrMap.filter (· ≠ .param)).map
        fun r => (csrAddr r, csrRead r State.reset) := hp
    obtain ⟨r, -, rfl⟩ := List.mem_map.mp hmem
    exact hread r
  · exact Safety.paramLegal_reset.1
  · exact Safety.paramLegal_reset.2
  · have hcap : Config.bufBytes % 65536 = Config.bufBytes :=
      Nat.mod_eq_of_lt (Nat.lt_succ_of_le Safety.paramLegal_reset.2)
    have hparam := hread .param
    rw [csrRead, zext16_ofNat] at hparam
    rwa [← hcap]

/-- Settles O56: no entry is listed after reset, and an unlisted entry is invalid. -/
theorem resetCatalogIsInvalid : Obligations.ResetCatalogIsInvalid :=
  ⟨fun _ _ hc hk => hostRead_catWordAddr_reset hc hk, fun _ => rfl⟩

end Sys2Proof.Proofs
end

section
/-! SUPPORT. A host access by what it is (R60-R69): whether it is allowed, the region it falls in, and what the port does there; the bytes of a buffer window and the words of the catalog. -/

namespace Sys2Proof.Machine

open Sys2Proof.Claims

/-! Allowed accesses. -/

/-- The regions that take 4-byte accesses only are the CSR and the catalog region (R67). -/
theorem widthAllowed_regionOf_iff {a : Nat} {n : PortWidth} :
    widthAllowed (regionOf a) n = true ↔
      ((a < 0x100 ∨ 0x1000 ≤ a ∧ a < 0x2000) → n = .four) := by
  unfold regionOf
  split
  next hcsr => simp [widthAllowed, hcsr]
  next hcsr =>
    split
    next hgap =>
      have hany : ¬(a < 0x100 ∨ 0x1000 ≤ a ∧ a < 0x2000) := by omega
      simp [widthAllowed, hany]
    next hgap =>
      split
      next hcat => simp [widthAllowed, hcat, Nat.not_lt.mp hgap]
      next hcat =>
        have hany : ¬(a < 0x100 ∨ 0x1000 ≤ a ∧ a < 0x2000) := by omega
        simp only [hany, false_implies, iff_true]
        repeat' split
        all_goals rfl

theorem accessOk_iff {a : HostAddr} {n : PortWidth} :
    accessOk a n = true ↔ a.toNat % widthBytes n = 0 ∧
      ((a.toNat < 0x100 ∨ 0x1000 ≤ a.toNat ∧ a.toNat < 0x2000) → n = .four) := by
  rw [accessOk, Bool.and_eq_true, decide_eq_true_iff, widthAllowed_regionOf_iff]

theorem hostRead_of_not_accessOk {a : HostAddr} {n : PortWidth} {s : State}
    (h : ¬accessOk a n = true) : hostRead a n s = .error (.hostBusError a (widthBytes n)) := by
  simp [hostRead, h]

theorem hostWrite_of_not_accessOk {a : HostAddr} {n : PortWidth} {v : Word} {s : State}
    (h : ¬accessOk a n = true) : hostWrite a n v s = .error (.hostBusError a (widthBytes n)) := by
  simp [hostWrite, h]

/-- An allowed read gives a datum, or with nothing pending it stops on an unwritten buffer byte
(R53, R73). -/
theorem hostRead_cases {a : HostAddr} {n : PortWidth} (s : State) (hok : accessOk a n = true) :
    (∃ x, hostRead a n s = .ok x) ∨
      (busy s = false ∧ ∃ b i, hostRead a n s = .error (.unwrittenRead b i)) := by
  simp only [hostRead, hok, Bool.not_true, Bool.false_eq_true, if_false]
  split
  next => exact .inl ⟨_, rfl⟩
  next hfree =>
    cases hreg : regionOf a.toNat with
    | csr r => cases r <;> exact .inl ⟨_, rfl⟩
    | cat c k => exact .inl ⟨_, rfl⟩
    | reserved => exact .inl ⟨_, rfl⟩
    | buf b i =>
      have hidle : busy s = false := by
        rw [hreg] at hfree
        simpa [readableWhileBusy] using hfree
      obtain ⟨hdatum, -⟩ | ⟨k, -, -, -, -, hfault⟩ := hostBytes_cases b i (widthBytes n) s
      · exact .inl hdatum
      · exact .inr ⟨hidle, b, i + k, hfault⟩

theorem hostWrite_of_busy {a : HostAddr} {n : PortWidth} {v : Word} {s : State}
    (hok : accessOk a n = true) (hb : busy s = true)
    (hw : writableWhileBusy (regionOf a.toNat) = false) :
    hostWrite a n v s = .error (.hostWriteWhileBusy a) := by
  simp [hostWrite, hok, hb, hw]

/-- An allowed write gives a state, or it is HostWriteWhileBusy (R73). -/
theorem hostWrite_cases {a : HostAddr} {n : PortWidth} (v : Word) (s : State)
    (hok : accessOk a n = true) :
    (∃ t, hostWrite a n v s = .ok t) ∨ hostWrite a n v s = .error (.hostWriteWhileBusy a) := by
  unfold hostWrite
  rw [hok, Bool.not_true, if_neg Bool.false_ne_true]
  split
  next => exact .inr rfl
  next =>
    split
    all_goals exact .inl ⟨_, rfl⟩

/-- Only STATUS and CMD can be written while a command is pending (R73). -/
theorem writableWhileBusy_regionOf {a : HostAddr} (hs : a ≠ csrAddr .status)
    (hc : a ≠ csrAddr .cmd) : writableWhileBusy (regionOf a.toNat) = false := by
  unfold writableWhileBusy
  split
  next hreg => exact absurd (eq_csrAddr_of_regionOf hreg) hs
  next hreg => exact absurd (eq_csrAddr_of_regionOf hreg) hc
  next => rfl

/-! Accesses with nothing pending, region by region. -/

/-- Nothing is stored at a reserved address or a reserved CSR offset (R21, R61). -/
theorem hostAccess_reserved {a : HostAddr} {n : PortWidth} {s : State} (v : Word)
    (hok : accessOk a n = true) (hp : s.pending = none)
    (hreg : regionOf a.toNat = .csr none ∨ regionOf a.toNat = .reserved) :
    hostRead a n s = .ok 0 ∧ hostWrite a n v s = .ok s := by
  obtain hreg | hreg := hreg <;> simp [hostRead, hostWrite, hok, hreg, busy, hp]

theorem hostRead_window {a : HostAddr} {n : PortWidth} {s : State} {b : BufferId} {i : Nat}
    (hok : accessOk a n = true) (hp : s.pending = none) (hreg : regionOf a.toNat = .buf b i) :
    hostRead a n s = hostBytes b i (widthBytes n) s := by
  simp [hostRead, hok, hreg, busy, hp]

theorem hostWrite_window {a : HostAddr} {n : PortWidth} {v : Word} {s : State} {b : BufferId}
    {i : Nat} (hok : accessOk a n = true) (hp : s.pending = none)
    (hreg : regionOf a.toNat = .buf b i) :
    hostWrite a n v s = .ok (hostPutBytes b v i 0 (widthBytes n) s) := by
  simp [hostWrite, hok, hreg, busy, hp]

theorem hostWrite_catWordAddr {c k : Nat} {v : Word} {s : State} (hc : c < 256) (hk : k < 4)
    (hp : s.pending = none) :
    hostWrite (catWordAddr c k) .four v s =
      .ok { s with cat := catPut s.cat c (catSetWord (catGet s.cat c) k v) } := by
  simp [hostWrite, accessOk_catWordAddr hc hk, regionOf_catWordAddr hc hk, busy, hp]

/-- What a catalog word reads as once the catalog is replaced. -/
theorem hostRead_catWordAddr_withCat {c k : Nat} {s : State} (m : Catalog) (hc : c < 256)
    (hk : k < 4) (hp : s.pending = none) :
    hostRead (catWordAddr c k) .four { s with cat := m } = .ok (catWord (catGet m c) k) :=
  hostRead_catWordAddr (s := { s with cat := m }) hc hk hp

/-! Buffer windows. -/

theorem regionOf_windowBase (b : BufferId) {i : Nat} (hi : i < 65536) :
    regionOf (windowBase b + i) = .buf b i := by
  have hoff (c : Nat) : c + i - c = i := Nat.add_sub_cancel_left c i
  cases b with
  | tx =>
    change regionOf (0x10000 + i) = _
    simp (disch := omega) only [regionOf, if_pos, if_neg, hoff]
  | rx =>
    change regionOf (0x20000 + i) = _
    simp (disch := omega) only [regionOf, if_pos, if_neg, hoff]
  | str =>
    change regionOf (0x30000 + i) = _
    simp (disch := omega) only [regionOf, if_pos, if_neg, hoff]

/-- The three windows are the addresses 0x10000 .. 0x3FFFF (R60). -/
theorem exists_windowBase {a : Nat} (hlo : 0x10000 ≤ a) (hhi : a < 0x40000) :
    ∃ b, a = windowBase b + a % 0x10000 := by
  by_cases htx : a < 0x20000
  · exact ⟨.tx, by simp only [windowBase]; omega⟩
  · by_cases hrx : a < 0x30000
    · exact ⟨.rx, by simp only [windowBase]; omega⟩
    · exact ⟨.str, by simp only [windowBase]; omega⟩

/-- A reserved address is a reserved offset or range, or an offset its buffer does not have
(R60-R62). -/
theorem regionOf_of_reservedAddr {s : State} {a : Nat} (h : reservedAddr s a) :
    regionOf a = .csr none ∨ regionOf a = .reserved ∨
      ∃ b i, s.bufBytes ≤ i ∧ regionOf a = .buf b i := by
  obtain ⟨hlo, hhi⟩ | ⟨hlo, hhi⟩ | hlo | ⟨hlo, hhi, hcap⟩ := h
  · by_cases hcsr : a < 0x100
    · have hlen : csrMap.length ≤ a / 4 := by
        have h26 : csrMap.length = 26 := rfl
        omega
      exact .inl (by simp [regionOf, csrAt, hcsr, hlen])
    · exact .inr (.inl (by simp only [regionOf, if_neg hcsr, if_pos hhi]))
  · exact .inr (.inl (by simp (disch := omega) only [regionOf, if_pos, if_neg]))
  · exact .inr (.inl (by simp (disch := omega) only [regionOf, if_neg]))
  · obtain ⟨b, hb⟩ := exists_windowBase hlo hhi
    refine .inr (.inr ⟨b, a % 0x10000, hcap, ?_⟩)
    rw [hb, regionOf_windowBase b (by omega), ← hb]

theorem bufAddr_toNat (b : BufferId) {i : Nat} (hi : i < 65536) :
    (bufAddr b i).toNat = windowBase b + i := by
  have hbase : windowBase b ≤ 0x30000 := by cases b <;> decide
  rw [bufAddr, BitVec.toNat_ofNat]
  omega

theorem regionOf_bufAddr (b : BufferId) {i : Nat} (hi : i < 65536) :
    regionOf (bufAddr b i).toNat = .buf b i := by
  rw [bufAddr_toNat b hi, regionOf_windowBase b hi]

theorem accessOk_bufAddr (b : BufferId) {i : Nat} {n : PortWidth} (hi : i < 65536)
    (hal : i % widthBytes n = 0) : accessOk (bufAddr b i) n = true := by
  have hbase : windowBase b % widthBytes n = 0 := by cases b <;> cases n <;> decide
  have hsum : (windowBase b + i) % widthBytes n = 0 := by rw [Nat.add_mod, hbase, hal]; simp
  rw [accessOk, regionOf_bufAddr b hi, bufAddr_toNat b hi, hsum]
  rfl

theorem hostRead_bufAddr {b : BufferId} {i : Nat} {n : PortWidth} {s : State}
    (hp : s.pending = none) (hi : i < 65536) (hal : i % widthBytes n = 0) :
    hostRead (bufAddr b i) n s = hostBytes b i (widthBytes n) s :=
  hostRead_window (accessOk_bufAddr b hi hal) hp (regionOf_bufAddr b hi)

theorem hostWrite_bufAddr {b : BufferId} {i : Nat} {n : PortWidth} {v : Word} {s : State}
    (hp : s.pending = none) (hi : i < 65536) (hal : i % widthBytes n = 0) :
    hostWrite (bufAddr b i) n v s = .ok (hostPutBytes b v i 0 (widthBytes n) s) :=
  hostWrite_window (accessOk_bufAddr b hi hal) hp (regionOf_bufAddr b hi)

/-- The bytes of an aligned access stay inside the window. -/
theorem add_lt_window {i k : Nat} {n : PortWidth} (hi : i < 65536) (hal : i % widthBytes n = 0)
    (hk : k < widthBytes n) : i + k < 65536 := by
  cases n <;> simp only [widthBytes] at hal hk <;> omega

theorem hostByte_ok_iff {b : BufferId} {i : Nat} {s : State} {v : Byte} :
    hostByte b i s = .ok v ↔ WindowByte s b i v := by
  unfold hostByte WindowByte
  split
  next hin => simp [readByte_ok_iff, hin, Nat.not_le.mpr hin]
  next hout =>
    simp only [Except.ok.injEq, hout, Nat.not_lt.mp hout, false_and, true_and, false_or]
    exact eq_comm

/-- One more byte in front of a window read, as its low-order byte (R65). -/
theorem hostBytes_succ {b : BufferId} {i m n : Nat} {s : State} {v : Byte} {x : BitVec m}
    (hv : WindowByte s b i v) (hx : hostBytes b (i + 1) n s = .ok (x.setWidth 32)) :
    hostBytes b i (n + 1) s = .ok ((x ++ v).setWidth 32) := by
  have hjoin : (x.setWidth 32 <<< 8) ||| zext8 v = (x ++ v).setWidth 32 := by
    apply BitVec.eq_of_getLsbD_eq
    intro k hk
    by_cases h8 : k < 8
    · simp [zext8, BitVec.getLsbD_append, hk, h8]
    · simp [zext8, BitVec.getLsbD_append, hk, h8, BitVec.getLsbD_of_ge v k (by omega)]
  rw [hostBytes, hostByte_ok_iff.mpr hv, hx]
  simp only [except_ok_bind, except_pure, hjoin]

theorem hostBytes_one {b : BufferId} {i : Nat} {s : State} {b0 : Byte}
    (h0 : WindowByte s b i b0) : hostBytes b i 1 s = .ok (b0.setWidth 32) := by
  rw [hostBytes, hostByte_ok_iff.mpr h0]
  simp [hostBytes, zext8]

/-- A window read with a byte below BUF_BYTES never written stops on such a byte (R53, R66). -/
theorem hostRead_bufAddr_unwritten {b : BufferId} {i k : Nat} {n : PortWidth} {s : State}
    (hp : s.pending = none) (hi : i < 65536) (hal : i % widthBytes n = 0) (hk : k < widthBytes n)
    (hcap : i + k < s.bufBytes) (hnone : memGet (bufferOf b s) (i + k) = none) :
    ∃ j, j < widthBytes n ∧ i + j < s.bufBytes ∧ memGet (bufferOf b s) (i + j) = none ∧
      hostRead (bufAddr b i) n s = .error (.unwrittenRead b (i + j)) := by
  rw [hostRead_bufAddr hp hi hal]
  obtain ⟨-, hall⟩ | ⟨j, hj, -, hjcap, hjnone, hread⟩ := hostBytes_cases b i (widthBytes n) s
  · obtain ⟨v, hv⟩ := hall k hk
    obtain ⟨-, hsome⟩ | ⟨hout, -⟩ := hostByte_ok_iff.mp hv
    · rw [hnone] at hsome
      cases hsome
    · omega
  · exact ⟨j, hj, hjcap, hjnone, hread⟩

/-- A window read from an offset at or above BUF_BYTES is 0 (R62). -/
theorem hostBytes_past {b : BufferId} {i : Nat} (n : Nat) {s : State} (h : s.bufBytes ≤ i) :
    hostBytes b i n s = .ok 0 := by
  induction n generalizing i with
  | zero => rfl
  | succ n ih => exact hostBytes_succ (x := 0#32) (.inr ⟨h, rfl⟩) (ih (by omega))

/-- A window write from an offset at or above BUF_BYTES is ignored (R62). -/
theorem hostPutBytes_past {b : BufferId} {v : Word} {i k : Nat} (n : Nat) {s : State}
    (h : s.bufBytes ≤ i) : hostPutBytes b v i k n s = s := by
  induction n generalizing i k with
  | zero => rfl
  | succ n ih =>
    have hput : hostPutByte b i (wordByte v k) s = s := by
      simp [hostPutByte, Nat.not_lt.mpr h]
    rw [hostPutBytes, hput, ih (by omega)]

/-- A window write leaves the other buffers alone (R66). -/
theorem bufferOf_hostPutBytes_other {b b' : BufferId} (v : Word) (i k n : Nat) (s : State)
    (h : b' ≠ b) : bufferOf b' (hostPutBytes b v i k n s) = bufferOf b' s := by
  induction n generalizing i k s with
  | zero => rfl
  | succ n ih =>
    rw [hostPutBytes, ih, hostPutByte_eq]
    cases b' <;> simp [bufferOf, h.symm]

/-- The host cannot write STRBUF (R66). -/
theorem hostPutBytes_str (v : Word) (i k n : Nat) (s : State) :
    hostPutBytes .str v i k n s = s := by
  induction n generalizing i k with
  | zero => rfl
  | succ n ih =>
    have hput : hostPutByte .str i (wordByte v k) s = s := by simp [hostPutByte]
    rw [hostPutBytes, hput, ih]

theorem setWidth_wordByte (v : Word) (k : Nat) :
    (wordByte v k).setWidth 32 = (v >>> (8 * k)) &&& 0xFF := by
  apply BitVec.eq_of_toNat_eq
  have hmod : (v.toNat >>> (8 * k)) &&& 255 = (v.toNat >>> (8 * k)) % 256 :=
    Nat.and_two_pow_sub_one_eq_mod _ 8
  rw [BitVec.toNat_and, BitVec.toNat_ushiftRight, BitVec.toNat_setWidth, wordByte,
    BitVec.extractLsb'_toNat]
  change _ = (v.toNat >>> (8 * k)) &&& 255
  omega

/-! Catalog words. -/

theorem catEntryAfter_eq (e : CatEntry) (k : Nat) (v : Word) :
    catEntryAfter e k v = catSetWord e k v := by
  match k with
  | 0 | 1 | 2 | _ + 3 => rfl

/-- A written catalog word keeps the bits that are not reserved (R49). -/
theorem catWord_catSetWord_same (e : CatEntry) (k : Nat) (v : Word) :
    catWord (catSetWord e k v) k = v &&& catMask k := by
  apply BitVec.eq_of_getLsbD_eq
  intro j hj
  match k with
  | 0 =>
    have hmask : (0xFFFF0003 : Word).getLsbD j = (decide (j < 2) || decide (16 ≤ j)) := by
      revert j; decide
    simp only [catWord, catSetWord, catMask, highHalf, BitVec.getLsbD_and, hmask,
      BitVec.getLsbD_append, BitVec.getLsbD_ofBool, BitVec.getLsbD_extractLsb']
    obtain rfl | rfl | ⟨hlo, hhi⟩ | hhi : j = 0 ∨ j = 1 ∨ (2 ≤ j ∧ j < 16) ∨ 16 ≤ j := by omega
    · simp
    · simp
    · simp (disch := omega) [if_pos, if_neg, Nat.not_lt.mpr hlo, Nat.not_le.mpr hhi]
    · obtain ⟨d, rfl⟩ := Nat.exists_eq_add_of_le hhi
      simp [show d < 16 by omega]
  | 1 =>
    have hmask : (0xFFFFFFFF : Word).getLsbD j = true := by revert j; decide
    simp only [catWord, catSetWord, catMask, highHalf, lowHalf, BitVec.getLsbD_and, hmask,
      BitVec.getLsbD_append, BitVec.getLsbD_extractLsb']
    split
    next h16 => simp [h16]
    next h16 =>
      simp [Nat.add_sub_cancel' (Nat.not_lt.mp h16), show j - 16 < 16 by omega]
  | 2 =>
    have hmask : (0x0000FFFF : Word).getLsbD j = decide (j < 16) := by revert j; decide
    simp only [catWord, catSetWord, catMask, lowHalf, zext16, BitVec.getLsbD_and, hmask,
      BitVec.getLsbD_setWidth, BitVec.getLsbD_extractLsb', Nat.zero_add]
    by_cases h16 : j < 16
    · simp [hj, h16]
    · simp [h16]
  | _ + 3 => simp [catWord, catMask]

/-- The other words of the entry stay (R49). -/
theorem catWord_catSetWord_other (e : CatEntry) {k k' : Nat} (v : Word) (h : k' ≠ k) :
    catWord (catSetWord e k v) k' = catWord e k' := by
  match k, k' with
  | 0, 0 | 1, 1 | 2, 2 => exact absurd rfl h
  | 0, 1 | 0, 2 | 0, _ + 3 | 1, 0 | 1, 2 | 1, _ + 3 | 2, 0 | 2, 1 | 2, _ + 3 | _ + 3, _ => rfl

end Sys2Proof.Machine
end

section
/-! The statements about the host port and its memory map (R53, R60-R73). -/

namespace Sys2Proof.Proofs

open Sys2Proof.Machine Sys2Proof.Claims

/-- Settles O47: an allowed access is never a bus error, any other access always. -/
theorem busErrorExactly : Obligations.BusErrorExactly := by
  intro s a n v
  refine ⟨fun hbad => ?_, fun hgood m => ?_⟩
  · have hno : ¬accessOk a n = true := by
      rw [accessOk_iff]
      rintro ⟨hal, hwidth⟩
      obtain hmis | ⟨hreg, hn⟩ := hbad
      · exact hmis hal
      · exact hn (hwidth hreg)
    exact ⟨hostRead_of_not_accessOk hno, hostWrite_of_not_accessOk hno⟩
  · have hok := accessOk_iff.mpr hgood
    constructor
    · obtain ⟨x, hx⟩ | ⟨-, b, i, hx⟩ := hostRead_cases s hok <;> simp [hx]
    · obtain ⟨t, ht⟩ | ht := hostWrite_cases v s hok <;> simp [ht]

/-- Settles O48: by the region of the address. -/
theorem reservedAddressesReadZero : Obligations.ReservedAddressesReadZero := by
  intro s a n v hp hres
  refine ⟨fun hal hwidth => ?_, fun hmis => ?_⟩
  · have hok : accessOk a n = true := by
      refine accessOk_iff.mpr ⟨hal, fun hreg => hwidth ?_⟩
      unfold reservedAddr at hres
      omega
    obtain hreg | hreg | ⟨b, i, hcap, hreg⟩ := regionOf_of_reservedAddr hres
    · exact hostAccess_reserved v hok hp (.inl hreg)
    · exact hostAccess_reserved v hok hp (.inr hreg)
    · rw [hostRead_window hok hp hreg, hostWrite_window hok hp hreg, hostBytes_past _ hcap,
        hostPutBytes_past _ hcap]
      exact ⟨rfl, rfl⟩
  · have hno : ¬accessOk a n = true := fun hok => hmis (accessOk_iff.mp hok).1
    exact ⟨hostRead_of_not_accessOk hno, hostWrite_of_not_accessOk hno⟩

/-- Settles O49: what each byte reads after the write's bytes. -/
theorem windowWriteStoresLittleEndian : Obligations.WindowWriteStoresLittleEndian := by
  intro s b i n v hp hb hi hal
  have hframe := hostPutBytes_eq b v i 0 (widthBytes n) s
  have hget := fun j => memGet_hostPutBytes b v i 0 (widthBytes n) j s hb
  refine ⟨_, hostWrite_bufAddr hp hi hal, fun k hk hcap => ?_, fun j hj => ?_,
    fun b' hb' => bufferOf_hostPutBytes_other v i 0 _ s hb', hframe⟩
  · have hbyte : WindowByte (hostPutBytes b v i 0 (widthBytes n) s) b (i + k) (wordByte v k) := by
      refine .inl ⟨by rw [hframe]; exact hcap, ?_⟩
      rw [hget, if_pos (by omega), Nat.add_sub_cancel_left, Nat.zero_add]
    rw [hostRead_bufAddr (by rw [hframe]; exact hp) (add_lt_window hi hal hk) (Nat.mod_one _),
      ← setWidth_wordByte]
    exact hostBytes_one hbyte
  · rw [hget, if_neg (by omega)]

/-- Settles O50: byte by byte from the lowest offset. -/
theorem windowReadsLittleEndian : Obligations.WindowReadsLittleEndian := by
  refine ⟨fun s b i b0 hp hi h0 => ?_, fun s b i b0 b1 hp hi hal h0 h1 => ?_,
    fun s b i b0 b1 b2 b3 hp hi hal h0 h1 h2 h3 => ?_, fun s b i hp hi hcap hnone => ?_,
    fun s b i k n hp hi hal hk hcap hnone => ?_, fun s i n v hp hi hal => ?_⟩
  · rw [hostRead_bufAddr (n := .one) hp hi (Nat.mod_one i)]
    exact hostBytes_one h0
  · rw [hostRead_bufAddr (n := .two) hp hi hal, ← le16_toNat, BitVec.ofNat_toNat]
    exact hostBytes_succ h0 (hostBytes_one h1)
  · rw [hostRead_bufAddr (n := .four) hp hi hal, ← BitVec.setWidth_eq (b3 ++ b2 ++ b1 ++ b0)]
    exact hostBytes_succ h0 (hostBytes_succ h1 (hostBytes_succ h2 (hostBytes_one h3)))
  · obtain ⟨j, hj, -, -, hread⟩ :=
      hostRead_bufAddr_unwritten (n := .one) (k := 0) hp hi (Nat.mod_one i) Nat.one_pos hcap hnone
    obtain rfl := Nat.lt_one_iff.mp hj
    exact hread
  · exact hostRead_bufAddr_unwritten hp hi hal hk hcap hnone
  · rw [hostWrite_bufAddr hp hi hal, hostPutBytes_str]

/-- Settles O51: word by word, through the entry. -/
theorem catalogWordReadsBack : Obligations.CatalogWordReadsBack := by
  intro s c k v hp hwf hc hk
  have hsame := catGet_catPut_same c (catSetWord (catGet s.cat c) k v) hwf
  refine ⟨_, hostWrite_catWordAddr hc hk hp, ?_, ?_,
    fun c' hne => catGet_catPut_other s.cat _ hne, fun c' k' hc' hk' hne => ?_, rfl⟩
  · rw [hostRead_catWordAddr_withCat _ hc hk hp, hsame, catWord_catSetWord_same]
  · rw [hsame, catEntryAfter_eq]
  · rw [hostRead_catWordAddr_withCat _ hc' hk' hp, hostRead_catWordAddr hc' hk' hp]
    by_cases hcc : c' = c
    · subst hcc
      rw [hsame, catWord_catSetWord_other _ _ fun hkk => hne (by rw [hkk])]
    · rw [catGet_catPut_other s.cat _ hcc]

/-- Settles O52: an access to STATUS, ID, PARAM or CMD reaches its register, and any other access is
drawn or refused. -/
theorem busyPortRules : Obligations.BusyPortRules := by
  intro s w v a n hp hok
  have hbusy : busy s = true := (busy_eq_true_iff s).mpr ⟨w, hp⟩
  refine ⟨⟨hostRead_csr (r := .status) (.inr rfl), hostRead_csr (r := .id) (.inr rfl), ?_⟩, ?_,
    fun hs hc => hostWrite_of_busy hok hbusy (writableWhileBusy_regionOf hs hc),
    ⟨_, hostWrite_csr (r := .status) (.inr rfl)⟩, ⟨_, hostWrite_csr (r := .cmd) (.inr rfl)⟩⟩
  · rw [← zext16_ofNat]
    exact hostRead_csr (r := .param) (.inr rfl)
  · obtain hx | ⟨hidle, -⟩ := hostRead_cases s hok
    · exact hx
    · exact absurd hbusy (by simp [hidle])

/-- Settles O53: a read statement notes the datum and goes on. -/
theorem hostReadsHaveNoSideEffect : Obligations.HostReadsHaveNoSideEffect := by
  intro s t a n h
  simp only [hostStep] at h
  split at h
  next v hv =>
    cases h
    exact ⟨v, hv, rfl⟩
  next => cases h

end Sys2Proof.Proofs
end

section
/-! SUPPORT. The rows of the opcode table as the opcodes' rows (R92), and the encoder and the decoder as inverses on them (R90, R93, R95). -/

namespace Sys2Proof

/-! One row for each opcode. -/

/-- The bits of IMM8 that R92 marks 0 for the opcode. -/
def immReserved : OpName → Byte
  | .crcInit | .crcRx | .frmDec | .recStart => 0xFF#8
  | .crcByte | .frmEnc | .rspCheck => 0#8
  | _ => 0xFE#8

/-- The bits of OFF16 that R92 marks 0 for the opcode. -/
def offReserved : OpName → Half
  | .crcInit | .crcByte | .frmDec | .rspCheck | .recStart | .recNext => 0xFFFF#16
  | _ => 0#16

/-- The opcode's row: OP is fixed, and the reserved bits are fixed to 0. -/
def opRow (o : OpName) : Word × Word :=
  (packWord 0xFF#8 (immReserved o) (offReserved o).toNat, packWord (opByte o) 0#8 0)

theorem mem_opcodeRows_iff {row : Word × Word} : row ∈ opcodeRows ↔ ∃ o, opRow o = row := by
  have hrows : opcodeRows = allOps.map opRow := by decide
  have hall : ∀ o, o ∈ allOps := fun o => by cases o <;> decide
  simp [hrows, hall]

theorem opRow_mem (o : OpName) : opRow o ∈ opcodeRows := mem_opcodeRows_iff.mpr ⟨o, rfl⟩

/-- The match word of a row holds the opcode's OP byte. -/
theorem opRow_op (o : OpName) : (opRow o).2.extractLsb' 0 8 = opByte o :=
  wordOp_packWord _ _ _

/-- Some row has the OP exactly when it is an opcode's byte (R97). -/
theorem exists_row_op_iff (op : Byte) :
    (∃ row ∈ opcodeRows, row.2.extractLsb' 0 8 = op) ↔ ∃ o, op = opByte o := by
  constructor
  · rintro ⟨row, hrow, rfl⟩
    obtain ⟨o, rfl⟩ := mem_opcodeRows_iff.mp hrow
    exact ⟨o, opRow_op o⟩
  · rintro ⟨o, rfl⟩
    exact ⟨opRow o, opRow_mem o, opRow_op o⟩

theorem opByte_inj {o o' : OpName} (h : opByte o = opByte o') : o = o' := by
  have hname := congrArg opName h
  simpa using hname

theorem byte_and_ones (b : Byte) : b &&& 0xFF#8 = b := BitVec.and_allOnes

theorem half_and_ones (h : Half) : h &&& 0xFFFF#16 = h := BitVec.and_allOnes

theorem onlyBit0_iff (imm : Byte) : onlyBit0 imm = true ↔ imm &&& 0xFE#8 = 0#8 := by
  revert imm
  decide

/-- What the decoder asks of the reserved bits is what the row asks (R95). -/
theorem reservedClear_iff (o : OpName) (imm : Byte) (off : Half) :
    reservedClear o imm off = true ↔ imm &&& immReserved o = 0#8 ∧ off &&& offReserved o = 0#16 := by
  cases o <;> simp only [reservedClear, immReserved, offReserved, onlyBit0_iff, byte_and_ones,
    half_and_ones, Bool.and_eq_true, beq_iff_eq, BitVec.and_zero, true_and, and_true]

/-- A word fits an opcode's row exactly when it has its OP and its reserved bits are 0. -/
theorem fits_opRow_iff (w : Word) (o : OpName) :
    w &&& (opRow o).1 = (opRow o).2 ↔
      wordOp w = opByte o ∧ reservedClear o (wordImm w) (wordOff w) = true := by
  rw [fits_iff, opRow, reservedClear_iff]
  simp only [wordOp_packWord, wordImm_packWord, wordOff_packWord, byte_and_ones,
    BitVec.ofNat_toNat, BitVec.setWidth_eq]

/-! The decoder's answers. -/

/-- The three answers of the decoder: an OP no opcode has, a 1 in a reserved bit, or a command. -/
theorem decodeWord_cases (w : Word) :
    ((∀ o, wordOp w ≠ opByte o) ∧ decodeWord w = .error (.unassignedOp (wordOp w))) ∨
    ((∃ o, wordOp w = opByte o) ∧ decodeWord w = .error (.reservedBits (wordOp w))) ∨
    ((∃ o, wordOp w = opByte o) ∧ ∃ i, decodeWord w = .ok i) := by
  unfold decodeWord
  split
  next hn => exact .inl ⟨(opName_eq_none_iff _).mp hn, rfl⟩
  next o hn =>
    have hop := (opName_eq_some_iff _ _).mp hn
    split
    · exact .inr (.inr ⟨⟨o, hop⟩, _, rfl⟩)
    · exact .inr (.inl ⟨⟨o, hop⟩, rfl⟩)

theorem exists_decode_iff (w : Word) :
    (∃ i, decode w = some i) ↔ ∃ row ∈ opcodeRows, w &&& row.1 = row.2 := by
  simp only [decode_eq_some_iff, decodeWord_ok_iff]
  constructor
  · rintro ⟨i, o, hop, hclear, -⟩
    exact ⟨opRow o, opRow_mem o, (fits_opRow_iff w o).mpr ⟨hop, hclear⟩⟩
  · rintro ⟨row, hrow, hfits⟩
    obtain ⟨o, rfl⟩ := mem_opcodeRows_iff.mp hrow
    obtain ⟨hop, hclear⟩ := (fits_opRow_iff w o).mp hfits
    exact ⟨_, o, hop, hclear, rfl⟩

theorem decode_eq_none_iff (w : Word) :
    decode w = none ↔ ∀ row ∈ opcodeRows, w &&& row.1 ≠ row.2 := by
  have hnone : decode w = none ↔ ¬∃ i, decode w = some i := by
    cases decode w <;> simp
  rw [hnone, exists_decode_iff]
  simp only [not_exists, not_and, ne_eq]

/-! Encoding what was decoded, and decoding what was encoded. -/

/-- The encoder puts the fields of a command back where its opcode's row has them. -/
theorem encode_commandOf {o : OpName} {imm : Byte} {off : Half}
    (h : reservedClear o imm off = true) :
    encode (commandOf o imm off) = packWord (opByte o) imm off.toNat := by
  cases o with
  | crcInit | frmDec | recStart =>
    obtain ⟨rfl, rfl⟩ : imm = 0 ∧ off = 0 := by simpa [reservedClear] using h
    rfl
  | crcByte | rspCheck =>
    obtain rfl : off = 0 := by simpa [reservedClear] using h
    rfl
  | crcRx =>
    obtain rfl : imm = 0 := by simpa [reservedClear] using h
    rfl
  | frmEnc => rfl
  | recNext =>
    obtain ⟨hflag, rfl⟩ : onlyBit0 imm = true ∧ off = 0 := by simpa [reservedClear] using h
    exact congrArg (packWord _ · 0) (flagImm_of_onlyBit0 imm hflag)
  | _ => exact congrArg (packWord _ · off.toNat) (flagImm_of_onlyBit0 imm h)

theorem encode_of_decode {w : Word} {i : Instr} (h : decode w = some i) : encode i = w := by
  rw [decode_eq_some_iff, decodeWord_ok_iff] at h
  obtain ⟨o, hop, hclear, rfl⟩ := h
  rw [encode_commandOf hclear, ← hop, packWord_fields]

theorem toNat_ofNat_of_fitsOff16 {n : Nat} (h : fitsOff16 n = true) :
    (BitVec.ofNat 16 n).toNat = n :=
  Nat.mod_eq_of_lt (of_decide_eq_true h)

theorem decode_encode {i : Instr} (h : i.wf = true) : decode (encode i) = some i := by
  cases i with
  | crcInit | frmDec | recStart => exact decode_packWord _ _ _ rfl
  | crcByte d | rspCheck d => exact decode_packWord _ d 0 rfl
  | crcRx off => rw [encode, decode_packWord _ _ _ rfl, commandOf, toNat_ofNat_of_fitsOff16 h]
  | frmEnc c off => rw [encode, decode_packWord _ _ _ rfl, commandOf, toNat_ofNat_of_fitsOff16 h]
  | recNext att => cases att <;> rfl
  | fldU8 rel off | fldU16 rel off | fldU32 rel off | fldS8 rel off | fldYear rel off
  | fldDate6 rel off | fldIp rel off | fldAscii rel off =>
    rw [encode, decode_packWord _ _ _ (by exact onlyBit0_flagImm rel), commandOf, flagImm_bit0,
      toNat_ofNat_of_fitsOff16 h]

end Sys2Proof
end

section
/-! SUPPORT. The assembler by its mnemonics (R98): each accepts exactly the text of its command, and refuses a number too large for its field. -/

namespace Sys2Proof.Machine

open Sys2Proof.Claims

/-! What each operand form reads is the command's own text. -/

variable {m : List Char} {ops : List AsmOperand} {j : Instr}

/-- `j` is well-formed, and this is how R98 writes it. -/
def WritesAs (j : Instr) (m : List Char) (ops : List AsmOperand) : Prop :=
  j.wf = true ∧ asmText j = (m, ops)

theorem noOperand_writesAs {i : Instr} (hi : WritesAs i m []) (h : noOperand ops i = .ok j) :
    WritesAs j m ops := by
  obtain ⟨rfl, rfl⟩ := noOperand_ok_iff.mp h
  exact hi

theorem byteOperand_writesAs {mk : Byte → Instr} (hmk : ∀ d, WritesAs (mk d) m [.num d.toNat])
    (h : byteOperand ops mk = .ok j) : WritesAs j m ops := by
  obtain ⟨d, rfl, rfl⟩ := byteOperand_ok_iff.mp h
  exact hmk d

theorem fieldOperand_writesAs {mk : Bool → Nat → Instr}
    (hmk : ∀ rel off, asmText (mk rel off) = (m, fieldText rel off))
    (h : fieldOperand ops mk = .ok j) : WritesAs j m ops := by
  obtain ⟨rel, off, rfl, hwf, rfl⟩ := fieldOperand_ok_iff.mp h
  exact ⟨hwf, hmk rel off⟩

theorem crcRxOperand_writesAs (h : crcRxOperand ops = .ok j) :
    WritesAs j "CRC.RX".toList ops := by
  obtain ⟨off, rfl, hwf, rfl⟩ := crcRxOperand_ok_iff.mp h
  exact ⟨hwf, rfl⟩

theorem frmEncOperands_writesAs (h : frmEncOperands ops = .ok j) :
    WritesAs j "FRM.ENC".toList ops := by
  obtain ⟨c, p, rfl, hwf, rfl⟩ := frmEncOperands_ok_iff.mp h
  exact ⟨hwf, rfl⟩

/-- One mnemonic tried: it is this one, or the text is read by the mnemonics after it. -/
theorem ite_writesAs {t : List Char} {x y : Except AsmError Instr}
    (hx : x = .ok j → WritesAs j t ops) (hy : y = .ok j → WritesAs j m ops) :
    (if m = t then x else y) = .ok j → WritesAs j m ops := by
  split
  next hm => exact hm ▸ hx
  next => exact hy

/-- Mnemonic by mnemonic, in the order the assembler tries them. -/
theorem assemble_writesAs : assemble m ops = .ok j → WritesAs j m ops :=
  ite_writesAs (noOperand_writesAs (i := .crcInit) ⟨rfl, rfl⟩) <|
  ite_writesAs (byteOperand_writesAs (mk := .crcByte) fun _ => ⟨rfl, rfl⟩) <|
  ite_writesAs crcRxOperand_writesAs <|
  ite_writesAs frmEncOperands_writesAs <|
  ite_writesAs (noOperand_writesAs (i := .frmDec) ⟨rfl, rfl⟩) <|
  ite_writesAs (fieldOperand_writesAs (mk := .fldU8) fun _ _ => rfl) <|
  ite_writesAs (fieldOperand_writesAs (mk := .fldU16) fun _ _ => rfl) <|
  ite_writesAs (fieldOperand_writesAs (mk := .fldU32) fun _ _ => rfl) <|
  ite_writesAs (fieldOperand_writesAs (mk := .fldS8) fun _ _ => rfl) <|
  ite_writesAs (fieldOperand_writesAs (mk := .fldYear) fun _ _ => rfl) <|
  ite_writesAs (fieldOperand_writesAs (mk := .fldDate6) fun _ _ => rfl) <|
  ite_writesAs (fieldOperand_writesAs (mk := .fldIp) fun _ _ => rfl) <|
  ite_writesAs (fieldOperand_writesAs (mk := .fldAscii) fun _ _ => rfl) <|
  ite_writesAs (byteOperand_writesAs (mk := .rspCheck) fun _ => ⟨rfl, rfl⟩) <|
  ite_writesAs (noOperand_writesAs (i := .recStart) ⟨rfl, rfl⟩) <|
  ite_writesAs (noOperand_writesAs (i := .recNext false) ⟨rfl, rfl⟩) <|
  ite_writesAs (noOperand_writesAs (i := .recNext true) ⟨rfl, rfl⟩) <|
  nofun

theorem assemble_asmText {i : Instr} (hwf : i.wf = true) :
    assemble (asmText i).1 (asmText i).2 = .ok i := by
  cases i with
  | crcInit | frmDec | recStart => rfl
  | crcByte d | rspCheck d => exact byteOperand_ok_iff.mpr ⟨d, rfl, rfl⟩
  | crcRx off => exact crcRxOperand_ok_iff.mpr ⟨off, rfl, hwf, rfl⟩
  | frmEnc c p => exact frmEncOperands_ok_iff.mpr ⟨c, p, rfl, hwf, rfl⟩
  | recNext att => cases att <;> rfl
  | fldU8 rel off | fldU16 rel off | fldU32 rel off | fldS8 rel off | fldYear rel off
  | fldDate6 rel off | fldIp rel off | fldAscii rel off =>
    exact fieldOperand_ok_iff.mpr ⟨rel, off, rfl, hwf, rfl⟩

/-- The assembler accepts exactly the commands as written (R98). -/
theorem assemble_ok_iff : assemble m ops = .ok j ↔ WritesAs j m ops := by
  refine ⟨assemble_writesAs, fun ⟨hwf, htext⟩ => ?_⟩
  have h := assemble_asmText hwf
  rwa [htext] at h

/-! Numbers too large. -/

theorem not_fitsOff16 {n : Nat} (h : 65535 < n) : fitsOff16 n = false :=
  decide_eq_false (by omega)

theorem byteMnemonic_tooLarge {t : String} (ht : t ∈ byteMnemonics) {n : Nat} (hn : 255 < n) :
    assemble t.toList [.num n] = .error .doesNotFit := by
  have hfit (mk : Byte → Instr) : fitByte n mk = .error .doesNotFit := if_neg (by omega)
  simp only [byteMnemonics, List.mem_cons, List.not_mem_nil, or_false] at ht
  obtain rfl | rfl := ht
  · exact hfit .crcByte
  · exact hfit .rspCheck

theorem fieldMnemonic_tooLarge {t : String} (ht : t ∈ fieldMnemonics) (rel : Bool) {n : Nat}
    (hn : 65535 < n) : assemble t.toList (fieldText rel n) = .error .doesNotFit := by
  have hfit (mk : Bool → Nat → Instr) (hmk : (mk rel n).wf = fitsOff16 n) :
      fieldOperand (fieldText rel n) mk = .error .doesNotFit := by
    rw [not_fitsOff16 hn] at hmk
    cases rel <;> exact fitInstr_tooLarge hmk
  simp only [fieldMnemonics, List.mem_cons, List.not_mem_nil, or_false] at ht
  obtain rfl | rfl | rfl | rfl | rfl | rfl | rfl | rfl := ht
  · exact hfit .fldU8 rfl
  · exact hfit .fldU16 rfl
  · exact hfit .fldU32 rfl
  · exact hfit .fldS8 rfl
  · exact hfit .fldYear rfl
  · exact hfit .fldDate6 rfl
  · exact hfit .fldIp rfl
  · exact hfit .fldAscii rfl

theorem crcRx_tooLarge {n : Nat} (hn : 65535 < n) :
    assemble "CRC.RX".toList [.num n] = .error .doesNotFit :=
  fitInstr_tooLarge (i := .crcRx n) (not_fitsOff16 hn)

theorem frmEnc_tooLarge {c p : Nat} (h : 255 < c ∨ 65535 < p) :
    assemble "FRM.ENC".toList [.num c, .num p] = .error .doesNotFit := by
  have hform : assemble "FRM.ENC".toList [.num c, .num p] =
      if c < 256 then fitInstr (.frmEnc (BitVec.ofNat 8 c) p) else .error .doesNotFit := rfl
  rw [hform]
  split
  · exact fitInstr_tooLarge (not_fitsOff16 (h.resolve_left (by omega)))
  · rfl

end Sys2Proof.Machine
end

section
/-! SUPPORT. Host programs statement by statement (R99, R100): on an idle block `WR` is one step and `EXEC` is three, the write to CMD, the command and the POLL that finds BUSY = 0. -/

namespace Sys2Proof.Machine

open Sys2Proof.Claims

/-- The statements the host has still to run. -/
def hostRest (s : State) : List HostStmt := s.hostProg.drop s.hostPc

theorem hostNext_eq_head? (s : State) : hostNext s = (hostRest s).head? :=
  List.head?_drop.symm

theorem hostRest_hostAdvance (s : State) : hostRest (hostAdvance s) = (hostRest s).tail :=
  List.tail_drop.symm

theorem hostRest_of_hostView {s t : State} (h : hostView t = hostView s) :
    hostRest t = hostRest s := by
  simp only [hostView, Prod.mk.injEq] at h
  obtain ⟨-, -, -, hprog, hpc, -⟩ := h
  rw [hostRest, hostRest, hprog, hpc]

theorem runEnded_iff (s : State) :
    Safety.runEnded s = true ↔ hostRest s = [] ∧ s.pending = none := by
  simp [Safety.runEnded, hostNext_eq_head?, busy_eq_false_iff]

theorem hostRest_loadHostProgram (prog : List HostStmt) (s : State) :
    hostRest (loadHostProgram prog s) = prog := rfl

/-! One statement on an idle block. -/

/-- The state after a POLL that finds BUSY = 0 (R99). -/
def polled (s : State) : State := hostAdvance { s with lastStatus := statusWord s }

/-- The state after an accepted write of a word to CMD (R30), the host gone on. -/
def accepted (w : Word) (s : State) : State :=
  { s with
    pending := some w
    delay := Config.latency s.draws
    draws := s.draws + 1
    hostPc := s.hostPc + 1 }

section
variable {s : State} {rest : List HostStmt} (hp : s.pending = none)
include hp

theorem step_of_hostRest {st : HostStmt} (hr : hostRest s = st :: rest) :
    step s = hostStep st s := by
  have hnext : hostNext s = some st := by rw [hostNext_eq_head?, hr]; rfl
  simp only [step, whoMoves_host_iff.mpr ⟨hp, hnext⟩]

/-- `WR name, v` (R99). -/
theorem step_stmtWr {r : CsrName} {v : Word} (hr : hostRest s = stmtWr r v :: rest) :
    step s = .next (hostAdvance (csrWrite r v s)) := by
  rw [step_of_hostRest hp hr]
  simp only [stmtWr, hostStep, hostWrite_csr (.inl hp)]

theorem step_poll (hr : hostRest s = .poll :: rest) : step s = .next (polled s) := by
  rw [step_of_hostRest hp hr, hostStep, if_neg (by simp [busy, hp])]
  rfl

theorem step_stmtWr_cmd {w : Word} (hr : hostRest s = stmtWr .cmd w :: rest) :
    step s = .next (accepted w s) := by
  rw [step_stmtWr hp hr, csrWrite, writeCmd_of_idle hp]
  rfl

/-- `EXEC` of a command that does not fault (R99): three steps to a block idle again. -/
theorem run_stmtsExec {u : State} {i : Instr} (hwf : i.wf = true)
    (hr : hostRest s = stmtsExec i ++ rest) (hx : exec i (accepted (encode i) s) = .next u)
    (k : Nat) :
    Host.Core.run core (k + 3) s = Host.Core.run core k (polled u) ∧
      (polled u).pending = none ∧ hostRest (polled u) = rest := by
  have hrest : hostRest (accepted (encode i) s) = .poll :: rest := by
    have htail := hostRest_hostAdvance s
    rwa [hr] at htail
  have hdue : engineDue (accepted (encode i) s) (encode i) :=
    ⟨rfl, .inr (.inl (by rw [hostNext_eq_head?, hrest]; rfl))⟩
  have hengine := (step_of_engineDue hdue (decode_encode hwf)).trans hx
  obtain ⟨hidle, hview⟩ := exec_next_hostView hx
  have hpoll : hostRest u = .poll :: rest := (hostRest_of_hostView hview).trans hrest
  refine ⟨?_, hidle, ?_⟩
  · rw [run_succ_of_next (step_stmtWr_cmd hp hr), run_succ_of_next hengine,
      run_succ_of_next (step_poll hidle hpoll)]
  · have htail := hostRest_hostAdvance u
    rwa [hpoll] at htail

end

/-- CRC.RX over written bytes of the response (R113). -/
theorem exec_crcRx_of_holdsAt {start : Nat} {s : State} {bs : List Byte}
    (hin : start + s.arg.toNat ≤ s.rxlen.toNat) (hlen : bs.length = s.arg.toNat)
    (hheld : HoldsAt s.rxbuf start bs) :
    exec (.crcRx start) s = .next (complete { s with crc := crcFold s.crc bs }) := by
  rw [exec_crcRx_inside hin, readRange_ok_iff_holdsAt.mpr ⟨hlen, hheld⟩]
  rfl

theorem lowHalf_ofNat_toNat {n : Nat} (hn : n < 65536) :
    (lowHalf (BitVec.ofNat 32 n)).toNat = n := by
  rw [lowHalf, BitVec.extractLsb'_toNat, BitVec.toNat_ofNat, Nat.shiftRight_zero]
  omega

/-- The two commands of CRC.COMPUTE (R100), the count in ARG. -/
theorem run_crcInit_crcRx {s : State} {start : Nat} {bs : List Byte} (hp : s.pending = none)
    (hr : hostRest s = stmtsExec .crcInit ++ stmtsExec (.crcRx start))
    (hwf : (Instr.crcRx start).wf = true) (hin : start + s.arg.toNat ≤ s.rxlen.toNat)
    (hlen : bs.length = s.arg.toNat) (hheld : HoldsAt s.rxbuf start bs) :
    ∃ t : State, Host.Core.run core 6 s = .next t ∧
      t.crc = crcCompute bs ∧ t.err = .ok ∧ Safety.runEnded t = true := by
  obtain ⟨hinit, hp1, hr1⟩ := run_stmtsExec hp rfl hr (exec_crcInit _) 3
  rw [← List.append_nil (stmtsExec _)] at hr1
  obtain ⟨hfold, hp2, hr2⟩ :=
    run_stmtsExec hp1 hwf hr1 (exec_crcRx_of_holdsAt hin hlen hheld) 0
  refine ⟨_, ?_, rfl, rfl, (runEnded_iff _).mpr ⟨hr2, hp2⟩⟩
  rw [hinit, hfold]
  rfl

end Sys2Proof.Machine
end

section
/-! The statements about the encoding of commands, the assembler and host programs (R90-R100). -/

namespace Sys2Proof.Proofs

open Sys2Proof.Machine Sys2Proof.Claims

/-- Settles O9: command by command, from the fields of its word. -/
theorem decodeEncodeRoundTrip : Obligations.DecodeEncodeRoundTrip :=
  fun _ hwf => decode_encode hwf

/-- Settles O10: the decoded command's fields are the word's. -/
theorem decodedWordIsTheEncoding : Obligations.DecodedWordIsTheEncoding :=
  fun _ _ hd => ⟨wf_of_decode hd, encode_of_decode hd⟩

/-- Settles O11: the rows are the opcodes' rows, and a word has one OP. -/
theorem decodeAcceptsExactlyTheTable : Obligations.DecodeAcceptsExactlyTheTable := by
  refine ⟨exists_decode_iff, fun w r q hr hq hwr hwq => ?_⟩
  obtain ⟨o, rfl⟩ := mem_opcodeRows_iff.mp hr
  obtain ⟨o', rfl⟩ := mem_opcodeRows_iff.mp hq
  obtain ⟨hop, -⟩ := (fits_opRow_iff w o).mp hwr
  obtain ⟨hop', -⟩ := (fits_opRow_iff w o').mp hwq
  rw [opByte_inj (hop.symm.trans hop')]

/-- Settles O12: by the decoder's three answers. -/
theorem rejectionNamesItsCause : Obligations.RejectionNamesItsCause := by
  intro w
  have hrow := exists_row_op_iff (wordOp w)
  have hnorow : (∀ row ∈ opcodeRows, row.2.extractLsb' 0 8 ≠ wordOp w) ↔
      ∀ o, wordOp w ≠ opByte o := by
    simpa only [not_exists, not_and] using not_congr hrow
  rw [← decode_eq_none_iff, hrow, hnorow, decode]
  obtain ⟨hno, hd⟩ | ⟨⟨o, hop⟩, hd⟩ | ⟨⟨o, hop⟩, i, hd⟩ := decodeWord_cases w
  · simp [hd, hno]
  · simp [hd, hop, Except.toOption]
  · simp [hd, hop, Except.toOption]

/-- Settles O2: a word that fits no row decodes to nothing, and the engine's move is `raise`. -/
theorem illegalWordOnlyRaisesIllegalOp : Obligations.IllegalWordOnlyRaisesIllegalOp := by
  refine ⟨fun s w hdue hno => ?_, (decode_eq_none_iff 0).mp rfl⟩
  simp only [step, whoMoves_engine_iff.mpr hdue, (decode_eq_none_iff w).mpr hno]
  rfl

/-- Settles O14: what each mnemonic accepts, and what it refuses as too large. -/
theorem assemblerNeverTruncates : Obligations.AssemblerNeverTruncates := by
  refine ⟨fun m ops i => assemble_ok_iff, fun m ops i h => ?_,
    fun n hn => ⟨fun t ht => byteMnemonic_tooLarge ht hn, fun p => frmEnc_tooLarge (.inl hn)⟩,
    fun n hn => ⟨crcRx_tooLarge hn, fun c => frmEnc_tooLarge (.inr hn),
      fun t ht rel => fieldMnemonic_tooLarge ht rel hn⟩⟩
  obtain ⟨hwf, -⟩ := assemble_ok_iff.mp h
  exact decode_encode hwf

/-- Settles O18: ARG is written with the count, and the count fits. -/
theorem crcComputeMacroComputes : Obligations.CrcComputeMacroComputes := by
  intro s st n bs hp hin hlen hheld
  have hrx := s.rxlen.isLt
  have hcount := lowHalf_ofNat_toNat (n := n) (by omega)
  rw [← hcount] at hin hlen
  have hidle : (loadHostProgram (stmtsCrcCompute st n) s).pending = none := hp
  rw [run_succ_of_next (step_stmtWr hidle (hostRest_loadHostProgram _ s))]
  exact run_crcInit_crcRx hp rfl (decide_eq_true (by omega)) hin hlen hheld

/-- Settles O13: each word decoded. -/
theorem specWordsDecode : Obligations.SpecWordsDecode :=
  ⟨rfl, rfl, rfl, rfl, rfl, rfl, rfl, rfl, rfl, rfl⟩

end Sys2Proof.Proofs
end

section
/-! SUPPORT. The checksum as a left fold of iterated shifts (R110), its residue over its own two bytes (R115), CRC.BYTE command by command (R112), and what each command leaves of the results (R114). -/

namespace Sys2Proof.Machine

open Sys2Proof.Claims

/-! The checksum engine. -/

/-- The bit shifted out is the parity of the register. -/
theorem crcShift_eq (r : Half) :
    crcShift r = if r.toNat % 2 = 1 then (r >>> 1) ^^^ 0xA001 else r >>> 1 := by
  simp [crcShift, BitVec.getLsbD, Nat.testBit_zero]

theorem crcShifts_eq_iterate (k : Nat) (r : Half) : crcShifts k r = crcShift^[k] r := by
  induction k generalizing r with
  | zero => rfl
  | succ k ih => exact ih (crcShift r)

theorem crcFold_eq_foldl (r : Half) (bs : List Byte) : crcFold r bs = bs.foldl crcStep r := by
  induction bs generalizing r with
  | nil => rfl
  | cons d ds ih => exact ih (crcStep r d)

theorem crcFold_append (r : Half) (bs ds : List Byte) :
    crcFold r (bs ++ ds) = crcFold (crcFold r bs) ds := by
  simp only [crcFold_eq_foldl, List.foldl_append]

/-- With the low bits all 0, no iteration XORs the polynomial in: the register only shifts. -/
theorem crcShifts_of_low_zero {k : Nat} {r : Half} (h : ∀ j, j < k → r.getLsbD j = false) :
    crcShifts k r = r >>> k := by
  induction k generalizing r with
  | zero => rfl
  | succ k ih =>
    have hshift : crcShift r = r >>> 1 := by
      rw [crcShift, h 0 (Nat.succ_pos k)]
      rfl
    have hlow : ∀ j, j < k → (r >>> 1).getLsbD j = false := fun j hj => by
      rw [BitVec.getLsbD_ushiftRight]
      exact h (1 + j) (by omega)
    rw [crcShifts, hshift, ih hlow, ← BitVec.shiftRight_add, Nat.add_comm 1 k]

/-- A register with its own low byte folded in: the low byte cancels and the high byte shifts
down. -/
theorem crcStep_lowByte (r : Half) : crcStep r (r.extractLsb' 0 8) = r >>> 8 := by
  have hlow : ∀ j, j < 8 → (r ^^^ (r.extractLsb' 0 8).setWidth 16).getLsbD j = false := by
    intro j hj
    simp [hj, Nat.lt_trans hj (by decide : 8 < 16)]
  rw [crcStep, crcShifts_of_low_zero hlow]
  apply BitVec.eq_of_getLsbD_eq
  intro j hj
  simp [BitVec.getLsbD_ushiftRight]

/-- A register that is one byte wide, folded with that byte, is 0. -/
theorem crcStep_self (d : Byte) : crcStep (d.setWidth 16) d = 0 := by
  rw [crcStep, BitVec.xor_self]
  rfl

theorem ushiftRight_eight_eq_highByte (r : Half) : r >>> 8 = (r.extractLsb' 8 8).setWidth 16 := by
  apply BitVec.eq_of_toNat_eq
  rw [BitVec.toNat_ushiftRight, BitVec.toNat_setWidth, BitVec.extractLsb'_toNat,
    Nat.shiftRight_eq_div_pow]
  omega

/-- The fold over a register's own two bytes, low byte first, leaves 0 (R115). -/
theorem crcFold_checksumBytes (r : Half) : crcFold r (checksumBytes r) = 0 := by
  simp only [checksumBytes, crcFold, crcStep_lowByte, ushiftRight_eight_eq_highByte, crcStep_self]

/-- CRC.BYTE commands one after the other fold their bytes in order (R112). -/
theorem runCommands_crcBytes (bs : List Byte) (s : State) :
    runCommands (bs.map .crcByte) (complete s) =
      .next (complete { s with crc := crcFold s.crc bs }) := by
  induction bs generalizing s with
  | nil => rfl
  | cons d ds ih =>
    have hbyte := exec_crcByte d (complete s)
    simp only [List.map_cons, runCommands, hbyte]
    exact ih { s with crc := crcStep s.crc d }

/-! The writers of STRBUF and STRLEN. -/

/-- Of the field commands only FLD.IP and FLD.ASCII write a string (R157, R158). -/
theorem exec_field_keeps_string {i : Instr} {s t : State} (hf : isField i = true)
    (hip : ∀ rel off, i ≠ .fldIp rel off) (hascii : ∀ rel off, i ≠ .fldAscii rel off)
    (h : exec i s = .next t) : t.strbuf = s.strbuf ∧ t.strlen = s.strlen := by
  rw [exec_field hf] at h
  simp only [outcomeOf_next_iff, bind_ok_iff, except_pure, Except.ok.injEq] at h
  obtain ⟨bs, -, rfl⟩ := h
  cases i with
  | fldIp rel off => exact absurd rfl (hip rel off)
  | fldAscii rel off => exact absurd rfl (hascii rel off)
  | _ => simp [fieldResult]

end Sys2Proof.Machine
end

section
/-! The statements about the checksum and the writers of the results (R110-R115). -/

namespace Sys2Proof.Proofs

open Sys2Proof.Machine Sys2Proof.Claims

/-- Settles O15: the word and the meaning of CRC.INIT. -/
theorem crcInitSetsCrc : Obligations.CrcInitSetsCrc := ⟨rfl, exec_crcInit⟩

/-- Settles O16: by induction on the bytes, from the completed state CRC.INIT leaves. -/
theorem crcBytesStreamToCompute : Obligations.CrcBytesStreamToCompute :=
  ⟨fun d => decode_packWord .crcByte d 0 rfl, exec_crcByte,
    fun bs s => runCommands_crcBytes bs { s with crc := 0xFFFF }⟩

/-- Settles O17: the two cases of CRC.RX. -/
theorem crcRxFoldsTheRange : Obligations.CrcRxFoldsTheRange := by
  refine ⟨fun st => ?_, fun _ _ => exec_crcRx_range, fun _ _ _ => exec_crcRx_of_holdsAt⟩
  have hword : st ++ (0 : Byte) ++ (0x12 : Byte) = packWord (opByte .crcRx) 0 st.toNat := by
    simp [packWord, opByte]
  rw [hword, decode_packWord _ _ _ rfl, commandOf, BitVec.ofNat_toNat, BitVec.setWidth_eq]

/-- Settles O19: the fold goes on from compute of the bytes over that register's own two bytes. -/
theorem appendedChecksumLeavesZero : Obligations.AppendedChecksumLeavesZero := by
  intro bs
  have happend := crcFold_append 0xFFFF bs (checksumBytes (crcCompute bs))
  exact happend.trans (crcFold_checksumBytes _)

/-- Settles O20: eight iterations of the shift, and the left fold over the bytes. -/
theorem checksumIsTheBitwiseAlgorithm : Obligations.ChecksumIsTheBitwiseAlgorithm := by
  refine ⟨fun r d => ?_, crcFold_eq_foldl, crcFold_eq_foldl _⟩
  rw [crcStep, crcShifts_eq_iterate, funext crcShift_eq]

/-- Settles O41: command by command, from the next states each can give. -/
theorem eachResultHasItsWriters : Obligations.EachResultHasItsWriters := by
  intro i s t h
  cases i using instrCases with
  | crcInit | crcByte d =>
    cases h
    simp [writesCrc]
  | crcRx start =>
    obtain ⟨-, rfl⟩ | ⟨-, r, rfl⟩ := exec_crcRx_next h <;> simp [writesCrc]
  | frmEnc c p =>
    obtain ⟨-, rfl⟩ | ⟨-, r, -, rfl⟩ := exec_frmEnc_next h <;> simp [writesCrc]
  | frmDec =>
    obtain ⟨-, rfl⟩ | ⟨-, rfl⟩ | ⟨-, -, body, lo, hi, -, -, -, rfl⟩ := exec_frmDec_next h
    · simp [writesCrc]
    · simp [writesCrc]
    · simp [writesCrc, acceptFrame_eq]
  | field i hf =>
    have hstring := fun hip hascii => exec_field_keeps_string hf hip hascii h
    obtain ⟨r0, r1, r2, buf, len, rfl⟩ := exec_field_next hf h
    refine ⟨fun _ => rfl, fun _ => ⟨rfl, rfl⟩, fun _ => ⟨rfl, rfl, rfl, rfl⟩, fun hno => ?_,
      fun _ => rfl, hstring, fun _ => ⟨rfl, rfl, rfl, rfl⟩, fun _ _ => ⟨rfl, rfl, rfl⟩⟩
    rw [hf] at hno
    cases hno
  | rspCheck c =>
    obtain rfl | rfl | rfl := exec_rspCheck_next h
    · simp
    · simp
    · simp [loadDescriptor_eq]
  | recStart =>
    obtain rfl | ⟨-, -, rfl⟩ := exec_recStart_next h <;> simp
  | recNext att =>
    obtain ⟨-, rfl⟩ | ⟨-, -, rfl⟩ | ⟨-, rfl, r0, r1, r2, r3, rfl⟩ | ⟨-, -, rfl⟩ :=
      exec_recNext_next h <;> simp

end Sys2Proof.Proofs
end

section
/-! SUPPORT. Bytes held by a buffer as one list, the frame of R130 as a list of bytes, and what FRM.ENC and FRM.DEC do with it (R131, R134). -/

namespace Sys2Proof.Machine

open Sys2Proof.Claims

/-! Bytes held by a buffer. -/

theorem holdsAt_append {m : Memory} {i : Nat} {xs ys : List Byte} :
    HoldsAt m i (xs ++ ys) ↔ HoldsAt m i xs ∧ HoldsAt m (i + xs.length) ys := by
  constructor
  · intro h
    constructor
    · intro k hk
      rw [h k (by rw [List.length_append]; omega), List.getElem?_append_left hk]
    · intro k hk
      rw [Nat.add_assoc, h _ (by rw [List.length_append]; omega),
        List.getElem?_append_right (by omega), Nat.add_sub_cancel_left]
  · rintro ⟨hxs, hys⟩ k hk
    by_cases hlt : k < xs.length
    · rw [hxs k hlt, List.getElem?_append_left hlt]
    · obtain ⟨j, rfl⟩ := Nat.exists_eq_add_of_le (Nat.not_lt.mp hlt)
      rw [List.length_append] at hk
      rw [← Nat.add_assoc, hys j (by omega), List.getElem?_append_right (by omega),
        Nat.add_sub_cancel_left]

theorem holdsAt_memPutAll_same (m : Memory) (i : Nat) (vs : List Byte) :
    HoldsAt (memPutAll m i vs) i vs :=
  fun _ hk => memGet_memPutAll_inside vs m hk

theorem holdsAt_memPutAll_outside {m : Memory} {i j : Nat} {bs vs : List Byte}
    (h : HoldsAt m i bs) (hout : i + bs.length ≤ j ∨ j + vs.length ≤ i) :
    HoldsAt (memPutAll m j vs) i bs := fun k hk => by
  rw [memGet_memPutAll_outside vs m (by omega), h k hk]

/-! The frame. -/

/-- Frame bytes 1 .. 5+P, which the checksum covers: device id, command code, payload (R130). -/
def frameBody (d : Word) (c : Byte) (bs : List Byte) : List Byte :=
  [d.extractLsb' 0 8, d.extractLsb' 8 8, d.extractLsb' 16 8, d.extractLsb' 24 8] ++ [c] ++ bs

/-- The whole frame of a payload (R130). -/
def frameOf (d : Word) (c : Byte) (bs : List Byte) : List Byte :=
  frameHead d c ++ bs ++ checksumBytes (crcCompute (frameBody d c bs))

theorem length_frameBody (d : Word) (c : Byte) (bs : List Byte) :
    (frameBody d c bs).length = 5 + bs.length :=
  Nat.add_comm bs.length 5

/-- The head and the payload are the header and the bytes under the checksum. -/
theorem frameHead_append (d : Word) (c : Byte) (bs : List Byte) :
    frameHead d c ++ bs = [headerByte] ++ frameBody d c bs := rfl

theorem frameOf_eq (d : Word) (c : Byte) (bs : List Byte) :
    frameOf d c bs =
      [headerByte] ++ (frameBody d c bs ++ checksumBytes (crcCompute (frameBody d c bs))) := rfl

theorem length_frameOf (d : Word) (c : Byte) (bs : List Byte) :
    (frameOf d c bs).length = minFrame + bs.length := by
  simp only [frameOf, List.length_append, Safety.length_frameHead, Safety.length_checksumBytes,
    minFrame]
  omega

/-- The two checksum bytes on the wire, put together again (R115). -/
theorem le16_bytes (r : Half) : le16 (r.extractLsb' 0 8) (r.extractLsb' 8 8) = r := by
  apply BitVec.eq_of_toNat_eq
  simp only [le16_toNat, BitVec.extractLsb'_toNat, Nat.shiftRight_eq_div_pow]
  omega

/-- The four device id bytes on the wire, put together again (R130). -/
theorem le32_bytes (d : Word) :
    le32 (d.extractLsb' 0 8) (d.extractLsb' 8 8) (d.extractLsb' 16 8) (d.extractLsb' 24 8) = d :=
  bytesToWord_bytes d

/-! FRM.ENC. -/

/-- A command word written as its three fields side by side (R92). -/
theorem append_eq_packWord (off : Half) (imm op : Byte) :
    off ++ imm ++ op = packWord op imm off.toNat := by
  simp [packWord]

theorem decode_frmEncWord (c : Byte) (p : Half) :
    decode (p ++ c ++ (0x20 : Byte)) = some (.frmEnc c p.toNat) := by
  have hdecode := decode_packWord .frmEnc c p.toNat rfl
  rwa [commandOf, BitVec.ofNat_toNat, BitVec.setWidth_eq, ← append_eq_packWord] at hdecode

/-- The state FRM.ENC leaves when it built the frame of this payload (R131). -/
def encoded (c : Byte) (bs : List Byte) (s : State) : State :=
  { s with
    txbuf := memPutAll (memPutAll s.txbuf 0 (frameHead s.devid c)) (6 + bs.length)
      (checksumBytes (crcCompute (frameBody s.devid c bs)))
    txlen := BitVec.ofNat 16 (minFrame + bs.length)
    crc := crcCompute (frameBody s.devid c bs)
    err := .ok
    pending := none }

section
variable {m : Memory} {bs : List Byte} (hheld : HoldsAt m 6 bs)
include hheld

/-- With the head written before the payload, header and body stand in TXBUF (R131). -/
theorem holdsAt_headed (d : Word) (c : Byte) :
    HoldsAt (memPutAll m 0 (frameHead d c)) 0 ([headerByte] ++ frameBody d c bs) := by
  rw [← frameHead_append]
  exact holdsAt_append.mpr ⟨holdsAt_memPutAll_same _ _ _,
    holdsAt_memPutAll_outside hheld (.inr (Nat.le_refl 6))⟩

/-- FRM.ENC folds the bytes under the checksum as it finds them in TXBUF (R131). -/
theorem readRange_headed (d : Word) (c : Byte) :
    readRange .tx (memPutAll m 0 (frameHead d c)) 1 (5 + bs.length) = .ok (frameBody d c bs) :=
  readRange_ok_iff_holdsAt.mpr
    ⟨length_frameBody d c bs, (holdsAt_append.mp (holdsAt_headed hheld d c)).2⟩

end

section
variable {s : State} {bs : List Byte} (hheld : HoldsAt s.txbuf 6 bs)
include hheld

theorem exec_frmEnc_of_holdsAt (c : Byte) (hfit : minFrame + bs.length ≤ s.bufBytes) :
    exec (.frmEnc c bs.length) s = .next (encoded c bs s) := by
  rw [exec_frmEnc_fits hfit, readRange_headed hheld, except_ok_bind, except_pure, outcomeOf_ok,
    complete, encoded]

theorem holdsAt_encoded (c : Byte) :
    HoldsAt (encoded c bs s).txbuf 0 (frameOf s.devid c bs) := by
  have hlen : 0 + (frameHead s.devid c ++ bs).length = 6 + bs.length := by
    rw [List.length_append, Safety.length_frameHead, Nat.zero_add]
  refine holdsAt_append.mpr ⟨holdsAt_memPutAll_outside (holdsAt_headed hheld _ c) (.inl ?_), ?_⟩
  · exact Nat.le_of_eq hlen
  · rw [hlen]
    exact holdsAt_memPutAll_same _ _ _

end

/-- Offsets from 8 + P on are not written (R131). -/
theorem memGet_encoded_beyond (c : Byte) (bs : List Byte) (s : State) {k : Nat}
    (hk : minFrame + bs.length ≤ k) : memGet (encoded c bs s).txbuf k = memGet s.txbuf k := by
  have hmin : minFrame = 8 := rfl
  have hhead := memGet_memPutAll_outside (frameHead s.devid c) s.txbuf (i := 0) (j := k)
    (.inr (by rw [Safety.length_frameHead]; omega))
  rw [← hhead]
  exact memGet_memPutAll_outside _ _ (.inr (by rw [Safety.length_checksumBytes]; omega))

theorem encoded_txlen_toNat (c : Byte) (bs : List Byte) (s : State)
    (hfit : minFrame + bs.length ≤ s.bufBytes) (hcap : s.bufBytes ≤ 65535) :
    (encoded c bs s).txlen.toNat = minFrame + bs.length :=
  (BitVec.toNat_ofNat _ _).trans (Nat.mod_eq_of_lt (by omega))

/-- A payload byte never written stops FRM.ENC on such a byte (R53). -/
theorem exec_frmEnc_unwritten {c : Byte} {p k : Nat} {s : State}
    (hfit : minFrame + p ≤ s.bufBytes) (hk : k < p) (hnone : memGet s.txbuf (6 + k) = none) :
    ∃ j, j < p ∧ memGet s.txbuf (6 + j) = none ∧
      exec (.frmEnc c p) s = .fault (.unwrittenRead .tx (6 + j)) := by
  have hheaded : memGet (memPutAll s.txbuf 0 (frameHead s.devid c)) (1 + (5 + k)) = none := by
    rw [memGet_memPutAll_outside _ _ (.inr (by rw [Safety.length_frameHead]; omega)),
      ← Nat.add_assoc, hnone]
  obtain ⟨i, -, -, hread⟩ := readRange_of_unwritten (b := .tx) (n := 5 + p) (by omega) hheaded
  have hfault : exec (.frmEnc c p) s = .fault (.unwrittenRead .tx (1 + i)) := by
    rw [exec_frmEnc_fits hfit, hread]
    rfl
  obtain ⟨q, hq, hlo, hhi, hunwritten⟩ := frmEnc_fault hfault
  obtain ⟨j, rfl⟩ := Nat.exists_eq_add_of_le hlo
  exact ⟨j, by omega, hunwritten, hq ▸ hfault⟩

/-! FRM.DEC. -/

/-- A byte of the bytes under the checksum is the frame's byte one offset further on (R130). -/
theorem getD_drop_take (fr : List Byte) {n j : Nat} (hj : j < n) :
    ((fr.drop 1).take n).getD j 0 = fr.getD (j + 1) 0 := by
  rw [List.getD_eq_getElem?_getD, List.getD_eq_getElem?_getD, List.getElem?_take_of_lt hj,
    List.getElem?_drop, Nat.add_comm 1 j]

/-- A frame with a good header that stands in RXBUF is accepted (R134). -/
theorem exec_frmDec_of_holdsAt {s : State} {fr : List Byte} (h8 : 8 ≤ s.rxlen.toNat)
    (hlen : fr.length = s.rxlen.toNat) (hheld : HoldsAt s.rxbuf 0 fr) (h0 : fr[0]? = some 0xA5) :
    exec .frmDec s = .next (acceptFrame ((fr.drop 1).take (fr.length - 3))
      (fr.getD (fr.length - 2) 0) (fr.getD (fr.length - 1) 0) s) := by
  have hhead : memGet s.rxbuf 0 = some 0xA5 := (hheld 0 (by omega)).trans h0
  rw [exec_frmDec_goodHeader h8 hhead, readRange_ok_iff_holdsAt.mpr ⟨hlen, hheld⟩]
  rfl

/-- A frame FRM.ENC built, found in RXBUF, is split into its body and its checksum bytes (R138). -/
theorem exec_frmDec_frameOf {d : Word} {c : Byte} {bs : List Byte} {u : State}
    (hlen : u.rxlen.toNat = minFrame + bs.length) (hheld : HoldsAt u.rxbuf 0 (frameOf d c bs)) :
    exec .frmDec u = .next (acceptFrame (frameBody d c bs)
      ((crcCompute (frameBody d c bs)).extractLsb' 0 8)
      ((crcCompute (frameBody d c bs)).extractLsb' 8 8) u) := by
  have h8 : 8 ≤ u.rxlen.toNat := hlen ▸ Nat.le_add_right 8 bs.length
  have hframe : (frameOf d c bs).length = (frameBody d c bs).length + 3 := by
    rw [length_frameOf, length_frameBody, minFrame]
    omega
  rw [exec_frmDec_of_holdsAt h8 ((length_frameOf d c bs).trans hlen.symm) hheld rfl, hframe,
    frameOf_eq]
  simp [checksumBytes]

/-- The received checksum of such a frame is the computed one, so FRM.DEC completes with OK in
strict mode or not (R138). -/
theorem acceptFrame_frameBody (d : Word) (c : Byte) (bs : List Byte) (u : State) :
    acceptFrame (frameBody d c bs) ((crcCompute (frameBody d c bs)).extractLsb' 0 8)
        ((crcCompute (frameBody d c bs)).extractLsb' 8 8) u =
      { u with
        fDevid := d
        fCmd := c
        fPlen := BitVec.ofNat 16 (u.rxlen.toNat - minFrame)
        fCksum := crcCompute (frameBody d c bs) ++ crcCompute (frameBody d c bs)
        crc := crcCompute (frameBody d c bs)
        ckok := true
        err := .ok
        pending := none } := by
  have hdevid : le32 ((frameBody d c bs).getD 0 0) ((frameBody d c bs).getD 1 0)
      ((frameBody d c bs).getD 2 0) ((frameBody d c bs).getD 3 0) = d := le32_bytes d
  have hcmd : (frameBody d c bs).getD 4 0 = c := rfl
  rw [acceptFrame_eq, hdevid, hcmd, le16_bytes]
  simp

end Sys2Proof.Machine
end

section
/-! The statements about the framer (R130-R138). -/

namespace Sys2Proof.Proofs

open Sys2Proof.Machine Sys2Proof.Claims

/-- Settles O21: the head is written around a payload the host left, and the checksum after it. -/
theorem frmEncBuildsTheFrame : Obligations.FrmEncBuildsTheFrame := by
  refine ⟨decode_frmEncWord, fun _ _ _ => exec_frmEnc_range,
    fun _ _ _ hfit ⟨_, hk, hnone⟩ => exec_frmEnc_unwritten hfit hk hnone,
    fun c p s bs hfit hcap hlen hheld => ?_⟩
  subst hlen
  exact ⟨encoded c bs s, exec_frmEnc_of_holdsAt hheld c hfit, holdsAt_encoded hheld c,
    fun _ => memGet_encoded_beyond c bs s, encoded_txlen_toNat c bs s hfit hcap, rfl⟩

/-- Settles O22: the three checks in order, and the accepted frame byte by byte. -/
theorem frmDecSplitsTheFrame : Obligations.FrmDecSplitsTheFrame := by
  refine ⟨rfl, fun s => exec_frmDec_short, fun s b => exec_frmDec_badHeader,
    fun s fr h8 hlen hheld h0 => ?_⟩
  rw [exec_frmDec_of_holdsAt h8 hlen hheld h0, acceptFrame_eq, hlen,
    getD_drop_take fr (j := 0) (by omega), getD_drop_take fr (j := 1) (by omega),
    getD_drop_take fr (j := 2) (by omega), getD_drop_take fr (j := 3) (by omega),
    getD_drop_take fr (j := 4) (by omega)]
  rfl

/-- Settles O23: FRM.ENC completed with OK, so its frame stands in TXBUF and in the copy. -/
theorem frameRoundTrip : Obligations.FrameRoundTrip := by
  intro c p s t u bs hcap hlen hheld hx hok hrx hcopy
  subst hlen
  have hfit : minFrame + bs.length ≤ s.bufBytes := by
    obtain ⟨-, rfl⟩ | ⟨hfit, -⟩ := exec_frmEnc_next hx
    · cases hok
    · exact hfit
  obtain rfl : encoded c bs s = t := by
    rw [exec_frmEnc_of_holdsAt hheld c hfit] at hx
    injection hx
  have htx := encoded_txlen_toNat c bs s hfit hcap
  have hframe : HoldsAt u.rxbuf 0 (frameOf s.devid c bs) := fun k hk => by
    have hbuilt := holdsAt_encoded hheld c k hk
    rw [length_frameOf, ← htx] at hk
    rw [Nat.zero_add] at hbuilt ⊢
    exact (hcopy k hk).trans hbuilt
  have hulen : u.rxlen.toNat = minFrame + bs.length := by rw [hrx, htx]
  refine ⟨htx, _, exec_frmDec_frameOf hulen hframe, ?_⟩
  rw [acceptFrame_frameBody]
  refine ⟨rfl, rfl, rfl, rfl, ?_, rfl⟩
  have hplen : u.rxlen.toNat - minFrame = bs.length := by omega
  rw [hplen]
  exact (BitVec.toNat_ofNat _ _).trans (Nat.mod_eq_of_lt (by omega))

end Sys2Proof.Proofs
end

section
/-! SUPPORT. The field commands on bytes read leniently (R150): their words (R92), the next state each gives from the bytes it reads, the decimal text of an octet (R157), and what a string result leaves of STRBUF (R52). -/

namespace Sys2Proof.Machine

open Sys2Proof.Claims

/-! Words. -/

/-- A field command's word has REL in bit 0 of its IMM8 (R92). -/
theorem fieldWord_eq_packWord (off : Half) (rel : Bool) (op : Byte) :
    fieldWord off rel op = packWord op (flagImm rel) off.toNat := by
  have himm : off ++ (0 : BitVec 7) ++ BitVec.ofBool rel = off ++ flagImm rel :=
    BitVec.append_assoc.trans (by cases rel <;> rfl)
  rw [← append_eq_packWord, ← himm]
  rfl

theorem decode_fieldWord {off : Half} {rel : Bool} {op : Byte} {i : Instr}
    (henc : encode i = packWord op (flagImm rel) off.toNat) (hwf : i.wf = fitsOff16 off.toNat) :
    decode (fieldWord off rel op) = some i := by
  rw [fieldWord_eq_packWord, ← henc]
  exact decode_encode (hwf.trans (decide_eq_true off.isLt))

/-! Reads. -/

theorem lenientRange_cons {s : State} {i n : Nat} {v : Byte} {vs : List Byte}
    (hv : ReadsB s i v) (hvs : lenientRange s (i + 1) n = .ok vs) :
    lenientRange s i (n + 1) = .ok (v :: vs) := by
  rw [lenientRange, lenient_ok_iff.mpr hv, hvs]
  rfl

theorem lenientRange_one {s : State} {i : Nat} {v : Byte} (hv : ReadsB s i v) :
    lenientRange s i 1 = .ok [v] :=
  lenientRange_cons hv rfl

theorem lenientRange_four {s : State} {i : Nat} {b0 b1 b2 b3 : Byte} (h0 : ReadsB s i b0)
    (h1 : ReadsB s (i + 1) b1) (h2 : ReadsB s (i + 2) b2) (h3 : ReadsB s (i + 3) b3) :
    lenientRange s i 4 = .ok [b0, b1, b2, b3] :=
  lenientRange_cons h0 (lenientRange_cons h1 (lenientRange_cons h2 (lenientRange_one h3)))

/-- From RXLEN on every byte reads 0, written or not (R150). -/
theorem lenientRange_pastEnd {s : State} {i : Nat} (n : Nat) (h : s.rxlen.toNat ≤ i) :
    lenientRange s i n = .ok (List.replicate n 0) := by
  induction n generalizing i with
  | zero => rfl
  | succ n ih => exact lenientRange_cons (.inr ⟨h, rfl⟩) (ih (Nat.le_succ_of_le h))

theorem exec_field_of_read {i : Instr} (hf : isField i = true) {s : State} {bs : List Byte}
    (h : lenientRange s (fieldRead s i).1 (fieldRead s i).2 = .ok bs) :
    exec i s = .next (complete (fieldResult s bs i)) := by
  rw [exec_field hf, h]
  rfl

/-! Each field command on its bytes (R151-R158). -/

section
variable {rel : Bool} {off : Nat} {s : State} {b0 b1 b2 b3 b4 b5 : Byte}
  (h0 : ReadsB s (ea rel off s) b0)
include h0

theorem exec_fldU8_of_readsB :
    exec (.fldU8 rel off) s = .next { s with res0 := zext8 b0, err := .ok, pending := none } := by
  simp [exec_field_of_read (i := .fldU8 rel off) rfl (lenientRange_one h0), fieldResult, complete]

theorem exec_fldS8_of_readsB :
    exec (.fldS8 rel off) s =
      .next { s with res0 := b0.signExtend 32, err := .ok, pending := none } := by
  simp [exec_field_of_read (i := .fldS8 rel off) rfl (lenientRange_one h0), fieldResult, complete]

theorem exec_fldYear_of_readsB :
    exec (.fldYear rel off) s =
      .next { s with res0 := yearOf b0, err := .ok, pending := none } := by
  simp [exec_field_of_read (i := .fldYear rel off) rfl (lenientRange_one h0), fieldResult, complete]

variable (h1 : ReadsB s (ea rel off s + 1) b1)
include h1

theorem exec_fldU16_of_readsB :
    exec (.fldU16 rel off) s =
      .next { s with res0 := zext16 (le16 b0 b1), err := .ok, pending := none } := by
  have hread := lenientRange_cons h0 (lenientRange_one h1)
  simp [exec_field_of_read (i := .fldU16 rel off) rfl hread, fieldResult, complete]

variable (h2 : ReadsB s (ea rel off s + 2) b2) (h3 : ReadsB s (ea rel off s + 3) b3)
include h2 h3

theorem exec_fldU32_of_readsB :
    exec (.fldU32 rel off) s =
      .next { s with res0 := le32 b0 b1 b2 b3, err := .ok, pending := none } := by
  simp [exec_field_of_read (i := .fldU32 rel off) rfl (lenientRange_four h0 h1 h2 h3), fieldResult,
    complete]

theorem exec_fldIp_of_readsB :
    exec (.fldIp rel off) s = .next (complete
      (putString (dottedQuad b0 b1 b2 b3) { s with res0 := le32 b0 b1 b2 b3 })) := by
  simp [exec_field_of_read (i := .fldIp rel off) rfl (lenientRange_four h0 h1 h2 h3), fieldResult,
    complete]

theorem exec_fldDate6_of_readsB (h4 : ReadsB s (ea rel off s + 4) b4)
    (h5 : ReadsB s (ea rel off s + 5) b5) :
    exec (.fldDate6 rel off) s = .next
      { s with
        res0 := yearOf b0
        res1 := le32 b1 b2 b3 b4
        res2 := zext8 b5
        err := .ok
        pending := none } := by
  have hread := lenientRange_cons h0 (lenientRange_cons h1 (lenientRange_cons h2
    (lenientRange_cons h3 (lenientRange_cons h4 (lenientRange_one h5)))))
  simp [exec_field_of_read (i := .fldDate6 rel off) rfl hread, fieldResult, complete]

end

theorem exec_fldAscii_of_read {rel : Bool} {off : Nat} {s : State} {bs : List Byte}
    (h : lenientRange s (ea rel off s) (ea rel s.arg.toNat s - ea rel off s) = .ok bs) :
    exec (.fldAscii rel off) s = .next (complete (putString (dropZeros bs) s)) :=
  exec_field_of_read (i := .fldAscii rel off) rfl h

/-! Numbers. -/

theorem zext16_le16_eq_ofNat (b0 b1 : Byte) :
    zext16 (le16 b0 b1) = BitVec.ofNat 32 (b0.toNat + 256 * b1.toNat) := by
  rw [← le16_toNat, BitVec.ofNat_toNat]
  rfl

theorem yearOf_eq_ofNat (b : Byte) : yearOf b = BitVec.ofNat 32 (b.toNat + 2000) := by
  rw [← yearOf_toNat, BitVec.ofNat_toNat, BitVec.setWidth_eq]

/-- A byte sign-extended is v below 128 and v - 256 from there on (R154). -/
theorem toInt_signExtend_byte (b : Byte) :
    (b.signExtend 32).toInt = if b.toNat < 128 then (b.toNat : Int) else (b.toNat : Int) - 256 := by
  rw [BitVec.toInt_signExtend_of_le (by decide), BitVec.toInt_eq_toNat_cond]
  split <;> split <;> omega

/-! The decimal text of an octet. -/

theorem ofNat_digitChar {n : Nat} (h : n < 10) :
    BitVec.ofNat 8 (Nat.digitChar n).toNat = asciiDigit n := by
  rw [Nat.toNat_digitChar_of_lt_ten h, asciiDigit]

/-- One to three digits, one case for each number of digits (R157). -/
theorem asciiText_toString (v : Byte) : asciiText (toString v.toNat) = decimalText v := by
  have hv := v.isLt
  have hlow : v.toNat % 10 < 10 := Nat.mod_lt _ (by decide)
  rw [asciiText, Nat.toString_eq_repr, Nat.toList_repr, decimalText]
  split
  · next h1 => rw [Nat.toDigits_of_lt_base h1, List.map_singleton, ofNat_digitChar h1]
  · next h1 =>
    rw [Nat.toDigits_of_base_le (by decide) (Nat.not_lt.mp h1), List.map_append,
      List.map_singleton, ofNat_digitChar hlow]
    split
    · next h2 =>
      have htens : v.toNat / 10 < 10 := by omega
      rw [Nat.toDigits_of_lt_base htens, List.map_singleton, ofNat_digitChar htens]
      rfl
    · next h2 =>
      have hhundreds : v.toNat / 10 / 10 < 10 := by omega
      have htens : v.toNat / 10 % 10 < 10 := Nat.mod_lt _ (by decide)
      rw [Nat.toDigits_of_base_le (by decide) (by omega), List.map_append, List.map_singleton,
        ofNat_digitChar htens, Nat.toDigits_of_lt_base hhundreds, List.map_singleton,
        ofNat_digitChar hhundreds, Nat.div_div_eq_div_mul]
      rfl

theorem quadText_eq_dottedQuad (o0 o1 o2 o3 : Byte) :
    quadText o0 o1 o2 o3 = dottedQuad o0 o1 o2 o3 := by
  have hdot : asciiText "." = [asciiDot] := rfl
  simp only [quadText, dottedQuad, asciiText_toString, hdot, List.append_assoc, List.cons_append,
    List.nil_append]

theorem decimalText_length_pos (v : Byte) : 1 ≤ (decimalText v).length := by
  unfold decimalText
  split
  · simp
  · split <;> simp

theorem dottedQuad_length_ge (o0 o1 o2 o3 : Byte) : 7 ≤ (dottedQuad o0 o1 o2 o3).length := by
  have h0 := decimalText_length_pos o0
  have h1 := decimalText_length_pos o1
  have h2 := decimalText_length_pos o2
  have h3 := decimalText_length_pos o3
  simp only [dottedQuad, List.length_append, List.length_cons]
  omega

/-! String results. -/

theorem putString_strlen_toNat {text : List Byte} (s : State) (h : text.length < 65536) :
    (putString text s).strlen.toNat = text.length :=
  (BitVec.toNat_ofNat _ _).trans (Nat.mod_eq_of_lt h)

theorem holdsAt_putString (text : List Byte) (s : State) :
    HoldsAt (putString text s).strbuf 0 text :=
  holdsAt_memPutAll_same _ _ _

/-- Bytes at or past the end of a string result keep what they held (R52). -/
theorem memGet_putString_beyond {text : List Byte} (s : State) {k : Nat} (h : text.length ≤ k) :
    memGet (putString text s).strbuf k = memGet s.strbuf k :=
  memGet_memPutAll_outside _ _ (.inr (by omega))

/-- Bytes at or past the new STRLEN keep what they held, for a text whose length STRLEN holds. -/
theorem memGet_putString_past_strlen {text : List Byte} (s : State) {k : Nat}
    (h : text.length < 65536) (hk : (putString text s).strlen.toNat ≤ k) :
    memGet (putString text s).strbuf k = memGet s.strbuf k :=
  memGet_putString_beyond s (putString_strlen_toNat s h ▸ hk)

theorem dottedQuad_length_lt (o0 o1 o2 o3 : Byte) : (dottedQuad o0 o1 o2 o3).length < 65536 :=
  Nat.lt_of_le_of_lt (Safety.dottedQuad_length_le o0 o1 o2 o3) (by decide)

/-- What FLD.ASCII keeps is no longer than RXLEN, so STRLEN holds its length (R158). -/
theorem dropZeros_length_lt {s : State} {i n : Nat} {bs : List Byte}
    (h : lenientRange s i n = .ok bs) : (dropZeros bs).length < 65536 := by
  have hlen := Safety.dropZeros_length_le h
  have hrx := s.rxlen.isLt
  omega

theorem dropZeros_replicate (n : Nat) : dropZeros (List.replicate n 0) = [] :=
  List.filter_eq_nil_iff.mpr fun b hb => by simp [List.eq_of_mem_replicate hb]

end Sys2Proof.Machine
end

section
/-! The statements about the field commands (R150-R159). -/

namespace Sys2Proof.Proofs

open Sys2Proof.Machine Sys2Proof.Claims

/-- Settles O24: one byte read, and its value as each rule takes it. -/
theorem oneByteFieldsDecode : Obligations.OneByteFieldsDecode :=
  ⟨fun _ _ => ⟨decode_fieldWord rfl rfl, decode_fieldWord rfl rfl, decode_fieldWord rfl rfl⟩,
    fun _ _ _ b0 h0 => ⟨exec_fldU8_of_readsB h0,
      ⟨b0.signExtend 32, exec_fldS8_of_readsB h0, toInt_signExtend_byte b0⟩,
      ⟨yearOf b0, exec_fldYear_of_readsB h0, yearOf_toNat b0⟩⟩⟩

/-- Settles O25: two and four bytes read one by one, the first the lowest. -/
theorem multiByteFieldsAreLittleEndian : Obligations.MultiByteFieldsAreLittleEndian := by
  refine ⟨fun _ _ => ⟨decode_fieldWord rfl rfl, decode_fieldWord rfl rfl⟩,
    fun rel off s b0 b1 h0 h1 => ?_, fun _ _ _ _ _ _ _ => exec_fldU32_of_readsB⟩
  rw [← zext16_le16_eq_ofNat]
  exact exec_fldU16_of_readsB h0 h1

/-- Settles O26: six bytes read one by one, none of them checked. -/
theorem fldDate6SixBytes : Obligations.FldDate6SixBytes := by
  refine ⟨fun _ _ => decode_fieldWord rfl rfl,
    fun rel off s y mo d h mi se hy hmo hd hh hmi hse => ?_⟩
  rw [← yearOf_eq_ofNat]
  exact exec_fldDate6_of_readsB hy hmo hd hh hmi hse

/-- Settles O27: the model's digits are Lean's, and the text is written from STRBUF[0] on. -/
theorem fldIpWritesTheDottedQuad : Obligations.FldIpWritesTheDottedQuad := by
  refine ⟨fun _ _ => decode_fieldWord rfl rfl, fun rel off s o0 o1 o2 o3 h0 h1 h2 h3 => ?_⟩
  have hlen := putString_strlen_toNat { s with res0 := le32 o0 o1 o2 o3 }
    (dottedQuad_length_lt o0 o1 o2 o3)
  rw [quadText_eq_dottedQuad]
  exact ⟨_, exec_fldIp_of_readsB h0 h1 h2 h3, holdsAt_putString _ _,
    fun _ => memGet_putString_beyond _, hlen, hlen.symm ▸ dottedQuad_length_ge o0 o1 o2 o3,
    hlen.symm ▸ Safety.dottedQuad_length_le o0 o1 o2 o3, rfl⟩

/-- Settles O28: the range read leniently, and its zero bytes dropped. -/
theorem fldAsciiKeepsNonZeroBytes : Obligations.FldAsciiKeepsNonZeroBytes := by
  refine ⟨fun _ _ => decode_fieldWord rfl rfl, fun rel off s bs hn hbs => ?_⟩
  have hread : lenientRange s (ea rel off s) (ea rel s.arg.toNat s - ea rel off s) = .ok bs :=
    lenientRange_ok_iff.mpr ⟨hn, fun k v hk => lenient_ok_iff.mpr (hbs k v hk)⟩
  have hlen := putString_strlen_toNat s (dropZeros_length_lt hread)
  have hbound : (dropZeros bs).length ≤
      min (ea rel s.arg.toNat s) s.rxlen.toNat - ea rel off s := by
    have hrange : (dropZeros bs).length ≤ bs.length := List.length_filter_le _ _
    have hrx := Safety.dropZeros_length_le hread
    omega
  exact ⟨_, exec_fldAscii_of_read hread, holdsAt_putString _ _,
    fun _ => memGet_putString_beyond _, hlen, hlen.symm ▸ hbound, rfl⟩

/-- Settles O29: the results are those of the bytes read, command by command, and a string's length
fits STRLEN. -/
theorem fieldCommandsChangeOnlyResults : Obligations.FieldCommandsChangeOnlyResults := by
  intro i s t hf h
  constructor
  · obtain ⟨r0, r1, r2, buf, len, rfl⟩ := exec_field_next hf h
    exact ⟨rfl, rfl, rfl, rfl, rfl, rfl, rfl, rfl, rfl, rfl⟩
  · cases i with
    | fldU8 => obtain ⟨r, rfl⟩ := exec_fldU8_next h; rfl
    | fldU16 => obtain ⟨r, rfl⟩ := exec_fldU16_next h; rfl
    | fldU32 => obtain ⟨r, rfl⟩ := exec_fldU32_next h; rfl
    | fldS8 => obtain ⟨r, rfl⟩ := exec_fldS8_next h; rfl
    | fldYear => obtain ⟨r, rfl⟩ := exec_fldYear_next h; rfl
    | fldDate6 => obtain ⟨r0, r1, r2, rfl⟩ := exec_fldDate6_next h; rfl
    | fldIp =>
      obtain ⟨o0, o1, o2, o3, r, rfl⟩ := exec_fldIp_next h
      exact ⟨rfl, fun _ => memGet_putString_past_strlen _ (dottedQuad_length_lt o0 o1 o2 o3)⟩
    | fldAscii =>
      obtain ⟨bs, hread, rfl⟩ := exec_fldAscii_next h
      exact ⟨rfl, fun _ => memGet_putString_past_strlen _ (dropZeros_length_lt hread)⟩
    | _ => cases hf

/-- Settles O30: every byte read is 0, so each result is that of zero bytes. -/
theorem fieldPastTheEndYieldsDefaults : Obligations.FieldPastTheEndYieldsDefaults := by
  intro rel off s hpast
  have hzero : ∀ k, ReadsB s (ea rel off s + k) 0 := fun k => .inr ⟨by omega, rfl⟩
  have hyear : yearOf 0 = 2000 := by decide
  have hquad : dottedQuad 0 0 0 0 = asciiText "0.0.0.0" := rfl
  have hip := exec_fldIp_of_readsB (hzero 0) (hzero 1) (hzero 2) (hzero 3)
  rw [hquad] at hip
  have hascii := exec_fldAscii_of_read (lenientRange_pastEnd _ hpast)
  rw [dropZeros_replicate] at hascii
  exact ⟨exec_fldU8_of_readsB (hzero 0), exec_fldU16_of_readsB (hzero 0) (hzero 1),
    exec_fldU32_of_readsB (hzero 0) (hzero 1) (hzero 2) (hzero 3), exec_fldS8_of_readsB (hzero 0),
    hyear ▸ exec_fldYear_of_readsB (hzero 0),
    hyear ▸ exec_fldDate6_of_readsB (hzero 0) (hzero 1) (hzero 2) (hzero 3) (hzero 4) (hzero 5),
    ⟨_, hip, holdsAt_putString _ _,
      fun _ => memGet_putString_beyond (text := asciiText "0.0.0.0") _, rfl⟩, hascii⟩

end Sys2Proof.Proofs
end

section
/-! SUPPORT. The catalog check and the record iterator (R182-R189): the next state of each command, the numbers in it, and what it takes for the iterator to fit the response (R185). -/

namespace Sys2Proof.Machine

open Sys2Proof.Claims

/-! RSP.CHECK, in the order of R183. -/

section
variable {c : Byte} {s : State}

theorem exec_rspCheck_unknown (hv : (catGet s.cat c.toNat).valid = false) :
    exec (.rspCheck c) s = .next (raiseErr .unknownCommand s) := by
  rw [exec_rspCheck_eq, if_pos hv]

variable (hv : (catGet s.cat c.toNat).valid = true)
include hv

theorem exec_rspCheck_short (hl : s.rxlen.toNat < (catGet s.cat c.toNat).minLen.toNat) :
    exec (.rspCheck c) s = .next (raiseErr .incompleteResponse s) := by
  rw [exec_rspCheck_eq, if_neg (ne_false_of_eq_true hv), if_pos hl]

theorem exec_rspCheck_found (hl : (catGet s.cat c.toNat).minLen.toNat ≤ s.rxlen.toNat) :
    exec (.rspCheck c) s = .next (complete (loadDescriptor (catGet s.cat c.toNat) s)) := by
  rw [exec_rspCheck_eq, if_neg (ne_false_of_eq_true hv), if_neg (Nat.not_lt.mpr hl)]

end

/-! REC.START (R184). -/

theorem recordCount_of_short {len hdr : Nat} (width : Nat) (h : len < hdr) :
    recordCount len hdr width = 0 := if_neg (Nat.not_le.mpr h)

theorem recordCount_of_le {len hdr : Nat} (width : Nat) (h : hdr ≤ len) :
    recordCount len hdr width = (len - hdr) / width := if_pos h

/-- REC_COUNT holds every count: no more records than bytes. -/
theorem recordCount_toNat (len : Half) (hdr width : Nat) :
    (BitVec.ofNat 16 (recordCount len.toNat hdr width)).toNat = recordCount len.toNat hdr width := by
  have hle : recordCount len.toNat hdr width ≤ len.toNat := by
    unfold recordCount
    split
    · exact (Nat.div_le_self _ _).trans (Nat.sub_le _ _)
    · exact Nat.zero_le _
  exact (BitVec.toNat_ofNat _ _).trans (Nat.mod_eq_of_lt (hle.trans_lt len.isLt))

/-- The iterator before record 0, with the count of the response (R184). -/
def startRecords (s : State) : State :=
  { s with
    recCount := BitVec.ofNat 16 (recordCount s.rxlen.toNat s.recHdr.toNat s.recW.toNat)
    recIdx := 0
    recBase := zext16 s.recFirst
    endFlag := false }

theorem startRecords_recCount_toNat (s : State) :
    (startRecords s).recCount.toNat = recordCount s.rxlen.toNat s.recHdr.toNat s.recW.toNat :=
  recordCount_toNat _ _ _

theorem exec_recStart_badParam {s : State}
    (h : s.recW.toNat = 0 ∨ s.recHdr.toNat < s.recFirst.toNat) :
    exec .recStart s = .next (raiseErr .badParam s) := by
  rw [exec_recStart_eq, if_pos (h.imp_left BitVec.eq_of_toNat_eq)]

theorem exec_recStart_ok {s : State} (hw : s.recW.toNat ≠ 0)
    (hf : s.recFirst.toNat ≤ s.recHdr.toNat) :
    exec .recStart s = .next (complete (startRecords s)) := by
  have hno : ¬ (s.recW = 0 ∨ s.recHdr.toNat < s.recFirst.toNat) :=
    not_or.mpr ⟨fun h => hw (congrArg BitVec.toNat h), Nat.not_lt.mpr hf⟩
  rw [exec_recStart_eq, if_neg hno, startRecords]

/-! REC.NEXT (R188, R189). -/

/-- The base of a record does not wrap in the 32 bits of REC_BASE. -/
theorem recordBase_lt (s : State) : recordBase s < 2 ^ 32 := by
  have hmul : s.recIdx.toNat * s.recW.toNat ≤ 65535 * 65535 :=
    Nat.mul_le_mul (Nat.le_of_lt_succ s.recIdx.isLt) (Nat.le_of_lt_succ s.recW.isLt)
  have hfirst := s.recFirst.isLt
  unfold recordBase
  omega

theorem advanceRecord_recBase_toNat (s : State) :
    (advanceRecord s).recBase.toNat = recordBase s :=
  (BitVec.toNat_ofNat _ _).trans (Nat.mod_eq_of_lt (recordBase_lt s))

theorem advanceRecord_recIdx_eq (s : State) : (advanceRecord s).recIdx = s.recIdx + 1 :=
  BitVec.eq_of_toNat_eq (by simp)

theorem advanceRecord_recIdx_toNat {s : State} (h : s.recIdx.toNat < s.recCount.toNat) :
    (advanceRecord s).recIdx.toNat = s.recIdx.toNat + 1 :=
  (BitVec.toNat_ofNat _ _).trans
    (Nat.mod_eq_of_lt ((Nat.succ_le_of_lt h).trans_lt s.recCount.isLt))

/-- With all but its bytes 2 .. 5 reading as in `r`, a record gives the results of those bytes. -/
theorem exec_recNext_of_readsB {s : State} {r : List Byte}
    (hlt : s.recIdx.toNat < s.recCount.toNat) (hw : 16 ≤ s.recW.toNat) (hlen : r.length = 16)
    (hr : ∀ k v, r[k]? = some v → k < 2 ∨ 6 ≤ k → ReadsB s (recordBase s + k) v) :
    exec (.recNext true) s =
      .next (complete (advanceRecord (attendanceResult s (r.take 2) (r.drop 6)))) := by
  have huser : lenientRange s (recordBase s) 2 = .ok (r.take 2) := by
    refine lenientRange_ok_iff.mpr ⟨by simp [hlen], fun k v hk => lenient_ok_iff.mpr ?_⟩
    obtain ⟨hk2, hv⟩ : k < 2 ∧ r[k]? = some v := by
      simpa [List.getElem?_take] using hk
    exact hr k v hv (.inl hk2)
  have htime : lenientRange s (recordBase s + 6) 10 = .ok (r.drop 6) := by
    refine lenientRange_ok_iff.mpr ⟨by simp [hlen], fun k v hk => lenient_ok_iff.mpr ?_⟩
    rw [List.getElem?_drop] at hk
    rw [Nat.add_assoc]
    exact hr (6 + k) v hk (.inr (Nat.le_add_right _ _))
  rw [exec_recNext_attendance hlt hw, huser, htime]
  rfl

/-- The attendance results by their bytes' places in the record (R186). -/
theorem attendanceResult_take_drop (s : State) (r : List Byte) :
    attendanceResult s (r.take 2) (r.drop 6) =
      { s with
        res0 := ((r.getD 6 0).setWidth 16 + 2000#16 : Half) ++ (r.getD 1 0 ++ r.getD 0 0 : Half)
        res1 := r.getD 10 0 ++ r.getD 9 0 ++ r.getD 8 0 ++ r.getD 7 0
        res2 := (r.getD 11 0).setWidth 32
        res3 := r.getD 15 0 ++ r.getD 14 0 ++ r.getD 13 0 ++ r.getD 12 0 } := by
  simp [attendanceResult, le16, le32, zext8, List.getD_eq_getElem?_getD]

theorem halfYear_toNat (b : Byte) : (b.setWidth 16 + 2000#16 : Half).toNat = b.toNat + 2000 := by
  bv_omega

/-- A next state of REC.NEXT has passed the record REC_IDX, at its base, or it leaves the iterator
where it was and has END = 1 if ERR = OK. -/
theorem exec_recNext_iterator {a : Bool} {s t : State} (h : exec (.recNext a) s = .next t) :
    t.recCount = s.recCount ∧
    ((s.recIdx.toNat < s.recCount.toNat ∧ t.recIdx.toNat = s.recIdx.toNat + 1 ∧
        t.recBase.toNat = recordBase s) ∨
      (t.recIdx = s.recIdx ∧ (t.err = .ok → t.endFlag = true))) := by
  obtain ⟨-, rfl⟩ | ⟨-, -, rfl⟩ | ⟨hlt, -, r0, r1, r2, r3, rfl⟩ | ⟨hlt, -, rfl⟩ :=
    exec_recNext_next h
  · exact ⟨rfl, .inr ⟨rfl, fun _ => rfl⟩⟩
  · exact ⟨rfl, .inr ⟨rfl, nofun⟩⟩
  · exact ⟨rfl, .inl ⟨hlt, advanceRecord_recIdx_toNat hlt, advanceRecord_recBase_toNat _⟩⟩
  · exact ⟨rfl, .inl ⟨hlt, advanceRecord_recIdx_toNat hlt, advanceRecord_recBase_toNat _⟩⟩

/-! The iterator fits the response (R185). -/

theorem iteratorFits_startRecords {s : State} (hw : s.recW.toNat ≠ 0)
    (hf : s.recFirst.toNat ≤ s.recHdr.toNat) : IteratorFits (startRecords s) := by
  refine ⟨hw, hf, Nat.zero_le _, ?_⟩
  rw [startRecords_recCount_toNat]
  by_cases hl : s.recHdr.toNat ≤ s.rxlen.toNat
  · right
    rw [recordCount_of_le _ hl]
    calc s.recHdr.toNat + (s.rxlen.toNat - s.recHdr.toNat) / s.recW.toNat * s.recW.toNat
        ≤ s.recHdr.toNat + (s.rxlen.toNat - s.recHdr.toNat) :=
          Nat.add_le_add_left (Nat.div_mul_le_self _ _) _
      _ = s.rxlen.toNat := Nat.add_sub_cancel' hl
  · exact .inl (recordCount_of_short _ (Nat.not_le.mp hl))

/-- A record that is left ends at or below RXLEN: it is one of the records counted. -/
theorem recordEnd_le_of_fits {s : State} (h : IteratorFits s)
    (hlt : s.recIdx.toNat < s.recCount.toNat) : recordBase s + s.recW.toNat ≤ s.rxlen.toNat := by
  obtain ⟨-, hf, -, hcount⟩ := h
  calc recordBase s + s.recW.toNat
      = s.recFirst.toNat + (s.recIdx.toNat + 1) * s.recW.toNat := by
        rw [recordBase, Nat.succ_mul, Nat.add_assoc]
    _ ≤ s.recHdr.toNat + s.recCount.toNat * s.recW.toNat :=
        Nat.add_le_add hf (Nat.mul_le_mul_right _ hlt)
    _ ≤ s.rxlen.toNat := hcount.resolve_left (Nat.ne_zero_of_lt hlt)

/-- W, F, H and L (R184) are the same in the two states. -/
def SameStream (s t : State) : Prop :=
  t.recW = s.recW ∧ t.recFirst = s.recFirst ∧ t.recHdr = s.recHdr ∧ t.rxlen = s.rxlen

section
variable {s t : State} (hfits : IteratorFits s) (hsame : SameStream s t)
include hfits hsame

theorem iteratorFits_of_sameStream (hcount : t.recCount = s.recCount ∨ t.recCount = 0)
    (hidx : t.recIdx.toNat ≤ t.recCount.toNat) : IteratorFits t := by
  obtain ⟨hw, hf, hh, hl⟩ := hsame
  obtain ⟨hpos, hfirst, -, hend⟩ := hfits
  unfold IteratorFits
  rw [hw, hf, hh, hl]
  refine ⟨hpos, hfirst, hidx, ?_⟩
  obtain hc | hc := hcount
  · rwa [hc]
  · exact .inl (congrArg BitVec.toNat hc)

theorem exec_keeps_iteratorFits {i : Instr} (h : exec i s = .next t) : IteratorFits t := by
  have ⟨hpos, hfirst, hle, _⟩ := hfits
  obtain ⟨-, -, -, -, -, -, -, hother⟩ := Proofs.eachResultHasItsWriters i s t h
  cases i with
  | recStart =>
    obtain rfl | ⟨-, -, rfl⟩ := exec_recStart_next h
    · exact hfits
    · exact iteratorFits_startRecords hpos hfirst
  | recNext a =>
    obtain ⟨hcount, hidx⟩ := exec_recNext_iterator h
    refine iteratorFits_of_sameStream hfits hsame (.inl hcount) ?_
    obtain ⟨hlt, hidx, -⟩ | ⟨hidx, -⟩ := hidx <;> rwa [hcount, hidx]
  | _ =>
    obtain ⟨hcount, hidx, -⟩ := hother nofun nofun
    exact iteratorFits_of_sameStream hfits hsame (.inl hcount) (by rwa [hcount, hidx])

/-- The reset event leaves a count of 0 (R240); no other host statement writes the iterator. -/
theorem hostStep_keeps_iteratorFits {st : HostStmt} (h : hostStep st s = .next t) :
    IteratorFits t := by
  by_cases hst : st = .assertReset
  · subst hst
    cases h
    exact iteratorFits_of_sameStream hfits hsame (.inr rfl) (Nat.zero_le _)
  · obtain ⟨-, -, -, -, -, -, -, -, -, -, -, -, -, -, -, hcount, hidx, -⟩ :=
      Proofs.hostNeverWritesEngineRegisters st s t hst h
    have ⟨_, _, hle, _⟩ := hfits
    exact iteratorFits_of_sameStream hfits hsame (.inl hcount) (by rwa [hcount, hidx])

theorem step_keeps_iteratorFits (h : step s = .next t) : IteratorFits t := by
  obtain rfl | ⟨w, i, -, -, hx⟩ | ⟨w, -, -, rfl⟩ | ⟨st, -, hx⟩ | ⟨st, -, hx⟩ := step_next_cases h
  · exact hfits
  · exact exec_keeps_iteratorFits hfits hsame hx
  · exact hfits
  · exact hostStep_keeps_iteratorFits hfits hsame hx
  · exact hostStep_keeps_iteratorFits (s := passTurn s) hfits hsame hx

end

end Sys2Proof.Machine
end

section
/-! The statements about the catalog check and the record stream (R182-R189). -/

namespace Sys2Proof.Proofs

open Sys2Proof.Machine Sys2Proof.Claims

/-- Settles O32: the count is the quotient, bounded by it from both sides. -/
theorem recStartCountsRecords : Obligations.RecStartCountsRecords := by
  refine ⟨decode_packWord .recStart 0 0 rfl, fun s => exec_recStart_badParam, fun s hw hf =>
    ⟨_, exec_recStart_ok hw hf, fun hshort => ?_, fun hle => ?_⟩⟩
  · exact (startRecords_recCount_toNat s).trans (recordCount_of_short _ hshort)
  · rw [startRecords_recCount_toNat, recordCount_of_le _ hle]
    exact ⟨Nat.div_mul_le_self _ _,
      (Nat.div_lt_iff_lt_mul (Nat.pos_of_ne_zero hw)).mp (Nat.lt_succ_self _)⟩

/-- Settles O33: the exhausted test, the width test, and the next record with and without its
attendance bytes. -/
theorem recNextProducesOrEnds : Obligations.RecNextProducesOrEnds := by
  refine ⟨fun a => decode_fieldWord (off := 0) (rel := a) rfl rfl,
    fun a s => exec_recNext_exhausted, fun s => exec_recNext_narrow, fun s hlt => ⟨?_, ?_, ?_⟩, ?_⟩
  · rw [← advanceRecord_recIdx_eq]
    exact exec_recNext_plain hlt
  · exact recordBase_lt s
  · rw [← advanceRecord_recIdx_eq]
    exact advanceRecord_recIdx_toNat hlt
  · rintro s r base hlt hw rfl hlen hr
    refine ⟨_, halfYear_toNat _, ?_⟩
    rw [exec_recNext_of_readsB hlt hw hlen hr, attendanceResult_take_drop,
      ← advanceRecord_recIdx_eq]
    rfl

/-- Settles O34: REC.START makes the iterator fit, every step on the same stream keeps it so, and a
record of a fitting iterator is one of those counted. -/
theorem recordsStayInsideTheResponse : Obligations.RecordsStayInsideTheResponse := by
  refine ⟨fun s t h hok => ?_,
    fun s t hfits h hw hf hh hl => step_keeps_iteratorFits hfits ⟨hw, hf, hh, hl⟩ h,
    fun s t a hfits h hok hend => ?_⟩
  · obtain rfl | ⟨hw, hf, rfl⟩ := exec_recStart_next h
    · cases hok
    · exact ⟨iteratorFits_startRecords hw hf,
        fun hle => (startRecords_recCount_toNat s).trans (recordCount_of_le _ hle)⟩
  · obtain ⟨-, ⟨hlt, hidx, hbase⟩ | ⟨-, hended⟩⟩ := exec_recNext_iterator h
    · exact ⟨hidx, hlt, hbase, hbase ▸ recordEnd_le_of_fits hfits hlt⟩
    · rw [hended hok] at hend
      cases hend

/-- Settles O31: the lookup, then the length, then the descriptor of a stream or a flat entry. -/
theorem rspCheckLooksUpThenChecks : Obligations.RspCheckLooksUpThenChecks := by
  refine ⟨fun c => decode_packWord .rspCheck c 0 rfl, fun c s => exec_rspCheck_unknown,
    fun c s => exec_rspCheck_short, fun c s hv hl => ?_⟩
  rw [exec_rspCheck_found hv hl]
  split
  next hk => rw [loadDescriptor_stream _ _ hk]; rfl
  next hk => rw [loadDescriptor_flat _ _ (eq_false_of_ne_true hk)]; rfl

end Sys2Proof.Proofs
end

section
/-! SUPPORT. How a command ends (R11, R210-R215): with OK, or with `raise` of one of its own codes and nothing else written, FRM.DEC's listed writes apart (R134); the ERR field of STATUS (R25, R29); the moves of a step that are not the engine's (R72, R224, R253). -/

namespace Sys2Proof.Machine

open Sys2Proof.Claims

/-! The end of a command. -/

/-- R213: every command can complete with OK. -/
theorem ok_mem_raises (i : Instr) : ErrCode.ok ∈ raises i := by
  cases i <;> exact .head _

section
variable {i : Instr} {s t : State}

/-- A command other than FRM.DEC that fails is `raise` on the old state (R211, R215). -/
theorem exec_ok_or_raises (hi : i ≠ .frmDec) (h : exec i s = .next t) :
    t.err = .ok ∨ ∃ e ∈ raises i, t = raiseErr e s := by
  cases i using instrCases with
  | crcInit | crcByte d => cases h; exact .inl rfl
  | crcRx start =>
    obtain ⟨-, rfl⟩ | ⟨-, r, rfl⟩ := exec_crcRx_next h
    · exact .inr ⟨.range, by simp [raises], rfl⟩
    · exact .inl rfl
  | frmEnc c p =>
    obtain ⟨-, rfl⟩ | ⟨-, r, -, rfl⟩ := exec_frmEnc_next h
    · exact .inr ⟨.range, by simp [raises], rfl⟩
    · exact .inl rfl
  | frmDec => exact absurd rfl hi
  | field i hf =>
    obtain ⟨r0, r1, r2, buf, len, rfl⟩ := exec_field_next hf h
    exact .inl rfl
  | rspCheck c =>
    obtain rfl | rfl | rfl := exec_rspCheck_next h
    · exact .inr ⟨.unknownCommand, by simp [raises], rfl⟩
    · exact .inr ⟨.incompleteResponse, by simp [raises], rfl⟩
    · exact .inl rfl
  | recStart =>
    obtain rfl | ⟨-, -, rfl⟩ := exec_recStart_next h
    · exact .inr ⟨.badParam, by simp [raises], rfl⟩
    · exact .inl rfl
  | recNext att =>
    obtain ⟨-, rfl⟩ | ⟨-, -, rfl⟩ | ⟨-, -, r0, r1, r2, r3, rfl⟩ | ⟨-, -, rfl⟩ :=
      exec_recNext_next h
    · exact .inl rfl
    · exact .inr ⟨.badParam, by simp [raises], rfl⟩
    · exact .inl rfl
    · exact .inl rfl

/-- A frame that passed the length and header checks is accepted, or its checksums differ and F_* and
CRC hold its values (R134, log entry 26). -/
theorem acceptFrame_ok_or_raises (body : List Byte) (lo hi : Byte) (s : State) :
    (acceptFrame body lo hi s).err = .ok ∨ ∃ d c p k r, acceptFrame body lo hi s =
      raiseErr .checksumMismatch
        { s with fDevid := d, fCmd := c, fPlen := p, fCksum := k, crc := r, ckok := false } := by
  rw [acceptFrame_eq]
  by_cases hbad : s.strict = true ∧ crcCompute body ≠ le16 lo hi
  · have hne : decide (crcCompute body = le16 lo hi) = false := decide_eq_false hbad.2
    rw [if_pos hbad, hne]
    exact .inr ⟨_, _, _, _, _, rfl⟩
  · exact .inl (if_neg hbad)

/-- A failing FRM.DEC is `raise` after CKOK ← 0, and on CHECKSUM_MISMATCH after the frame's values
(R134, R135). -/
theorem exec_frmDec_ok_or_raises (h : exec .frmDec s = .next t) :
    t.err = .ok ∨
    (∃ e ∈ [ErrCode.frameShort, .frameBadHeader], t = raiseErr e { s with ckok := false }) ∨
    ∃ d c p k r, t = raiseErr .checksumMismatch
      { s with fDevid := d, fCmd := c, fPlen := p, fCksum := k, crc := r, ckok := false } := by
  obtain ⟨-, rfl⟩ | ⟨-, rfl⟩ | ⟨-, -, body, lo, hi, -, -, -, rfl⟩ := exec_frmDec_next h
  · exact .inr (.inl ⟨.frameShort, by decide, rfl⟩)
  · exact .inr (.inl ⟨.frameBadHeader, by decide, rfl⟩)
  · exact (acceptFrame_ok_or_raises body lo hi s).imp_right .inr

theorem exec_next_err_mem_raises (h : exec i s = .next t) : t.err ∈ raises i := by
  by_cases hi : i = .frmDec
  · subst hi
    obtain hok | ⟨e, he, rfl⟩ | ⟨d, c, p, k, r, rfl⟩ := exec_frmDec_ok_or_raises h
    · exact hok ▸ ok_mem_raises .frmDec
    · have hsub : [ErrCode.frameShort, .frameBadHeader] ⊆ raises .frmDec := by decide
      exact hsub he
    · exact (by decide : ErrCode.checksumMismatch ∈ raises .frmDec)
  · obtain hok | ⟨e, he, rfl⟩ := exec_ok_or_raises hi h
    · exact hok ▸ ok_mem_raises i
    · exact he

end

/-! STATUS. -/

/-- STATUS[11:8] is the code of ERR (R25, R29). -/
theorem extractLsb'_statusWord_err (s : State) :
    (statusWord s).extractLsb' 8 4 = errBits s.err := by
  apply BitVec.eq_of_getLsbD_eq
  intro k hk
  have hflags : 8 + k ≠ 1 ∧ 8 + k ≠ 2 ∧ 8 + k ≠ 3 := by omega
  rw [BitVec.getLsbD_extractLsb', getLsbD_statusWord s (by omega)]
  simp [hk, hflags]

/-! The moves of a step that are not the engine's. -/

theorem step_of_idle {s : State} (hp : s.pending = none) (hn : hostNext s = none) :
    step s = .next s := by
  simp only [step, whoMoves_idle_iff.mpr ⟨hp, hn⟩]

theorem step_of_host {s : State} {st : HostStmt} (hp : s.pending = none)
    (hn : hostNext s = some st) : step s = hostStep st s := by
  simp only [step, whoMoves_host_iff.mpr ⟨hp, hn⟩]

theorem step_of_hostFirst {s : State} {w : Word} {st : HostStmt} (hp : s.pending = some w)
    (hn : hostNext s = some st) (hst : st ≠ .poll) (hd : s.delay ≠ 0) :
    step s = hostStep st (passTurn s) := by
  have hbusy : busy s = true := (busy_eq_true_iff s).mpr ⟨w, hp⟩
  simp only [step, whoMoves_hostFirst_iff.mpr ⟨hbusy, hn, hd, hst⟩]

end Sys2Proof.Machine
end

section
/-! The statements about errors and their codes (R210-R215), and about the other moves of a step (R72, R224, R241). -/

namespace Sys2Proof.Proofs

open Sys2Proof.Machine

/-- Settles O38: by how each command ends, and the ERR field of STATUS code by code. -/
theorem commandsRaiseOnlyTheirCodes : Obligations.CommandsRaiseOnlyTheirCodes := by
  refine ⟨fun i s t h => exec_next_err_mem_raises h, fun s => ?_⟩
  rw [extractLsb'_statusWord_err]
  cases s.err <;> rfl

/-- Settles O43: every error is `raise`, on the old state or on FRM.DEC's listed writes. -/
theorem failedCommandWritesOnlyItsCode : Obligations.FailedCommandWritesOnlyItsCode := by
  refine fun i s t h hfail => ⟨fun hi => ?_, ?_⟩
  · obtain hok | ⟨e, -, rfl⟩ := exec_ok_or_raises hi h
    · exact absurd hok hfail
    · rfl
  · rintro rfl
    obtain hok | ⟨e, -, rfl⟩ | ⟨d, c, p, k, r, rfl⟩ := exec_frmDec_ok_or_raises h
    · exact absurd hok hfail
    · exact ⟨rfl, fun _ => rfl, rfl⟩
    · exact ⟨rfl, fun hne => absurd rfl hne, rfl⟩

/-- Settles O3: by whose move it is; the reset state is idle. -/
theorem stepOtherMoves : Obligations.StepOtherMoves :=
  ⟨fun _ => step_of_idle, step_of_idle rfl rfl, fun _ _ => step_of_host,
    fun _ _ _ => step_of_hostFirst⟩

end Sys2Proof.Proofs
end

section
/-! The statement about the reset event (R240, R214). -/

namespace Sys2Proof.Machine

/-- The reset event as a host statement (R240): it has no condition, so a pending command does not
stop it (R214). -/
theorem hostStep_assertReset (s : State) :
    hostStep .assertReset s = .next (hostAdvance (resetBlock s)) := rfl

end Sys2Proof.Machine

namespace Sys2Proof.Proofs

open Sys2Proof.Machine

/-- Settles O57: the host's advance, made on the block that the event reset. -/
theorem resetEventResetsTheBlock : Obligations.ResetEventResetsTheBlock := by
  intro s
  rw [hostStep_assertReset, hostAdvance, resetBlock]

end Sys2Proof.Proofs
end
